-- ==== Sys2Proof/Word.lean ====
section
/-! DEFINITION. The value domain of the block. Every value on a wire is a mathematical integer, never wrapped (R11):
Lean's `Int`, written so everywhere. Bytes are the entries of DICT and OUT. -/

namespace Sys2Proof

/-- A byte, an integer in 0..255, as the entries of DICT and OUT hold it (R55; section 4 of spec/00_scope.md). -/
abbrev Byte := BitVec 8

end Sys2Proof
end

