-- ==== Sys2Proof/Config.lean ====
section
/-! DEFINITION. The parameters of the block (R6 to R9), its table registers (R7, R8, R30), and the free values (R240,
R32, R33). -/

namespace Sys2Proof

/-- Code lengths of one prefix-code table (R7, R130), sparse: the pairs (symbol, length) of the USED symbols,
symbols strictly rising. A symbol not listed has length 0, "unused". (The addresses alphabet has 2^ALOG2 symbols
with ALOG2 up to 255, so a dense list could not be written down.) -/
abbrev Lengths := List (Nat × Nat)

/-- Which delimiter the host appends first when it augments the dictionary (R243 item 2, D16). -/
inductive AugOrder where
  | windowFirst
  | dictFirst
deriving DecidableEq, Repr

/-- The parameters fixed when the block is built or the session begins (R6, R9, D16). -/
structure Config where
  /-- OUT_MAX: entries of the output buffer and iterations of a run (R6). -/
  outMax : Nat
  /-- NBITS: entries of the bit array C (R6, D25). -/
  nbits : Nat
  /-- WMAX: largest window width the tables support (R6, D27). -/
  wmax : Nat
  /-- MAX_INPUT: the compressor's maximum on the input, at most OUT_MAX in a valid configuration (R6, R10). -/
  maxInput : Nat
  /-- MAX_DICT: the compressor's maximum on the dictionary (R6); no rule constrains it. -/
  maxDict : Nat
  /-- AW_WIN: address bit-width of a window match, at most ALOG2 (R9); bounds well-formed streams (R169). -/
  awWin : Nat
  /-- AW_DICT: address bit-width of a dictionary match, at most ALOG2 (R9); bounds well-formed streams (R169). -/
  awDict : Nat
  /-- AUG_ORDER: the host's order of the two appended delimiters (R243, D16). -/
  augOrder : AugOrder
deriving DecidableEq, Repr

/-- The table and delimiter registers (R7, R8, R30) together with the code lengths the three lookup tables are
functions of (R35, R130, R147). Written by the host, read-only to the block. -/
structure Tables where
  /-- DELIM_W (R8, R30). -/
  delimW : Byte
  /-- DELIM_D (R8, R30). -/
  delimD : Byte
  /-- ALOG2 (R7, R30). -/
  alog2 : Nat
  /-- WC (R7, R30). -/
  wc : Nat
  /-- WL (R7, R30). -/
  wl : Nat
  /-- WA (R7, R30). -/
  wa : Nat
  /-- CH_LEN, the code lengths of the chars table (R7). -/
  chLen : Lengths
  /-- LN_LEN, the code lengths of the lengths table (R7). -/
  lnLen : Lengths
  /-- AD_LEN, the code lengths of the addresses table (R7). -/
  adLen : Lengths
deriving DecidableEq, Repr

/-- LW, the length bit-width of both match types (R9). -/
def lengthBits : Nat := 8

/-- FREE VALUE: what LEVEL holds after the n-th reset of a machine (R240: reset leaves LEVEL unspecified). -/
opaque Config.freeLevel : Nat → Byte

/-- FREE VALUE: what BYP holds after the n-th reset of a machine (R240: reset leaves BYP unspecified). -/
opaque Config.freeByp : Nat → Bool

/-- FREE VALUE: what entry k of C holds while the host has not loaded it (R32: the reset value is unspecified). -/
opaque Config.freeBit : Nat → Bool

/-- FREE VALUE: what entry k of DICT holds while the host has not loaded it (R33: the reset value is unspecified). -/
opaque Config.freeDict : Nat → Byte

end Sys2Proof
end

