-- ==== Sys2Proof/Machine/Arith.lean ====
section
/-! DEFINITION. The arithmetic primitives of the constrained executor (spec/40_primitive_ops.md R110 to R120), as
functions; the instructions' meanings and the iteration datapath are both written over them. -/

namespace Sys2Proof.Machine

/-- R110. -/
def opAdd (a b : Int) : Int := a + b

/-- R111. -/
def opMul (a b : Int) : Int := a * b

/-- R112: the product is added to the accumulator. -/
def opMac (acc a b : Int) : Int := acc + a * b

/-- R118: SUB a, b = ADD a, (MUL -1, b). -/
def opSub (a b : Int) : Int := opAdd a (opMul (-1) b)

/-- R118: NEG b = MUL -1, b. -/
def opNeg (b : Int) : Int := opMul (-1) b

/-- R115: the formula b + c*(a - b), for every integer c (U10). -/
def opSelect (c a b : Int) : Int := opAdd b (opMul c (opSub a b))

/-- R119. -/
def opIsZero (x : Int) : Int := if x = 0 then 1 else 0

/-- R120: EQ a, b = ISZERO (SUB a, b). -/
def opEq (a b : Int) : Int := opIsZero (opSub a b)

/-- What ASSERT_BOOL tests (R114). -/
def isBoolean (a : Int) : Bool := a == 0 || a == 1

/-- The first entry, lowest index first, that is not boolean (R226: assertions in index order). -/
def firstNonBoolean (c : List Int) : Option Int := c.find? (fun a => !isBoolean a)

/-- A flag as the 0/1 value the datapath reads (section 4 of spec/00_scope.md: [P]). -/
def ofFlag (b : Bool) : Int := if b then 1 else 0

/-- A flag register takes a 0/1 value. -/
def toFlag (v : Int) : Bool := v != 0

/-- A byte as a value, 0..255. -/
def ofByte (b : Byte) : Int := (b.toNat : Int)

/-- A one-byte entry takes a value of 0..255 (R38: 0 <= s <= 255; no value outside reaches it in a run). -/
def toByte (v : Int) : Byte := BitVec.ofInt 8 v

end Sys2Proof.Machine
end

