-- ==== Sys2Proof/Machine/PrefixCode.lean ====
section
/-! DEFINITION. The bit reader over the compressed-bit array, the canonical prefix code, the lookup tables it expands
to, and the reference reader (spec/41_prefix_code.md). -/

namespace Sys2Proof.Machine

/-- BIT(k): entry k of the array, 0 beyond it (R67). -/
def bitAt (c : List Int) (k : Nat) : Int := c.getD k 0

/-- R137's loop from position p with w bits to read and the accumulator so far. -/
def winFrom (c : List Int) (p : Nat) : Nat → Int → Int
  | 0, acc => acc
  | w + 1, acc => winFrom c (p + 1) w (opMac (bitAt c p) 2 acc)

/-- WIN(p, w) of R137: the bit at p is the most significant. -/
def win (c : List Int) (p w : Nat) : Int := winFrom c p w 0

/-- LEN_T[s], 0 for an unused symbol (R130). -/
def codeLen : Lengths → Nat → Nat
  | [], _ => 0
  | (k, l) :: rest, s => if k = s then l else codeLen rest s

/-- W_T, the largest code length (R7, R136). -/
def maxLen : Lengths → Nat
  | [] => 0
  | (_, l) :: rest => max l (maxLen rest)

/-- The Kraft sum in integers: the sum of 2^(W - LEN) over the used symbols (R131). -/
def kraftSum (w : Nat) : Lengths → Nat
  | [] => 0
  | (_, l) :: rest => 2 ^ (w - l) + kraftSum w rest

/-- A table is complete when its Kraft sum is exactly 1 (R131). -/
def complete (t : Lengths) : Bool := kraftSum (maxLen t) t == 2 ^ maxLen t

/-- Symbols listed are at least `lo`, strictly rising, below the alphabet size n, and used (length at least 1). -/
def shapedFrom (n : Nat) : Nat → Lengths → Bool
  | _, [] => true
  | lo, (k, l) :: rest => decide (lo ≤ k) && decide (k < n) && decide (1 ≤ l) && shapedFrom n (k + 1) rest

/-- The canonical form of a table over an alphabet of n symbols (R7, R130). -/
def shaped (n : Nat) (t : Lengths) : Bool := shapedFrom n 0 t

/-- Used symbols sorted ascending by (length, symbol id) (R132). -/
def ordered (t : Lengths) : Lengths :=
  (List.range (maxLen t)).flatMap (fun l => t.filter (fun e => e.2 == l + 1))

/-- One symbol's canonical code: a number of `len` bits (R132). -/
structure CodeEntry where
  sym : Nat
  len : Nat
  code : Nat
deriving DecidableEq, Repr

/-- R132's loop after its first symbol: increment, then shift left by the increase in length. -/
def assignFrom (c lp : Nat) : Lengths → List CodeEntry
  | [] => []
  | (s, l) :: rest => ⟨s, l, (c + 1) * 2 ^ (l - lp)⟩ :: assignFrom ((c + 1) * 2 ^ (l - lp)) l rest

/-- R132 over a sorted list: the counter starts at 0. -/
def assign : Lengths → List CodeEntry
  | [] => []
  | (s, l) :: rest => ⟨s, l, 0⟩ :: assignFrom 0 l rest

/-- CODE_T, the canonical codes of a table, in the order of R132. -/
def codes (t : Lengths) : List CodeEntry := assign (ordered t)

/-- CODE_T[s] of a used symbol (R132). -/
def codeOf (t : Lengths) (s : Nat) : Nat :=
  match (codes t).find? (fun e => e.sym == s) with
  | some e => e.code
  | none => 0

/-- R136: the keys a code fills in a table of width w. -/
def CodeEntry.covers (e : CodeEntry) (w : Nat) (k : Int) : Bool :=
  decide (((e.code * 2 ^ (w - e.len) : Nat) : Int) ≤ k) &&
    decide (k < (((e.code + 1) * 2 ^ (w - e.len) : Nat) : Int))

/-- LUT_T[k] (R136, R147): symbol and code length, none where no entry exists. R35 and R136 give the table where w is the
largest code length; what it holds while the width register says otherwise is the model's choice: a code of at most w bits
fills the keys it begins, a longer one the key equal to its code, wherever that lies (log entry 19). -/
def lutAt (t : Lengths) (w : Nat) (k : Int) : Option (Nat × Nat) :=
  match (codes t).find? (fun e => e.covers w k) with
  | some e => some (e.sym, e.len)
  | none => none

/-- A field decode at bit position p: the lookup keyed by the bit window (R138 to R140). -/
def fieldAt (t : Lengths) (w : Nat) (c : List Int) (p : Nat) : Option (Nat × Nat) :=
  lutAt t w (win c p w)

/-- R135's loop: l bits consumed so far make the value acc; `fuel` bits may still be read. -/
def refReadFrom (cs : List CodeEntry) (c : List Int) : Nat → Nat → Nat → Int → Option (Nat × Nat)
  | 0, _, _, _ => none
  | fuel + 1, p, l, acc =>
    match cs.find? (fun e => e.len == l + 1 && ((e.code : Int) == opMac (bitAt c p) 2 acc)) with
    | some e => some (e.sym, e.len)
    | none => refReadFrom cs c fuel (p + 1) (l + 1) (opMac (bitAt c p) 2 acc)

/-- The reference reader at position p (R135): bits are consumed until they equal some symbol's code; the answer is
the symbol and the number of bits consumed. -/
def refRead (t : Lengths) (c : List Int) (p : Nat) : Option (Nat × Nat) :=
  refReadFrom (codes t) c (maxLen t) p 0 0

end Sys2Proof.Machine
end

