-- ==== Sys2Proof/Syntax.lean ====
section
/-! DEFINITION. The instructions: one constructor for each row of spec/opcode_table.json. -/

namespace Sys2Proof

/-- The memories a LOOKUP can name (R116; section 4 of spec/00_scope.md). -/
inductive Space where
  | bits
  | dict
  | out
  | src
  | lutCh
  | lutLn
  | lutAd
deriving DecidableEq, Repr

/-- Every row of the opcode table, in the table's order. Operands of the PRIM rows are integers (R110 to R120), those
of the FIELD rows bit positions and a constant width (R137 to R140), those of the record rows the ASSEMBLED
operands of R87 and R97 (true length, true distance, dictionary address). -/
inductive Instr where
  /-- ADD a, b (R110). -/
  | add (a b : Int)
  /-- MUL a, b (R111). -/
  | mul (a b : Int)
  /-- MAC acc, a, b (R112). -/
  | mac (acc a b : Int)
  /-- ASSERT_EQ a, b (R113). -/
  | assertEq (a b : Int)
  /-- ASSERT_BOOL a (R114). -/
  | assertBool (a : Int)
  /-- SELECT c, a, b (R115). -/
  | select (c a b : Int)
  /-- LOOKUP space, key (R116). -/
  | lookup (space : Space) (key : Int)
  /-- INSERT OUT, key, v (R117). -/
  | insert (key : Int) (v : Byte)
  /-- SUB a, b (R118). -/
  | sub (a b : Int)
  /-- ISZERO x (R119). -/
  | isZero (x : Int)
  /-- EQ a, b (R120). -/
  | eq (a b : Int)
  /-- WIN p, w (R137). -/
  | win (p w : Nat)
  /-- DEC_CHARS p (R138). -/
  | decChars (p : Nat)
  /-- DEC_LEN p (R139). -/
  | decLen (p : Nat)
  /-- DEC_ADDR p (R140). -/
  | decAddr (p : Nat)
  /-- HDR_NOCOMP (R81, R161): the header byte 0. -/
  | hdrNocomp
  /-- HDR_COMP (R81, R161): a header byte other than 0. -/
  | hdrComp (level : Byte)
  /-- RAW b (R83, R162). -/
  | raw (b : Byte)
  /-- LIT s (R84, R163). -/
  | lit (s : Byte)
  /-- WMATCH len, dist (R85, R164). -/
  | wmatch (len dist : Nat)
  /-- DMATCH len, addr (R86, R165). -/
  | dmatch (len addr : Nat)
  /-- START, the start step (R242). -/
  | start
  /-- ITER, one iteration of the datapath (R180). -/
  | iter
deriving DecidableEq, Repr

end Sys2Proof
end

