-- ==== Sys2Proof/WellFormed.lean ====
section
/-! DEFINITION. Well-formed instructions: the operand ranges of R97 and R88, and that every coded field of a record
has a code in the loaded tables (R93). -/

namespace Sys2Proof

open Sys2Proof.Machine

/-- Symbol s of a table has a code (R93). -/
def used (t : Lengths) (s : Nat) : Bool := decide (0 < codeLen t s)

/-- Well-formedness of an instruction under the loaded tables. -/
def Instr.wf (t : Tables) : Instr → Bool
  | .add _ _ => true
  | .mul _ _ => true
  | .mac _ _ _ => true
  | .assertEq _ _ => true
  | .assertBool _ => true
  | .select _ _ _ => true
  | .lookup _ _ => true
  | .insert key _ => decide (0 ≤ key)
  | .sub _ _ => true
  | .isZero _ => true
  | .eq _ _ => true
  | .win _ _ => true
  | .decChars _ => true
  | .decLen _ => true
  | .decAddr _ => true
  | .hdrNocomp => true
  | .hdrComp level => decide (level ≠ 0)
  | .raw _ => true
  | .lit s => decide (s ≠ t.delimW) && decide (s ≠ t.delimD) && used t.chLen s.toNat
  | .wmatch len dist =>
    decide (1 ≤ len) && decide (len ≤ 256) && decide (1 ≤ dist) && decide (dist ≤ 2 ^ t.alog2) &&
      used t.chLen t.delimW.toNat && used t.lnLen (len - 1) && used t.adLen (dist - 1)
  | .dmatch len addr =>
    decide (1 ≤ len) && decide (len ≤ 256) && decide (addr < 2 ^ t.alog2) &&
      used t.chLen t.delimD.toNat && used t.lnLen (len - 1) && used t.adLen addr
  | .start => true
  | .iter => true

end Sys2Proof
end

