-- ==== Sys2Proof/Decode.lean ====
section
/-! DEFINITION. Decoding the header and the records from the bit array (spec/30_encoding.md), and after it the
encoder, written from the same formats. The PRIM, FIELD and STEP rows have no bits of their own (R99, R100). -/

namespace Sys2Proof

open Sys2Proof.Machine

/-- What stands at the position being decoded: the header, a raw byte (after HDR_NOCOMP), or a coded record (after
HDR_COMP); R81, R83 to R86. -/
inductive DecodeMode where
  | header
  | raw
  | coded
deriving DecidableEq, Repr

/-- Why a position does not decode. None of these arises from bits and complete tables (R92, R141). -/
inductive DecodeError where
  /-- The 8-bit window is no byte: an entry of the array is not boolean. -/
  | notByte
  /-- The chars window has no table entry. -/
  | noChars
  /-- The lengths window has no table entry. -/
  | noLength
  /-- The addresses window has no table entry. -/
  | noAddress
deriving DecidableEq, Repr

/-- An 8-bit window read as a byte (R51). -/
def byteAt (c : List Int) (p : Nat) : Option Byte :=
  if 0 ≤ win c p 8 ∧ win c p 8 < 256 then some (toByte (win c p 8)) else none

/-- The mode the records are decoded in (R81). -/
def recordMode (byp : Bool) : DecodeMode := if byp then .raw else .coded

/-- The two fields after a delimiter (R85, R86): stored length and stored address with the record's length in bits. -/
def decodeMatch (t : Tables) (c : List Int) (p ls : Nat) : Except DecodeError (Nat × Nat × Nat) :=
  match fieldAt t.lnLen t.wl c (p + ls) with
  | none => .error .noLength
  | some (lv, ll) =>
    match fieldAt t.adLen t.wa c (p + ls + ll) with
    | none => .error .noAddress
    | some (av, la) => .ok (lv, av, ls + ll + la)

/-- A coded record (R84 to R87 and section 10 of spec/30_encoding.md). -/
def decodeCoded (t : Tables) (c : List Int) (p : Nat) : Except DecodeError (Instr × Nat) :=
  match fieldAt t.chLen t.wc c p with
  | none => .error .noChars
  | some (s, ls) =>
    if s = t.delimW.toNat then
      match decodeMatch t c p ls with
      | .error e => .error e
      | .ok (lv, av, n) => .ok (.wmatch (lv + 1) (av + 1), n)
    else if s = t.delimD.toNat then
      match decodeMatch t c p ls with
      | .error e => .error e
      | .ok (lv, av, n) => .ok (.dmatch (lv + 1) av, n)
    else .ok (.lit (BitVec.ofNat 8 s), ls)

/-- The instruction at bit position p and its length in bits. -/
def decode (t : Tables) (m : DecodeMode) (c : List Int) (p : Nat) : Except DecodeError (Instr × Nat) :=
  match m with
  | .header =>
    match byteAt c p with
    | none => .error .notByte
    | some b => .ok (if b = 0 then .hdrNocomp else .hdrComp b, 8)
  | .raw =>
    match byteAt c p with
    | none => .error .notByte
    | some b => .ok (.raw b, 8)
  | .coded => decodeCoded t c p

/-! The encoder. -/

/-- The low `l` bits of a number, most significant first (R50). -/
def bitsOf : Nat → Nat → List Int
  | 0, _ => []
  | l + 1, v => ((v / 2 ^ l % 2 : Nat) : Int) :: bitsOf l v

/-- The 8 bits of a byte, most significant first (R51, R83). -/
def byteBits (b : Byte) : List Int := bitsOf 8 b.toNat

/-- The bits of a symbol's canonical code (R133). -/
def symBits (t : Lengths) (s : Nat) : List Int := bitsOf (codeLen t s) (codeOf t s)

/-- The rows whose words are bits of the stream (R100: formats HDR, RAW, LIT, WMATCH, DMATCH), with the mode each is
legal in; none for the rows without bits. -/
def Instr.mode? : Instr → Option DecodeMode
  | .add _ _ => none
  | .mul _ _ => none
  | .mac _ _ _ => none
  | .assertEq _ _ => none
  | .assertBool _ => none
  | .select _ _ _ => none
  | .lookup _ _ => none
  | .insert _ _ => none
  | .sub _ _ => none
  | .isZero _ => none
  | .eq _ _ => none
  | .win _ _ => none
  | .decChars _ => none
  | .decLen _ => none
  | .decAddr _ => none
  | .hdrNocomp => some .header
  | .hdrComp _ => some .header
  | .raw _ => some .raw
  | .lit _ => some .coded
  | .wmatch _ _ => some .coded
  | .dmatch _ _ => some .coded
  | .start => none
  | .iter => none

/-- The bits of an instruction (R81, R83 to R86); empty for the rows without bits (R99, R100). -/
def encode (t : Tables) : Instr → List Int
  | .add _ _ => []
  | .mul _ _ => []
  | .mac _ _ _ => []
  | .assertEq _ _ => []
  | .assertBool _ => []
  | .select _ _ _ => []
  | .lookup _ _ => []
  | .insert _ _ => []
  | .sub _ _ => []
  | .isZero _ => []
  | .eq _ _ => []
  | .win _ _ => []
  | .decChars _ => []
  | .decLen _ => []
  | .decAddr _ => []
  | .hdrNocomp => byteBits 0
  | .hdrComp level => byteBits level
  | .raw b => byteBits b
  | .lit s => symBits t.chLen s.toNat
  | .wmatch len dist =>
    symBits t.chLen t.delimW.toNat ++ symBits t.lnLen (len - 1) ++ symBits t.adLen (dist - 1)
  | .dmatch len addr =>
    symBits t.chLen t.delimD.toNat ++ symBits t.lnLen (len - 1) ++ symBits t.adLen addr
  | .start => []
  | .iter => []

/-- The length of an instruction in bits, from the code lengths (R83 to R86, R89). -/
def Instr.bitLen (t : Tables) : Instr → Nat
  | .add _ _ => 0
  | .mul _ _ => 0
  | .mac _ _ _ => 0
  | .assertEq _ _ => 0
  | .assertBool _ => 0
  | .select _ _ _ => 0
  | .lookup _ _ => 0
  | .insert _ _ => 0
  | .sub _ _ => 0
  | .isZero _ => 0
  | .eq _ _ => 0
  | .win _ _ => 0
  | .decChars _ => 0
  | .decLen _ => 0
  | .decAddr _ => 0
  | .hdrNocomp => 8
  | .hdrComp _ => 8
  | .raw _ => 8
  | .lit s => codeLen t.chLen s.toNat
  | .wmatch len dist =>
    codeLen t.chLen t.delimW.toNat + codeLen t.lnLen (len - 1) + codeLen t.adLen (dist - 1)
  | .dmatch len addr =>
    codeLen t.chLen t.delimD.toNat + codeLen t.lnLen (len - 1) + codeLen t.adLen addr
  | .start => 0
  | .iter => 0

/-- The bit array of a stream: its statements' bits one after another (R80, R97, R98). END emits nothing: it marks the
length of this list, which is CLEN (R90). -/
def assemble (t : Tables) (prog : List Instr) : List Int := prog.flatMap (encode t)

/-- A byte image unpacked into bits, most significant bit of each byte first (R51). -/
def unpack (bytes : List Byte) : List Int := bytes.flatMap byteBits

/-! The words of spec/opcode_table.json. -/

/-- The first `n` bytes of a table word, the first byte in its low bits. -/
def wordBytes : Nat → Nat → List Byte
  | 0, _ => []
  | n + 1, w => BitVec.ofNat 8 w :: wordBytes n (w / 256)

/-- Tables with nothing loaded: a word of the opcode table comes without tables (R100), so a coded field of it cannot
be read. -/
def noTables : Tables :=
  { delimW := 0, delimD := 0, alog2 := 0, wc := 0, wl := 0, wa := 0, chLen := [], lnLen := [], adLen := [] }

/-- The instruction the decoder reads from a table word. A word of one byte is a header (the only row with fixed
bits). A longer word is a stream: a header byte and then the record, since a record is legal only after its header
(R83, R84). A row that the table gives no bits has no word. -/
def decodeTableWord (nbits w : Nat) : Option Instr :=
  if nbits = 0 then none
  else
    let c := unpack (wordBytes ((nbits + 7) / 8) w)
    if nbits ≤ 8 then (decode noTables .header c 0).toOption.map Prod.fst
    else
      match byteAt c 0 with
      | none => none
      | some h => (decode noTables (recordMode (h == 0)) c 8).toOption.map Prod.fst

end Sys2Proof
end

