-- ==== Sys2Proof/Machine/State.lean ====
section
/-! DEFINITION. The architectural state (spec/10_state.md), the reasons a step can stop, and the state after reset. -/

namespace Sys2Proof.Machine

/-- A byte memory: (key, byte) pairs with keys strictly rising. A key not listed has not been written: an unwritten
entry of OUT holds NO value (R34); an entry of DICT the host has not loaded holds a free value (R33, log entry 8). -/
abbrev Memory := List Host.Cell

/-- PHASE (R28). -/
inductive Phase where
  | idle
  | run
  | done
deriving DecidableEq, Repr

/-- FCODE (R221). -/
inductive FaultCode where
  | noFault
  | configInvalid
  | assertFail
  | lookupMiss
deriving DecidableEq, Repr

/-- Which check of the start step failed: the information ConfigInvalid records (R221, R222, R10). -/
inductive ConfigCheck where
  /-- CH is not a complete table over 256 symbols (R131). -/
  | charsIncomplete
  /-- LN is not a complete table over 256 symbols (R131). -/
  | lengthsIncomplete
  /-- AD is not a complete table over 2^ALOG2 symbols (R131). -/
  | addressesIncomplete
  /-- A code length exceeds WMAX, or 255 (R96). -/
  | codeTooLong
  /-- DELIM_W = DELIM_D (R8). -/
  | delimsEqual
  /-- DICT_LEN < 2 (R8, R10). -/
  | dictTooShort
  /-- NBITS is below 8 or no multiple of 8 (R6). -/
  | badNbits
  /-- ALOG2 does not fit its byte (R7). -/
  | alog2TooLarge
  /-- WC, WL or WA is not the largest code length of its table (R7, R30). -/
  | widthMismatch
  /-- AW_WIN or AW_DICT exceeds ALOG2 (R9). -/
  | addressWidthTooLarge
  /-- OUT_MAX < MAX_INPUT (R6). -/
  | outMaxTooSmall
  /-- DICT lacks a delimiter value (R8, R243 item 2). -/
  | dictNotAugmented
deriving DecidableEq, Repr

/-- The information a fault records (the last column of R221's table; `raise <Fault>(info)`). -/
inductive FaultInfo where
  | nothing
  /-- ConfigInvalid: which check failed. -/
  | config (c : ConfigCheck)
  /-- AssertFail of ASSERT_EQ: the two values. -/
  | assertEq (a b : Int)
  /-- AssertFail of ASSERT_BOOL: the value. -/
  | assertBool (a : Int)
  /-- LookupMiss: I and the key. -/
  | miss (i : Nat) (key : Int)
deriving DecidableEq, Repr

/-- What the last FIELD or PRIM instruction yielded to the datapath (spec/40_primitive_ops.md: "each yields a value to
the datapath"). The MODEL's own port; no instruction reads it. -/
inductive Yield where
  | nothing
  | value (v : Int)
  /-- A table entry: symbol and code length (R116). -/
  | entry (sym len : Nat)
deriving DecidableEq, Repr

/-- At which of the spec's levels `step` moves (R12): the block's own sequencer, one iteration a step, or one header
or record of the stream a step, as the oracle of spec/42_stream_records.md executes them. The MODEL's own. -/
inductive View where
  | hardware
  | record
deriving DecidableEq, Repr

/-- An action of the host (R31, R230, R240, R242, R243). -/
inductive HostReq where
  /-- Reset, in any phase (R240). -/
  | reset
  /-- The start request (R242). -/
  | start
  /-- Choose the configuration constants OUT_MAX, NBITS and the other parameters (R243 item 1, R6). -/
  | configure (c : Config)
  /-- Load C (R32) from entry 0 on. -/
  | writeBits (c : List Int)
  /-- Write CLEN (R29). -/
  | writeClen (n : Nat)
  /-- Write DELIM_W (R30). -/
  | writeDelimW (b : Byte)
  /-- Write DELIM_D (R30). -/
  | writeDelimD (b : Byte)
  /-- Write DICT_LEN (R30). -/
  | writeDictLen (n : Nat)
  /-- Load DICT (R33) from entry 0 on. -/
  | writeDict (bytes : List Byte)
  /-- Write ALOG2 (R30). -/
  | writeAlog2 (n : Nat)
  /-- Write WC (R30). -/
  | writeWc (n : Nat)
  /-- Write WL (R30). -/
  | writeWl (n : Nat)
  /-- Write WA (R30). -/
  | writeWa (n : Nat)
  /-- Load the code lengths that LUT_CH is expanded from (R35, R147). -/
  | writeChars (t : Lengths)
  /-- Load the code lengths that LUT_LN is expanded from (R35, R147). -/
  | writeLengths (t : Lengths)
  /-- Load the code lengths that LUT_AD is expanded from (R35, R147). -/
  | writeAddresses (t : Lengths)
deriving DecidableEq, Repr

/-- The state. Configuration, inputs, working registers, fault registers, output memory (R20 to R36), then the model's
own fields. The lookup tables LUT_CH, LUT_LN, LUT_AD are views of `tab` (R35, R147); C is `State.bits`, of `loaded`
and NBITS; SRC is the key space of `srcRead` (R36). -/
structure State where
  /-- The parameters (R6, R9). -/
  cfg : Config
  /-- DELIM_W, DELIM_D, ALOG2, WC, WL, WA and the code lengths of the three tables (R30, R35). -/
  tab : Tables
  /-- DICT_LEN (R30). -/
  dictLen : Nat
  /-- DICT, the entries the host has loaded (R33). -/
  dict : Memory
  /-- BITS, the entries of C the host has loaded, from entry 0 on (R32). Entries are values, so that the boolean
  assertions of R242 say something (R114). -/
  loaded : List Int
  /-- CLEN (R29). -/
  clen : Nat
  /-- I (R21). -/
  i : Nat
  /-- CUR, the bit cursor and program counter (R22). -/
  cur : Nat
  /-- REM (R23). -/
  rem : Nat
  /-- OLEN (R24). -/
  olen : Nat
  /-- LEVEL (R25). -/
  level : Byte
  /-- BYP (R25). -/
  byp : Bool
  /-- EOF (R26). -/
  eof : Bool
  /-- FAULT (R27). -/
  fault : Bool
  /-- FCODE (R27, R221). -/
  fcode : FaultCode
  /-- The information recorded with the fault (R221). -/
  finfo : FaultInfo
  /-- PHASE (R28). -/
  phase : Phase
  /-- OUT (R34). -/
  out : Memory
  /-- MODEL: the last value yielded by a PRIM or FIELD instruction. -/
  yielded : Yield
  /-- MODEL: the host's pending actions, first to be taken first. -/
  req : List HostReq
  /-- MODEL: the level `step` moves at (R12). -/
  view : View
  /-- MODEL: how many resets have drawn a free value. -/
  fresh : Nat
deriving DecidableEq, Repr

/-- Why the machine stops with a fault. All are the spec's "no step is enabled" (R180, R226, R228, R242, R244): safe,
since nothing further can be shown of a machine that has stopped. -/
inductive Fault where
  /-- START outside PHASE = IDLE, or with FAULT = 1 (R242, R226); safe. -/
  | startNotEnabled
  /-- ITER outside PHASE = RUN, or with FAULT = 1 (R180); safe. -/
  | iterNotEnabled
  /-- A header executed other than once and first (R161), or with FAULT = 1; safe. -/
  | headerNotEnabled
  /-- A record where R162 to R165 do not execute one: after the end of the stream, within a copy, in the other mode of
  the header, outside a run, or with FAULT = 1; safe. -/
  | recordNotEnabled
  /-- INSERT outside a live run: the block owns OUT only while PHASE = RUN (R230); safe. -/
  | insertNotEnabled
  /-- A step in PHASE = IDLE without the host's start request (R242); safe. -/
  | noStartRequest
  /-- A step when the run is over: PHASE = DONE, or FAULT = 1 (R244, R227); safe. -/
  | runOver
  /-- A record-level step after the end of the stream (R166); safe. -/
  | endOfStream
deriving DecidableEq, Repr

/-- Why a step is refused. -/
inductive Refusal where
  /-- An instruction whose meaning is not modelled yet; raised by no arm now; safe. -/
  | notModelled (mnemonic : String)
  /-- INSERT at a written key, at a key other than I, or beyond OUT (R57: "such an insert is refused"); safe. -/
  | insertOutOfOrder
  /-- A record or header given to exec that is not well-formed under the loaded tables: no stream holds it (R84, R91,
  R93); safe. -/
  | notEncodable
  /-- The bits at the cursor do not decode (a non-boolean entry or an incomplete table; U2); safe. -/
  | undecodable (e : DecodeError)
  /-- A host write while PHASE = RUN (R31, R66, U7); safe. -/
  | hostWriteDuringRun
deriving DecidableEq, Repr

/-- The outcome type of every meaning. -/
abbrev Result := Host.Outcome State Fault Refusal

/-- The machine after a power-on reset: R39 and R240 for the working registers, R34 for OUT; the values the spec leaves
unspecified are the model's (log entries 5 and 6). -/
def State.reset : State where
  cfg := { outMax := 0, nbits := 8, wmax := 1, maxInput := 0, maxDict := 0, awWin := 0, awDict := 0, augOrder := .windowFirst }
  tab := { delimW := 0, delimD := 0, alog2 := 0, wc := 0, wl := 0, wa := 0, chLen := [], lnLen := [], adLen := [] }
  dictLen := 0
  dict := []
  loaded := []
  clen := 0
  i := 0
  cur := 8
  rem := 0
  olen := 0
  level := 0
  byp := false
  eof := false
  fault := false
  fcode := .noFault
  finfo := .nothing
  phase := .idle
  out := []
  yielded := .nothing
  req := []
  view := .hardware
  fresh := 0

end Sys2Proof.Machine
end

