-- ==== Sys2Proof/Machine/Ops.lean ====
section
/-! DEFINITION. The named operations over memories and registers (spec/20_memory.md, spec/40_primitive_ops.md section
2), taking a fault (spec/60_exceptions.md R227), and reset (R240), which is the only return from one (R228). -/

namespace Sys2Proof.Machine

/-! Memories. -/

/-- The byte at a key, none where the key holds no value. -/
def Memory.read : Memory → Nat → Option Byte
  | [], _ => none
  | (k, b) :: rest, a => if k = a then some b else Memory.read rest a

/-- The memory with a byte at a key, keys kept strictly rising. -/
def Memory.write : Memory → Nat → Byte → Memory
  | [], a, v => [(a, v)]
  | (k, b) :: rest, a, v =>
    if a < k then (a, v) :: (k, b) :: rest
    else if a = k then (a, v) :: rest
    else (k, b) :: Memory.write rest a v

/-- Keys strictly rising from `lo` on. -/
def Memory.wfFrom : Nat → Memory → Bool
  | _, [] => true
  | lo, (k, _) :: rest => decide (lo ≤ k) && Memory.wfFrom (k + 1) rest

/-- The canonical form: keys strictly rising. (An unlisted key reads as no value, so no entry can equal that.) -/
def Memory.wf (m : Memory) : Bool := Memory.wfFrom 0 m

/-- A list of bytes written from a key on; the entries beyond stay as they were (the model's choice, log entry 8). -/
def Memory.load (k : Nat) (m : Memory) : List Byte → Memory
  | [] => m
  | b :: rest => Memory.load (k + 1) (m.write k b) rest

/-- A memory with a list of bytes from key 0 on, and nothing else. -/
def Memory.ofBytes (bytes : List Byte) : Memory := Memory.load 0 [] bytes

/-! Taking a fault and reset. -/

/-- R227 for a machine that holds no fault: FAULT and FCODE are written, and the information recorded; nothing else. -/
def enterFault (s : State) (code : FaultCode) (info : FaultInfo) : State :=
  { s with fault := true, fcode := code, finfo := info }

/-- Taking a fault (R227). FAULT is sticky and FCODE keeps the code of the FIRST fault taken (R27). -/
def takeFault (s : State) (code : FaultCode) (info : FaultInfo) : State :=
  if s.fault then s else enterFault s code info

/-- Reset (R240), in any phase: the working registers, FAULT, FCODE and OUT as R39 says; LEVEL and BYP left unspecified
(free values); configuration, C and CLEN not touched. That the information recorded with a fault is cleared with FCODE
is the model's choice: R240 and R39 do not list it (log entry 11). -/
def hostReset (s : State) : State :=
  { s with
    phase := .idle, i := 0, cur := 8, rem := 0, olen := 0, eof := false
    fault := false, fcode := .noFault, finfo := .nothing, out := []
    level := Config.freeLevel s.fresh, byp := Config.freeByp s.fresh, fresh := s.fresh + 1 }

/-- The number of a fault code, as FCODE holds it (R221). -/
def FaultCode.number : FaultCode → Nat
  | .noFault => 0
  | .configInvalid => 1
  | .assertFail => 2
  | .lookupMiss => 3

/-! Registers. -/

/-- NBITS, the number of entries of C (R6). -/
def State.nbits (s : State) : Nat := s.cfg.nbits

/-- n entries of C from entry k on: those the host has loaded, then free bits (R32). -/
def fitBits : Nat → Nat → List Int → List Int
  | 0, _, _ => []
  | n + 1, k, [] => ofFlag (Config.freeBit k) :: fitBits n (k + 1) []
  | n + 1, k, b :: rest => b :: fitBits n (k + 1) rest

/-- C, the array of NBITS entries (R32). -/
def State.bits (s : State) : List Int := fitBits s.nbits 0 s.loaded

/-- DICT[k]: the byte the host loaded there, else a free byte (R33). -/
def State.dictByte (s : State) (k : Nat) : Byte := (s.dict.read k).getD (Config.freeDict k)

/-- A PRIM or FIELD instruction yields a value to the datapath and writes nothing else. -/
def setYield (s : State) (y : Yield) : State := { s with yielded := y }

/-- The register writes of the start step (R242) for a header byte: LEVEL, BYP, CUR, REM, OLEN, I, EOF, PHASE. -/
def beginRun (s : State) (level : Byte) : State :=
  { s with
    level := level
    byp := toFlag (opIsZero (ofByte level))
    cur := 8, rem := 0, olen := 0, i := 0
    eof := toFlag (opIsZero (opSub s.clen 8))
    phase := if 0 < s.cfg.outMax then .run else .done }

/-- OUT returned to unwritten (R161: out <- empty). -/
def clearOut (s : State) : State := { s with out := [] }

/-- An iteration is enabled when PHASE = RUN and FAULT = 0 (R180). -/
def State.enabled (s : State) : Bool := decide (s.phase = .run) && !s.fault

/-- One outcome after another: a next state goes on. -/
def andThen (r : Result) (f : State → Result) : Result :=
  match r with
  | .next s => f s
  | .fault e => .fault e
  | .refused e => .refused e

/-! LOOKUP (R116): none where the key holds no value. -/

/-- LOOKUP in BITS: beyond NBITS it reads 0 (R67); a negative key holds nothing. -/
def bitsRead (s : State) (key : Int) : Option Int :=
  if key < 0 then none else some (bitAt s.bits key.toNat)

/-- LOOKUP in DICT (R33, R55): every key 0..DICT_LEN-1 holds a byte. -/
def dictRead (s : State) (key : Int) : Option Byte :=
  if 0 ≤ key ∧ key < s.dictLen then some (s.dictByte key.toNat) else none

/-- LOOKUP in OUT: written entries only (R34, R55). -/
def outRead (s : State) (key : Int) : Option Byte :=
  if 0 ≤ key ∧ key < s.cfg.outMax then s.out.read key.toNat else none

/-- LOOKUP in SRC (R58): the dictionary first, then the output; in iteration I the keys that hold a value are exactly
0..DICT_LEN + I - 1 (R59). -/
def srcRead (s : State) (key : Int) : Option Byte :=
  if key < s.dictLen then dictRead s key
  else if key < opAdd s.dictLen s.i then outRead s (opSub key s.dictLen)
  else none

/-- LOOKUP in LUT_CH (R35, R136). -/
def charsRead (s : State) (key : Int) : Option (Nat × Nat) := lutAt s.tab.chLen s.tab.wc key

/-- LOOKUP in LUT_LN (R35, R136). -/
def lengthsRead (s : State) (key : Int) : Option (Nat × Nat) := lutAt s.tab.lnLen s.tab.wl key

/-- LOOKUP in LUT_AD (R35, R136). -/
def addressesRead (s : State) (key : Int) : Option (Nat × Nat) := lutAt s.tab.adLen s.tab.wa key

/-- A LOOKUP that yields a value, or takes LookupMiss with I and the key (R116, R224). -/
def yieldOrMiss (s : State) (key : Int) (y : Option Yield) : Result :=
  match y with
  | some y => .next (setYield s y)
  | none => .next (takeFault s .lookupMiss (.miss s.i key))

/-! INSERT (R117). -/

/-- The insert's one write. -/
def writeOut (s : State) (v : Byte) : State := { s with out := s.out.write s.i v }

/-- INSERT OUT, key, v (R117, R57): refused at a key other than the current I, at a written key, or beyond OUT. -/
def insertOut (s : State) (key : Int) (v : Byte) : Result :=
  if key = s.i ∧ s.i < s.cfg.outMax ∧ s.out.read s.i = none then .next (writeOut s v)
  else .refused .insertOutOfOrder

/-! The end of an iteration. -/

/-- The register writes at the end of an iteration (R193 to R197): CUR, EOF, OLEN, REM, then I and PHASE. -/
def commitRegs (s : State) (cur' eof' olen' rem' : Int) : State :=
  { s with
    cur := cur'.toNat, eof := toFlag eof', olen := olen'.toNat, rem := rem'.toNat
    i := s.i + 1
    phase := if s.i + 1 = s.cfg.outMax then .done else s.phase }

/-- The insert of the iteration's byte at I (R191), then the register writes. -/
def commit (s : State) (byte cur' eof' olen' rem' : Int) : Result :=
  andThen (insertOut s s.i (toByte byte)) (fun t => .next (commitRegs t cur' eof' olen' rem'))

end Sys2Proof.Machine
end

