-- ==== Sys2Proof/Machine/Flags.lean ====
section
/-! DEFINITION. The indicators and selections of the iteration datapath (spec/43_iteration_datapath.md), one function a
wire, each written over the primitive operations only. The block has no other flags. -/

namespace Sys2Proof.Machine

/-- R181: live = 1 - EOF. -/
def liveWire (eof : Bool) : Int := opSub 1 (ofFlag eof)

/-- R184: g = live * (1 - BYP). -/
def gateWire (live : Int) (byp : Bool) : Int := opMul live (opSub 1 (ofFlag byp))

/-- R184: isW = g * EQ(s, DELIM_W), isD = g * EQ(s, DELIM_D). -/
def startsMatch (g s : Int) (delim : Byte) : Int := opMul g (opEq s (ofByte delim))

/-- R184: isM = isW + isD. -/
def matchWire (isW isD : Int) : Int := opAdd isW isD

/-- R185: m = ISZERO((s - A) * (s - B)), the 0/1 value "s is a delimiter". -/
def polyIsDelim (s a b : Int) : Int := opIsZero (opMul (opSub s a) (opSub s b))

/-- R185: EQ(s, B) as m * t with t = (s - A) / (B - A), exact wherever m = 1. -/
def polyIsDict (s a b : Int) : Int := opMul (polyIsDelim s a b) (opSub s a / opSub b a)

/-- R185: EQ(s, A) as m * (1 - t). -/
def polyIsWindow (s a b : Int) : Int := opMul (polyIsDelim s a b) (opSub 1 (opSub s a / opSub b a))

/-- R182: s = SELECT(BYP, raw, sh); ls = SELECT(BYP, 8, lsh). -/
def bypassSelect (byp : Bool) (raw coded : Int) : Int := opSelect (ofFlag byp) raw coded

/-- R186: n = SELECT(ISZERO(REM), isM * mlen, REM). -/
def bytesToGo (rem : Nat) (isM mlen : Int) : Int := opSelect (opIsZero rem) (opMul isM mlen) rem

/-- R187: copying = 1 - ISZERO(n). -/
def copyingWire (n : Int) : Int := opSub 1 (opIsZero n)

/-- R187: last = ISZERO(n * (n - 1)). -/
def lastWire (n : Int) : Int := opIsZero (opMul n (opSub n 1))

/-- R188: kW = DICT_LEN + I - 1 - av. -/
def windowKey (dictLen i : Nat) (av : Int) : Int := opSub (opSub (opAdd dictLen i) 1) av

/-- R188: kD = av + (mlen - n). -/
def dictKey (av mlen n : Int) : Int := opAdd av (opSub mlen n)

/-- R188: key = isW * kW + isD * kD. -/
def sourceKey (isW isD kW kD : Int) : Int := opMac (opMul isW kW) isD kD

/-- R190: byte = SELECT(copying, v, live * s). -/
def byteMux (copying v live s : Int) : Int := opSelect copying v (opMul live s)

/-- R192: delta = last * (ls + isM * (ll + la)). -/
def cursorStep (last ls isM ll la : Int) : Int := opMul last (opMac ls isM (opAdd ll la))

/-- R193: cur' = CUR + live * delta. -/
def cursorNext (cur : Nat) (live delta : Int) : Int := opMac cur live delta

/-- R194: hit = EQ(cur', CLEN). -/
def hitWire (cur' : Int) (clen : Nat) : Int := opEq cur' clen

/-- R194: SELECT(EOF, 1, hit). -/
def eofNext (eof : Bool) (hit : Int) : Int := opSelect (ofFlag eof) 1 hit

/-- R195: OLEN + live. -/
def olenNext (olen : Nat) (live : Int) : Int := opAdd olen live

/-- R196: n - copying. -/
def remNext (n copying : Int) : Int := opSub n copying

end Sys2Proof.Machine
end

