-- ==== Sys2Proof/Machine/Operands.lean ====
section
/-! DEFINITION. Operands: the bit reader and field decoders over the state (R137 to R140), the fields of an iteration
(R182, R183), its wires (R181 to R194), and the copy-source lookup (R189). -/

namespace Sys2Proof.Machine

/-- WIN over the state's bit array (R137). -/
def State.win (s : State) (p w : Nat) : Int := Sys2Proof.Machine.win s.bits p w

/-- DEC_CHARS (R138). -/
def decChars (s : State) (p : Nat) : Option (Nat × Nat) := charsRead s (s.win p s.tab.wc)

/-- DEC_LEN (R139). -/
def decLen (s : State) (p : Nat) : Option (Nat × Nat) := lengthsRead s (s.win p s.tab.wl)

/-- DEC_ADDR (R140). -/
def decAddr (s : State) (p : Nat) : Option (Nat × Nat) := addressesRead s (s.win p s.tab.wa)

/-- The decoded fields of an iteration (R182, R183). -/
structure Fields where
  s : Int
  ls : Int
  lv : Int
  ll : Int
  av : Int
  la : Int
deriving DecidableEq, Repr

/-- R182 and R183: the chars field and the raw byte at CUR with the header's mode selecting between them, then the
length field at p1 = CUR + ls and the address field at p2 = p1 + ll. The error is the key of a table lookup that found
no entry (never, for complete tables: R141). -/
def fieldsAt (s : State) : Except Int Fields :=
  match decChars s s.cur with
  | none => .error (s.win s.cur s.tab.wc)
  | some (sh, lsh) =>
    let sym := bypassSelect s.byp (s.win s.cur 8) sh
    let ls := bypassSelect s.byp 8 lsh
    let p1 := opAdd s.cur ls
    match decLen s p1.toNat with
    | none => .error (s.win p1.toNat s.tab.wl)
    | some (lv, ll) =>
      let p2 := opAdd p1 ll
      match decAddr s p2.toNat with
      | none => .error (s.win p2.toNat s.tab.wa)
      | some (av, la) => .ok { s := sym, ls := ls, lv := lv, ll := ll, av := av, la := la }

/-- The wires of an iteration that do not depend on the source lookup (R37). -/
structure Wires where
  live : Int
  mlen : Int
  isW : Int
  isD : Int
  isM : Int
  n : Int
  copying : Int
  last : Int
  kW : Int
  kD : Int
  key : Int
  delta : Int
  curNext : Int
  hit : Int
deriving DecidableEq, Repr

/-- R181, R183 (mlen), R184, R186, R187, R188, R192, R193, R194 in the order of evaluation. -/
def wires (s : State) (f : Fields) : Wires :=
  let live := liveWire s.eof
  let mlen := opAdd f.lv 1
  let g := gateWire live s.byp
  let isW := startsMatch g f.s s.tab.delimW
  let isD := startsMatch g f.s s.tab.delimD
  let isM := matchWire isW isD
  let n := bytesToGo s.rem isM mlen
  let copying := copyingWire n
  let last := lastWire n
  let kW := windowKey s.dictLen s.i f.av
  let kD := dictKey f.av mlen n
  let key := sourceKey isW isD kW kD
  let delta := cursorStep last f.ls isM f.ll f.la
  let curNext := cursorNext s.cur live delta
  let hit := hitWire curNext s.clen
  { live := live, mlen := mlen, isW := isW, isD := isD, isM := isM, n := n, copying := copying, last := last
    kW := kW, kD := kD, key := key, delta := delta, curNext := curNext, hit := hit }

/-- The source lookup of R189: none where the model raises LookupMiss. -/
def srcLookup (s : State) (isW isD key : Int) : Option Byte :=
  if key < 0 ∨ opAdd s.dictLen s.i ≤ key ∨ (isW = 1 ∧ key < s.dictLen) ∨ (isD = 1 ∧ (s.dictLen : Int) ≤ key) then none
  else srcRead s key

end Sys2Proof.Machine
end

