-- ==== Sys2Proof/Machine/Primitive.lean ====
section
/-! DEFINITION. Meanings of the PRIM rows (spec/40_primitive_ops.md). Each yields a value to the datapath; the
assertions and the memory primitives have the effects of R113, R114, R116 and R117. -/

namespace Sys2Proof.Machine

/-- ADD a, b (R110). -/
def execAdd (a b : Int) (s : State) : Result := .next (setYield s (.value (opAdd a b)))

/-- MUL a, b (R111). -/
def execMul (a b : Int) (s : State) : Result := .next (setYield s (.value (opMul a b)))

/-- MAC acc, a, b (R112). -/
def execMac (acc a b : Int) (s : State) : Result := .next (setYield s (.value (opMac acc a b)))

/-- ASSERT_EQ a, b (R113): no result; AssertFail(a, b) if they differ. -/
def execAssertEq (a b : Int) (s : State) : Result :=
  if a = b then .next s else .next (takeFault s .assertFail (.assertEq a b))

/-- ASSERT_BOOL a (R114): no result; AssertFail(a) unless a is 0 or 1. -/
def execAssertBool (a : Int) (s : State) : Result :=
  if isBoolean a then .next s else .next (takeFault s .assertFail (.assertBool a))

/-- SELECT c, a, b (R115). -/
def execSelect (c a b : Int) (s : State) : Result := .next (setYield s (.value (opSelect c a b)))

/-- What LOOKUP finds at a key of a memory (R116): a bit or a byte as a value, or a table's pair. -/
def lookupYield (s : State) (space : Space) (key : Int) : Option Yield :=
  match space with
  | .bits => (bitsRead s key).map .value
  | .dict => (dictRead s key).map (fun b => .value (ofByte b))
  | .out => (outRead s key).map (fun b => .value (ofByte b))
  | .src => (srcRead s key).map (fun b => .value (ofByte b))
  | .lutCh => (charsRead s key).map (fun e => .entry e.1 e.2)
  | .lutLn => (lengthsRead s key).map (fun e => .entry e.1 e.2)
  | .lutAd => (addressesRead s key).map (fun e => .entry e.1 e.2)

/-- LOOKUP space, key (R116). -/
def execLookup (space : Space) (key : Int) (s : State) : Result := yieldOrMiss s key (lookupYield s space key)

/-- INSERT OUT, key, v (R117, R57), while the block owns OUT (R230). -/
def execInsert (key : Int) (v : Byte) (s : State) : Result :=
  if s.enabled then insertOut s key v else .fault .insertNotEnabled

/-- SUB a, b (R118). -/
def execSub (a b : Int) (s : State) : Result := .next (setYield s (.value (opSub a b)))

/-- ISZERO x (R119). -/
def execIsZero (x : Int) (s : State) : Result := .next (setYield s (.value (opIsZero x)))

/-- EQ a, b (R120). -/
def execEq (a b : Int) (s : State) : Result := .next (setYield s (.value (opEq a b)))

end Sys2Proof.Machine
end

