-- ==== Sys2Proof/Machine/Field.lean ====
section
/-! DEFINITION. Meanings of the FIELD rows: the bit reader and the three field decoders (spec/41_prefix_code.md R137 to
R140). -/

namespace Sys2Proof.Machine

/-- WIN p, w (R137). -/
def execWin (p w : Nat) (s : State) : Result := .next (setYield s (.value (s.win p w)))

/-- DEC_CHARS p (R138). -/
def execDecChars (p : Nat) (s : State) : Result :=
  yieldOrMiss s (s.win p s.tab.wc) ((decChars s p).map (fun e => .entry e.1 e.2))

/-- DEC_LEN p (R139). -/
def execDecLen (p : Nat) (s : State) : Result :=
  yieldOrMiss s (s.win p s.tab.wl) ((decLen s p).map (fun e => .entry e.1 e.2))

/-- DEC_ADDR p (R140). -/
def execDecAddr (p : Nat) (s : State) : Result :=
  yieldOrMiss s (s.win p s.tab.wa) ((decAddr s p).map (fun e => .entry e.1 e.2))

end Sys2Proof.Machine
end

