-- ==== Sys2Proof/Machine/Records.lean ====
section
/-! DEFINITION. Meanings of the header and the records (spec/42_stream_records.md R161 to R165), on the block's own
state: the oracle's cursor is CUR, its output list is OUT[0..I-1] and its mode is BYP (the correspondence of R199). A
record is executed whole; each byte it appends is written as one iteration writes it. -/

namespace Sys2Proof.Machine

/-- The effect of the header (R161): level, bypass, cursor 8, empty output. -/
def runHeader (s : State) (level : Byte) : State := beginRun (clearOut s) level

/-- The header is executed once, first (R161). -/
def State.headerReady (s : State) : Bool := decide (s.phase = .idle) && !s.fault

/-- R162 to R165: a record is executed when cur != CLEN and bypass has the record's value; in the block's terms the run
is live and no copy is in progress. -/
def State.recordReady (s : State) (byp : Bool) : Bool :=
  s.enabled && !s.eof && decide (s.rem = 0) && decide (s.cur ≠ s.clen) && (s.byp == byp)

/-- One byte appended to the output, the cursor moved by `advance`, `rem` bytes of the record still to come. -/
def emit (s : State) (b : Byte) (advance rem : Nat) : Result :=
  commit s (ofByte b) ((s.cur + advance : Nat) : Int) (ofFlag (decide (s.cur + advance = s.clen)))
    ((s.olen + 1 : Nat) : Int) (rem : Int)

/-- A record's copy, n bytes still to go: each byte looked up (R189) and appended, the cursor moved past the record
with its last byte. It ends early where no iteration is enabled: at the end of OUT (R197) or at a LookupMiss. -/
def copyLoop (isW isD : Int) (key : State → Nat → Int) (recLen : Nat) : Nat → State → Result
  | 0, s => .next s
  | n + 1, s =>
    if s.enabled then
      match srcLookup s isW isD (key s (n + 1)) with
      | none => .next (takeFault s .lookupMiss (.miss s.i (key s (n + 1))))
      | some b => andThen (emit s b (if n = 0 then recLen else 0) n) (copyLoop isW isD key recLen n)
    else .next s

/-- HDR_NOCOMP (R161): LEVEL = 0. -/
def execHdrNocomp (s : State) : Result :=
  if s.headerReady then .next (runHeader s 0) else .fault .headerNotEnabled

/-- HDR_COMP (R161): any other LEVEL. -/
def execHdrComp (level : Byte) (s : State) : Result :=
  if s.headerReady then
    if (Instr.hdrComp level).wf s.tab then .next (runHeader s level) else .refused .notEncodable
  else .fault .headerNotEnabled

/-- RAW b (R162). -/
def execRaw (b : Byte) (s : State) : Result :=
  if s.recordReady true then emit s b 8 0 else .fault .recordNotEnabled

/-- LIT s (R163). -/
def execLit (b : Byte) (s : State) : Result :=
  if s.recordReady false then
    if (Instr.lit b).wf s.tab then emit s b (codeLen s.tab.chLen b.toNat) 0 else .refused .notEncodable
  else .fault .recordNotEnabled

/-- WMATCH len, dist (R164): len times, append out[|out| - dist]. -/
def execWmatch (len dist : Nat) (s : State) : Result :=
  if s.recordReady false then
    if (Instr.wmatch len dist).wf s.tab then
      copyLoop 1 0 (fun t _ => windowKey t.dictLen t.i ((dist : Int) - 1)) ((Instr.wmatch len dist).bitLen s.tab) len s
    else .refused .notEncodable
  else .fault .recordNotEnabled

/-- DMATCH len, addr (R165): append DICT[addr .. addr + len - 1]. -/
def execDmatch (len addr : Nat) (s : State) : Result :=
  if s.recordReady false then
    if (Instr.dmatch len addr).wf s.tab then
      copyLoop 0 1 (fun _ n => dictKey addr len n) ((Instr.dmatch len addr).bitLen s.tab) len s
    else .refused .notEncodable
  else .fault .recordNotEnabled

end Sys2Proof.Machine
end

