-- ==== Sys2Proof/Machine/Sequencer.lean ====
section
/-! DEFINITION. Meanings of the STEP rows: the start step (spec/70_reset_and_hazards.md R242) and the iteration
(spec/43_iteration_datapath.md R180 to R197). -/

namespace Sys2Proof.Machine

/-- DICT[0..DICT_LEN-1] holds a byte value (R8). -/
def dictHolds (s : State) (b : Byte) : Bool := (List.range s.dictLen).any (fun k => s.dictByte k == b)

/-- No code length above WMAX or above 255 (R96). -/
def lengthsFit (wmax : Nat) (t : Lengths) : Bool := decide (maxLen t ≤ wmax) && decide (maxLen t ≤ 255)

/-- The checks of the start step (R222 over R10), in the order of R221's table and then R7, R9, R6 and R8: the first
that fails (that order, and which of two failing checks is the one recorded, is log entry 11). -/
def configCheck (s : State) : Option ConfigCheck :=
  if !(shaped 256 s.tab.chLen && complete s.tab.chLen) then some .charsIncomplete
  else if !(shaped 256 s.tab.lnLen && complete s.tab.lnLen) then some .lengthsIncomplete
  else if !(shaped (2 ^ s.tab.alog2) s.tab.adLen && complete s.tab.adLen) then some .addressesIncomplete
  else if !(lengthsFit s.cfg.wmax s.tab.chLen && lengthsFit s.cfg.wmax s.tab.lnLen && lengthsFit s.cfg.wmax s.tab.adLen)
    then some .codeTooLong
  else if s.tab.delimW = s.tab.delimD then some .delimsEqual
  else if s.dictLen < 2 then some .dictTooShort
  else if s.nbits < 8 ∨ s.nbits % 8 ≠ 0 then some .badNbits
  else if 255 < s.tab.alog2 then some .alog2TooLarge
  else if ¬(s.tab.wc = maxLen s.tab.chLen ∧ s.tab.wl = maxLen s.tab.lnLen ∧ s.tab.wa = maxLen s.tab.adLen)
    then some .widthMismatch
  else if s.tab.alog2 < s.cfg.awWin ∨ s.tab.alog2 < s.cfg.awDict then some .addressWidthTooLarge
  else if s.cfg.outMax < s.cfg.maxInput then some .outMaxTooSmall
  else if !(dictHolds s s.tab.delimW && dictHolds s s.tab.delimD) then some .dictNotAugmented
  else none

/-- START (R242), enabled when PHASE = IDLE and no fault has been taken (R226). -/
def execStart (s : State) : Result :=
  if s.headerReady then
    match configCheck s with
    | some c => .next (takeFault s .configInvalid (.config c))
    | none =>
      match firstNonBoolean s.bits with
      | some v => .next (takeFault s .assertFail (.assertBool v))
      | none => .next (beginRun s (toByte (s.win 0 8)))
  else .fault .startNotEnabled

/-- One pass of the datapath (R181 to R197): decode, wires, source lookup, byte, insert, register writes. -/
def iterate (s : State) : Result :=
  match fieldsAt s with
  | .error key => .next (takeFault s .lookupMiss (.miss s.i key))
  | .ok f =>
    match srcLookup s (wires s f).isW (wires s f).isD (wires s f).key with
    | none => .next (takeFault s .lookupMiss (.miss s.i (wires s f).key))
    | some v =>
      commit s (byteMux (wires s f).copying (ofByte v) (wires s f).live f.s) (wires s f).curNext
        (eofNext s.eof (wires s f).hit) (olenNext s.olen (wires s f).live) (remNext (wires s f).n (wires s f).copying)

/-- ITER (R180), enabled when PHASE = RUN and FAULT = 0. -/
def execIter (s : State) : Result := if s.enabled then iterate s else .fault .iterNotEnabled

end Sys2Proof.Machine
end

