-- ==== Sys2Proof/Machine/Dispatch.lean ====
section
/-! DEFINITION. One arm for each row of spec/opcode_table.json. -/

namespace Sys2Proof.Machine

def exec (i : Instr) (s : State) : Host.Outcome State Fault Refusal :=
  match i with
  | .add a b => Sys2Proof.Machine.execAdd a b s
  | .mul a b => Sys2Proof.Machine.execMul a b s
  | .mac acc a b => Sys2Proof.Machine.execMac acc a b s
  | .assertEq a b => Sys2Proof.Machine.execAssertEq a b s
  | .assertBool a => Sys2Proof.Machine.execAssertBool a s
  | .select c a b => Sys2Proof.Machine.execSelect c a b s
  | .lookup space key => Sys2Proof.Machine.execLookup space key s
  | .insert key v => Sys2Proof.Machine.execInsert key v s
  | .sub a b => Sys2Proof.Machine.execSub a b s
  | .isZero x => Sys2Proof.Machine.execIsZero x s
  | .eq a b => Sys2Proof.Machine.execEq a b s
  | .win p w => Sys2Proof.Machine.execWin p w s
  | .decChars p => Sys2Proof.Machine.execDecChars p s
  | .decLen p => Sys2Proof.Machine.execDecLen p s
  | .decAddr p => Sys2Proof.Machine.execDecAddr p s
  | .hdrNocomp => Sys2Proof.Machine.execHdrNocomp s
  | .hdrComp level => Sys2Proof.Machine.execHdrComp level s
  | .raw b => Sys2Proof.Machine.execRaw b s
  | .lit b => Sys2Proof.Machine.execLit b s
  | .wmatch len dist => Sys2Proof.Machine.execWmatch len dist s
  | .dmatch len addr => Sys2Proof.Machine.execDmatch len addr s
  | .start => Sys2Proof.Machine.execStart s
  | .iter => Sys2Proof.Machine.execIter s

end Sys2Proof.Machine
end

