-- ==== Sys2Proof/Machine/Fetch.lean ====
section
/-! DEFINITION. What the machine does next: the host's pending action (R31, R240, R242, R243), else the sequencer's
step by PHASE (R180, R242, R244), else, at record level, the header or record at the cursor (R161, R166). -/

namespace Sys2Proof.Machine

/-- What a step is to do. -/
inductive Next where
  /-- Execute an instruction in a state. -/
  | exec (i : Instr) (s : State)
  /-- The host's action is complete. -/
  | host (s : State)
  /-- No step is enabled. -/
  | stop (f : Fault)
  /-- The action or the bits are refused. -/
  | refuse (r : Refusal)
deriving DecidableEq, Repr

/-- A host write: while PHASE is IDLE or DONE (R31); no move while PHASE = RUN (R66, U7). -/
def hostWrite (s t : State) : Next := if s.phase = .run then .refuse .hostWriteDuringRun else .host t

/-- A host action. A load writes the entries it carries, from entry 0 on; what it does to the entries beyond is the
model's choice: they stay as they were (log entry 8). -/
def hostAct (r : HostReq) (s : State) : Next :=
  match r with
  | .reset => .host (hostReset s)
  | .start => .exec .start s
  | .configure c => hostWrite s { s with cfg := c }
  | .writeBits c => hostWrite s { s with loaded := c ++ s.loaded.drop c.length }
  | .writeClen n => hostWrite s { s with clen := n }
  | .writeDelimW b => hostWrite s { s with tab := { s.tab with delimW := b } }
  | .writeDelimD b => hostWrite s { s with tab := { s.tab with delimD := b } }
  | .writeDictLen n => hostWrite s { s with dictLen := n }
  | .writeDict bytes => hostWrite s { s with dict := s.dict.load 0 bytes }
  | .writeAlog2 n => hostWrite s { s with tab := { s.tab with alog2 := n } }
  | .writeWc n => hostWrite s { s with tab := { s.tab with wc := n } }
  | .writeWl n => hostWrite s { s with tab := { s.tab with wl := n } }
  | .writeWa n => hostWrite s { s with tab := { s.tab with wa := n } }
  | .writeChars t => hostWrite s { s with tab := { s.tab with chLen := t } }
  | .writeLengths t => hostWrite s { s with tab := { s.tab with lnLen := t } }
  | .writeAddresses t => hostWrite s { s with tab := { s.tab with adLen := t } }

/-- The sequencer with no host action pending: in RUN an iteration; in IDLE it waits for the start request; in DONE,
or once a fault is taken, nothing is enabled but reset. -/
def hardwareNext (s : State) : Next :=
  if s.fault then .stop .runOver
  else
    match s.phase with
    | .idle => .stop .noStartRequest
    | .run => .exec .iter s
    | .done => .stop .runOver

/-- The instruction at a bit position, to be executed. -/
def fetchAt (s : State) (m : DecodeMode) (p : Nat) : Next :=
  match decode s.tab m s.bits p with
  | .ok (i, _) => .exec i s
  | .error e => .refuse (.undecodable e)

/-- At record level: the header first, then the record at CUR until the end of the stream. -/
def recordNext (s : State) : Next :=
  if s.fault then .stop .runOver
  else
    match s.phase with
    | .idle => fetchAt s .header 0
    | .run => if s.eof then .stop .endOfStream else fetchAt s (recordMode s.byp) s.cur
    | .done => .stop .runOver

/-- The next thing to do. -/
def nextStep (s : State) : Next :=
  match s.req with
  | r :: rest => hostAct r { s with req := rest }
  | [] =>
    match s.view with
    | .hardware => hardwareNext s
    | .record => recordNext s

/-- The state with a table word loaded as its stream, at record level. One byte is a header, and the machine is at the
header (PHASE = IDLE); a longer word is a header and a record, and the machine stands on the record as after its
header (the correspondence is `decodeTableWord`'s). OUT is given room for the record's bytes. -/
def loadWord (s : State) (nbits w : Nat) : State :=
  let c := unpack (wordBytes ((nbits + 7) / 8) w)
  let base : State :=
    { s with
      cfg := { s.cfg with nbits := c.length }, loaded := c, clen := c.length, view := .record, req := [], phase := .idle
      fault := false, fcode := .noFault, finfo := .nothing }
  if nbits ≤ 8 then base
  else runHeader { base with cfg := { base.cfg with outMax := max s.cfg.outMax 256 } } (toByte (win c 0 8))

end Sys2Proof.Machine
end

