-- ==== Sys2Proof/Machine/Step.lean ====
section
/-! DEFINITION. One step of the machine. -/

namespace Sys2Proof.Machine

/-- One step: the host's pending action, or the instruction the sequencer executes, or the stop. -/
def step (s : State) : Host.Outcome State Fault Refusal :=
  match nextStep s with
  | .exec i t => exec i t
  | .host t => .next t
  | .stop f => .fault f
  | .refuse r => .refused r

/-- The state whose very next step runs the instruction of a table word (log entry 9). -/
def State.withFetchWord (s : State) (nbits w : Nat) : State := loadWord s nbits w

end Sys2Proof.Machine
end

