-- ==== Sys2Proof/Machine/Builder.lean ====
section
/-! DEFINITION. The code-length builder (spec/41_prefix_code.md R143 to R146), host-side. What the source leaves open is
an argument (R146, U11): the tie-break beyond (weight, descendant count), whether zero-weight symbols enter, and what is
produced when fewer than two symbols have non-zero weight. -/

namespace Sys2Proof.Machine

/-- A node of the builder's tree. -/
inductive WeightTree where
  | leaf (sym weight : Nat)
  | node (a b : WeightTree)
deriving DecidableEq, Repr

/-- The weight: a merged parent has the sum of its children's (R144). -/
def WeightTree.weight : WeightTree → Nat
  | .leaf _ w => w
  | .node a b => a.weight + b.weight

/-- The leaf count: a merged parent has the sum of its children's (R144). -/
def WeightTree.leaves : WeightTree → Nat
  | .leaf _ _ => 1
  | .node a b => a.leaves + b.leaves

/-- The heap's order: (weight, descendant count), and `tie` where both are equal (R144, R146). -/
def precedes (tie : WeightTree → WeightTree → Bool) (a b : WeightTree) : Bool :=
  decide (a.weight < b.weight) ||
    (decide (a.weight = b.weight) &&
      (decide (a.leaves < b.leaves) || (decide (a.leaves = b.leaves) && tie a b)))

/-- The lowest node of the heap and the rest. -/
def takeLowest (tie : WeightTree → WeightTree → Bool) : List WeightTree → Option (WeightTree × List WeightTree)
  | [] => none
  | x :: xs =>
    match takeLowest tie xs with
    | none => some (x, [])
    | some (m, rest) => if precedes tie x m then some (x, m :: rest) else some (m, x :: rest)

/-- The two lowest nodes merged until one root remains (R144). -/
def mergeAll (tie : WeightTree → WeightTree → Bool) : Nat → List WeightTree → Option WeightTree
  | 0, _ => none
  | fuel + 1, heap =>
    match takeLowest tie heap with
    | none => none
    | some (a, rest) =>
      match takeLowest tie rest with
      | none => some a
      | some (b, rest') => mergeAll tie fuel (.node a b :: rest')

/-- The leaves that enter the heap, symbol ids from k on (R146: `zeros` says whether zero weights enter). -/
def heapOf (zeros : Bool) (k : Nat) : List Nat → List WeightTree
  | [] => []
  | w :: ws => if w = 0 && !zeros then heapOf zeros (k + 1) ws else .leaf k w :: heapOf zeros (k + 1) ws

/-- The iterative depth traversal: a stack of nodes with their depths, each leaf's depth recorded (R145). -/
def readDepths : Nat → List (WeightTree × Nat) → Lengths
  | 0, _ => []
  | _ + 1, [] => []
  | fuel + 1, (.leaf s _, d) :: stack => (s, d) :: readDepths fuel stack
  | fuel + 1, (.node a b, d) :: stack => readDepths fuel ((a, d + 1) :: (b, d + 1) :: stack)

/-- The depths by symbol, the symbols that did not enter the heap left out: they are unused (R146). -/
def bySymbol (n : Nat) (depths : Lengths) : Lengths :=
  (List.range n).filterMap (fun s => if codeLen depths s = 0 then none else some (s, codeLen depths s))

/-- How many symbols have non-zero weight (R146). -/
def weighted (weights : List Nat) : Nat := weights.countP (fun w => decide (0 < w))

/-- The code lengths of an array of weights (R143 to R145); with fewer than two symbols of non-zero weight, what `few`
says (R146, D30). (A heap with a node always merges to a root.) -/
def buildLengths (tie : WeightTree → WeightTree → Bool) (zeros : Bool) (few : List Nat → Lengths) (weights : List Nat) :
    Lengths :=
  if weighted weights < 2 then few weights
  else
    match mergeAll tie weights.length (heapOf zeros 0 weights) with
    | none => few weights
    | some t => bySymbol weights.length (readDepths (2 * weights.length) [(t, 0)])

end Sys2Proof.Machine
end

