-- ==== Sys2Proof/Machine/CodeTree.lean ====
section
/-! DEFINITION. The decode tree (spec/41_prefix_code.md R134) and the reader that walks it (R135). Host-side and
oracle-side; the block holds the lookup tables instead. -/

namespace Sys2Proof.Machine

/-- Internal and leaf nodes; `empty` where nothing has been inserted yet. The left child is the 0 bit (a choice that
cannot be observed, R134). -/
inductive CodeTree where
  | empty
  | leaf (sym : Nat)
  | node (zero one : CodeTree)
deriving DecidableEq, Repr

/-- The low `l` bits of a code as choices, most significant first (R134). -/
def pathOf : Nat → Nat → List Bool
  | 0, _ => []
  | l + 1, c => (c / 2 ^ l % 2 == 1) :: pathOf l c

/-- A path of binary choices from the root, nodes created lazily; none where it would pass through a leaf or end on an
existing node (R134: "must fail loudly, not silently overwrite"). -/
def CodeTree.insert : CodeTree → List Bool → Nat → Option CodeTree
  | .empty, [], s => some (.leaf s)
  | .empty, b :: bs, s =>
    match CodeTree.empty.insert bs s with
    | none => none
    | some t => some (if b then .node .empty t else .node t .empty)
  | .leaf _, _, _ => none
  | .node _ _, [], _ => none
  | .node l r, b :: bs, s =>
    if b then
      match r.insert bs s with
      | none => none
      | some t => some (.node l t)
    else
      match l.insert bs s with
      | none => none
      | some t => some (.node t r)

/-- All (code, length) pairs re-inserted (R134). -/
def insertAll : List CodeEntry → CodeTree → Option CodeTree
  | [], t => some t
  | e :: rest, t =>
    match t.insert (pathOf e.len e.code) e.sym with
    | none => none
    | some t' => insertAll rest t'

/-- The decode tree of a table (R134). -/
def codeTree (t : Lengths) : Option CodeTree := insertAll (codes t) .empty

/-- R135: the tree walked bit by bit from position p until a leaf is hit; `l` bits consumed so far. -/
def CodeTree.walk (c : List Int) : CodeTree → Nat → Nat → Option (Nat × Nat)
  | .empty, _, _ => none
  | .leaf s, _, l => some (s, l)
  | .node z o, p, l =>
    if bitAt c p = 0 then z.walk c (p + 1) (l + 1)
    else if bitAt c p = 1 then o.walk c (p + 1) (l + 1)
    else none

end Sys2Proof.Machine
end

