-- ==== Sys2Proof/Machine/Run.lean ====
section
/-! DEFINITION. Iterating the datapath (R180), and the result of a run (R198). -/

namespace Sys2Proof.Machine

/-- Up to n iterations, ending early where no iteration is enabled (R180: PHASE = RUN and FAULT = 0). -/
def iterations : Nat → State → Result
  | 0, s => .next s
  | n + 1, s => if s.enabled then andThen (execIter s) (iterations n) else .next s

/-- The start step and then the OUT_MAX iterations of a run (R180, R242). -/
def run (s : State) : Result := andThen (execStart s) (fun t => iterations t.cfg.outMax t)

/-- A run has a result when PHASE = DONE and FAULT = 0 (R198, R244). -/
def State.final (s : State) : Bool := decide (s.phase = .done) && !s.fault

/-- The result is the complete decompression when also EOF = 1 (R198). -/
def State.completeRun (s : State) : Bool := s.final && s.eof

end Sys2Proof.Machine
end

