-- ==== Sys2Proof/Machine/HostPrep.lean ====
section
/-! DEFINITION. The host's preparation of a run: dictionary augmentation, the serialized table payload, and the boot
sequence (spec/30_encoding.md R94 to R96, spec/70_reset_and_hazards.md R243). -/

namespace Sys2Proof.Machine

/-- The augmentation rule: both delimiter values appended if either is absent (R243 item 2, C4), in the order of the
host's parameter AUG_ORDER (D16). -/
def augment (order : AugOrder) (delimW delimD : Byte) (raw : List Byte) : List Byte :=
  if raw.contains delimW && raw.contains delimD then raw
  else
    match order with
    | .windowFirst => raw ++ [delimW, delimD]
    | .dictFirst => raw ++ [delimD, delimW]

/-- The length bytes of a table's symbols 0..n-1 (R94). -/
def lengthBytes (n : Nat) (t : Lengths) : List Byte := (List.range n).map (fun s => BitVec.ofNat 8 (codeLen t s))

/-- The payload of R94; none where a code length lies outside 0..255, "a fatal encoding error" (R96). -/
def serializeTables (alog2 : Nat) (ch ln ad : Lengths) : Option (List Byte) :=
  if alog2 ≤ 255 ∧ maxLen ch ≤ 255 ∧ maxLen ln ≤ 255 ∧ maxLen ad ≤ 255 then
    some (BitVec.ofNat 8 alog2 :: (lengthBytes 256 ch ++ lengthBytes 256 ln ++ lengthBytes (2 ^ alog2) ad))
  else none

/-- The used symbols of a list of length bytes, symbol ids from k on (R94, R130). -/
def lengthsFrom (k : Nat) : List Byte → Lengths
  | [] => []
  | b :: rest => if b = 0 then lengthsFrom (k + 1) rest else (k, b.toNat) :: lengthsFrom (k + 1) rest

/-- ALOG2 and the three tables read from a payload of 513 + 2^ALOG2 bytes (R94). -/
def parseTables : List Byte → Option (Nat × Lengths × Lengths × Lengths)
  | [] => none
  | a :: rest =>
    if rest.length = 512 + 2 ^ a.toNat then
      some (a.toNat, lengthsFrom 0 (rest.take 256), lengthsFrom 0 ((rest.drop 256).take 256),
        lengthsFrom 0 (rest.drop 512))
    else none

/-- Item 6 of R243: a run needs a reset first when PHASE is not IDLE, and, since nothing else clears FAULT (R228), when
a fault has been taken. -/
def State.needsReset (s : State) : Bool := decide (s.phase ≠ .idle) || s.fault

/-- The host's duties of R243 items 1 to 6, as the actions pending before a run of a machine that is not in RUN. The
stream is unpacked most significant bit first (R51); the entries of C beyond it, which may hold anything (R54), are not
written. -/
def bootRequests (s : State) (cfg : Config) (delimW delimD : Byte) (rawDict payload stream : List Byte) (clen : Nat) :
    Option (List HostReq) :=
  match parseTables payload with
  | none => none
  | some (alog2, ch, ln, ad) =>
    let dict := augment cfg.augOrder delimW delimD rawDict
    some ([.configure cfg, .writeDelimW delimW, .writeDelimD delimD, .writeDict dict, .writeDictLen dict.length,
      .writeAlog2 alog2, .writeChars ch, .writeLengths ln, .writeAddresses ad,
      .writeWc (maxLen ch), .writeWl (maxLen ln), .writeWa (maxLen ad),
      .writeBits (unpack stream), .writeClen clen] ++ (if s.needsReset then [.reset] else []) ++ [.start])

/-- The status a host reads (R31), with the counter I (R231) and the registers readable for debugging (D23). -/
structure Status where
  olen : Nat
  eof : Bool
  fault : Bool
  fcode : Nat
  phase : Phase
  /-- The flag DONE = [PHASE = DONE] (R28). -/
  done : Bool
  i : Nat
  cur : Nat
  rem : Nat
  level : Byte
  byp : Bool
deriving DecidableEq, Repr

/-- The status registers, readable at any time (R31, R231, D23). -/
def State.status (s : State) : Status :=
  { olen := s.olen, eof := s.eof, fault := s.fault, fcode := s.fcode.number, phase := s.phase
    done := decide (s.phase = .done), i := s.i, cur := s.cur, rem := s.rem, level := s.level, byp := s.byp }

/-- The host's read of OUT[k], at any time (R31); none at an unwritten entry, outside the spec (D31). -/
def hostReadOut (s : State) (k : Nat) : Option Byte := outRead s k

/-- R243 item 7: when PHASE = DONE with FAULT = 0 and EOF = 1, the data is OUT[0..OLEN-1] (R198); otherwise there is no
complete decompression to read. -/
def hostResult (s : State) : Option (List Byte) :=
  if s.completeRun then (List.range s.olen).mapM (fun k => s.out.read k) else none

end Sys2Proof.Machine
end

