-- ==== Sys2Proof/Machine/Oracle.lean ====
section
/-! DEFINITION. The Reference Decompressor (spec/42_stream_records.md R160 to R166), over a list of output bytes, and
the well-formed streams (R167, R169). It takes the same inputs as the block: C, CLEN, the dictionary, the tables. -/

namespace Sys2Proof.Machine

/-- The oracle's state: the cursor, the output list, the mode from the header. -/
structure OracleState where
  cur : Nat
  out : List Byte
  byp : Bool
deriving DecidableEq, Repr

/-- R164's copy: each byte is read `dist` back from the moving end; none where that is before the first byte (R171). -/
def copyBack : Nat → Nat → List Byte → Option (List Byte)
  | 0, _, out => some out
  | n + 1, dist, out =>
    if dist ≤ out.length then
      match out[out.length - dist]? with
      | some b => copyBack n dist (out ++ [b])
      | none => none
    else none

/-- R165's copy: n bytes from DICT[addr] on; none past the dictionary (R171). -/
def copyDict (s : State) : Nat → Nat → List Byte → Option (List Byte)
  | 0, _, out => some out
  | n + 1, addr, out =>
    match dictRead s addr with
    | some b => copyDict s n (addr + 1) (out ++ [b])
    | none => none

/-- One record of `n` bits executed by the oracle (R162 to R165); none for what is no record. -/
def applyRecord (s : State) (i : Instr) (n : Nat) (o : OracleState) : Option OracleState :=
  match i with
  | .raw b => some { o with cur := o.cur + n, out := o.out ++ [b] }
  | .lit b => some { o with cur := o.cur + n, out := o.out ++ [b] }
  | .wmatch len dist => (copyBack len dist o.out).map (fun out => { o with cur := o.cur + n, out := out })
  | .dmatch len addr => (copyDict s len addr o.out).map (fun out => { o with cur := o.cur + n, out := out })
  | .add _ _ | .mul _ _ | .mac _ _ _ | .assertEq _ _ | .assertBool _ | .select _ _ _ | .lookup _ _ | .insert _ _ => none
  | .sub _ _ | .isZero _ | .eq _ _ | .win _ _ | .decChars _ | .decLen _ | .decAddr _ => none
  | .hdrNocomp | .hdrComp _ | .start | .iter => none

/-- The oracle's state after the header (R161). -/
def oracleInit (s : State) : OracleState := { cur := 8, out := [], byp := toFlag (opIsZero (s.win 0 8)) }

/-- R166: records are executed while cur != CLEN; the result is there when cur = CLEN. (Each record takes at least one
bit, so CLEN is fuel enough.) -/
def oracleRun (s : State) : Nat → OracleState → Option OracleState
  | 0, o => if o.cur = s.clen then some o else none
  | fuel + 1, o =>
    if o.cur = s.clen then some o
    else
      match decode s.tab (recordMode o.byp) s.bits o.cur with
      | .error _ => none
      | .ok (i, n) =>
        match applyRecord s i n o with
        | none => none
        | some o' => oracleRun s fuel o'

/-- What a record must satisfy when `o` bytes are out (R167 conditions 4, 5, 7; R169). -/
def recordFits (s : State) (o : Nat) (i : Instr) : Bool :=
  match i with
  | .wmatch len dist => decide (dist ≤ o) && decide (len ≤ 2 ^ lengthBits) && decide (dist - 1 < 2 ^ s.cfg.awWin)
  | .dmatch len addr =>
    decide (addr + len ≤ s.dictLen) && decide (len ≤ 2 ^ lengthBits) && decide (addr < 2 ^ s.cfg.awDict)
  | .raw _ | .lit _ => true
  | .add _ _ | .mul _ _ | .mac _ _ _ | .assertEq _ _ | .assertBool _ | .select _ _ _ | .lookup _ _ | .insert _ _ => false
  | .sub _ _ | .isZero _ | .eq _ _ | .win _ _ | .decChars _ | .decLen _ | .decAddr _ => false
  | .hdrNocomp | .hdrComp _ | .start | .iter => false

/-- R167 conditions 2 to 7 from a position on: parsing reaches CLEN after a whole number of records, each record fits,
and the output fits OUT_MAX. -/
def parses (s : State) : Nat → OracleState → Bool
  | 0, o => decide (o.cur = s.clen) && decide (o.out.length ≤ s.cfg.outMax)
  | fuel + 1, o =>
    if o.cur = s.clen then decide (o.out.length ≤ s.cfg.outMax)
    else
      match decode s.tab (recordMode o.byp) s.bits o.cur with
      | .error _ => false
      | .ok (i, n) =>
        recordFits s o.out.length i &&
          match applyRecord s i n o with
          | none => false
          | some o' => parses s fuel o'

/-- A well-formed pair (C, CLEN) (R167): for a valid configuration (R10, R160), C a bit array (R32). -/
def wellFormedStream (s : State) : Bool :=
  (configCheck s).isNone && (firstNonBoolean s.bits).isNone && decide (8 ≤ s.clen) && decide (s.clen ≤ s.nbits) && parses s s.clen (oracleInit s)

/-- REF(C, CLEN): the oracle's output (R166); it has no result for a pair that is not well-formed, an
invalid or incomplete table included (R171). -/
def refDecompress (s : State) : Option (List Byte) :=
  if wellFormedStream s then (oracleRun s s.clen (oracleInit s)).map OracleState.out else none

end Sys2Proof.Machine
end

