-- ==== Sys2Proof/Machine/Trace.lean ====
section
/-! DEFINITION. An iteration as its sequence of primitive operations (R12 level (a); R121, R201), with the operand
values each takes. -/

namespace Sys2Proof.Machine

/-- The bit reader's lookups and Horner steps (R137). -/
def winOps (c : List Int) (p : Nat) : Nat → Int → List Instr
  | 0, _ => []
  | w + 1, acc =>
    .lookup .bits p :: .mac (bitAt c p) 2 acc :: winOps c (p + 1) w (opMac (bitAt c p) 2 acc)

/-- A subtraction, counted as one MUL and one ADD (R118). -/
def subOps (a b : Int) : List Instr := [.mul (-1) b, .add a (opNeg b)]

/-- The four bit windows and the decode (R181 to R183). -/
def decodeOps (s : State) (sh lsh : Nat) (f : Fields) : List Instr :=
  let p1 := opAdd s.cur f.ls
  let p2 := opAdd p1 f.ll
  subOps 1 (ofFlag s.eof) ++
    winOps s.bits s.cur s.tab.wc 0 ++ [.lookup .lutCh (s.win s.cur s.tab.wc)] ++ winOps s.bits s.cur 8 0 ++
    [.select (ofFlag s.byp) (s.win s.cur 8) sh, .select (ofFlag s.byp) 8 lsh, .add s.cur f.ls] ++
    winOps s.bits p1.toNat s.tab.wl 0 ++ [.lookup .lutLn (s.win p1.toNat s.tab.wl), .add p1 f.ll] ++
    winOps s.bits p2.toNat s.tab.wa 0 ++ [.lookup .lutAd (s.win p2.toNat s.tab.wa), .add f.lv 1]

/-- The indicators, the copy state and the source key (R184, R186 to R188). -/
def controlOps (s : State) (f : Fields) : List Instr :=
  let w := wires s f
  let g := gateWire w.live s.byp
  subOps 1 (ofFlag s.byp) ++
    [.mul w.live (opSub 1 (ofFlag s.byp)),
    .eq f.s (ofByte s.tab.delimW), .mul g (opEq f.s (ofByte s.tab.delimW)),
    .eq f.s (ofByte s.tab.delimD), .mul g (opEq f.s (ofByte s.tab.delimD)), .add w.isW w.isD,
    .isZero s.rem, .mul w.isM w.mlen, .select (opIsZero s.rem) (opMul w.isM w.mlen) s.rem,
    .isZero w.n] ++ subOps 1 (opIsZero w.n) ++ subOps w.n 1 ++
    [.mul w.n (opSub w.n 1), .isZero (opMul w.n (opSub w.n 1)), .add s.dictLen s.i] ++
    subOps (opAdd s.dictLen s.i) 1 ++ subOps (opSub (opAdd s.dictLen s.i) 1) f.av ++ subOps w.mlen w.n ++
    [.add f.av (opSub w.mlen w.n), .mul w.isW w.kW, .mac (opMul w.isW w.kW) w.isD w.kD]

/-- The source lookup, the byte, the insert and the register updates (R189 to R197). -/
def writeOps (s : State) (f : Fields) (v : Byte) : List Instr :=
  let w := wires s f
  [.lookup .src w.key, .mul w.live f.s, .select w.copying (ofByte v) (opMul w.live f.s),
    .insert s.i (toByte (byteMux w.copying (ofByte v) w.live f.s)),
    .add f.ll f.la, .mac f.ls w.isM (opAdd f.ll f.la), .mul w.last (opMac f.ls w.isM (opAdd f.ll f.la)),
    .mac s.cur w.live w.delta, .eq w.curNext s.clen, .select (ofFlag s.eof) 1 w.hit,
    .add s.olen w.live] ++ subOps w.n w.copying ++ [.add s.i 1]

/-- The operations of the iteration at a state; none where the iteration raises LookupMiss. R201 fixes the lookups, the
insert, the comparators and the selects; a SUB is one MUL and one ADD (R118). How many ADD, MUL and MAC there are
beside those, and the order within a rule's formula, are the model's choice (log entry 18). -/
def iterTrace (s : State) : Option (List Instr) :=
  match decChars s s.cur, fieldsAt s with
  | some (sh, lsh), .ok f =>
    match srcLookup s (wires s f).isW (wires s f).isD (wires s f).key with
    | some v => some (decodeOps s sh lsh f ++ controlOps s f ++ writeOps s f v)
    | none => none
  | _, _ => none

/-- An operation with its operand values left out; the memory a lookup names stays (R121: "only operand values and keys
differ"). -/
def eraseValues : Instr → Instr
  | .add _ _ => .add 0 0
  | .mul _ _ => .mul 0 0
  | .mac _ _ _ => .mac 0 0 0
  | .assertEq _ _ => .assertEq 0 0
  | .assertBool _ => .assertBool 0
  | .select _ _ _ => .select 0 0 0
  | .lookup space _ => .lookup space 0
  | .insert _ _ => .insert 0 0
  | .sub _ _ => .sub 0 0
  | .isZero _ => .isZero 0
  | .eq _ _ => .eq 0 0
  | .win _ _ => .win 0 0
  | .decChars _ => .decChars 0
  | .decLen _ => .decLen 0
  | .decAddr _ => .decAddr 0
  | .hdrNocomp => .hdrNocomp
  | .hdrComp _ => .hdrComp 0
  | .raw _ => .raw 0
  | .lit _ => .lit 0
  | .wmatch _ _ => .wmatch 0 0
  | .dmatch _ _ => .dmatch 0 0
  | .start => .start
  | .iter => .iter

/-- How many operations of a sequence are the given one, operand values left out. -/
def countOp (op : Instr) (ops : List Instr) : Nat := (ops.map eraseValues).count op

end Sys2Proof.Machine
end

