-- ==== Sys2Proof/Safety.lean ====
section
/-! DEFINITION. The terms claims use: a valid configuration, a complete table, the invariants, and what is unchanged. -/

namespace Sys2Proof.Machine

/-- A table over n symbols that the block accepts: canonical form and complete (R131). -/
abbrev CompleteTable (n : Nat) (t : Lengths) : Prop := shaped n t = true ∧ complete t = true

/-- The entries of C are boolean (R114). -/
abbrev BooleanArray (c : List Int) : Prop := firstNonBoolean c = none

/-- A valid configuration with a boolean array (R10, R222, R242): what the start step checks. -/
abbrev State.Valid (s : State) : Prop := configCheck s = none ∧ BooleanArray s.bits

/-- Loaded tables a stream can be coded with (R10): complete, and the width registers as R7 says. -/
abbrev TablesOk (t : Tables) : Prop :=
  CompleteTable 256 t.chLen ∧ CompleteTable 256 t.lnLen ∧ CompleteTable (2 ^ t.alog2) t.adLen ∧
    t.wc = maxLen t.chLen ∧ t.wl = maxLen t.lnLen ∧ t.wa = maxLen t.adLen ∧ t.delimW ≠ t.delimD

/-- What holds of the memories, the counters and the fault registers in every phase and at every level of `step`. -/
structure State.MemInv (s : State) : Prop where
  /-- OUT is in canonical form. -/
  outWf : s.out.wf = true
  /-- DICT is in canonical form. -/
  dictWf : s.dict.wf = true
  /-- The written entries of OUT are exactly 0..I-1 (R57, R59). -/
  written : ∀ k, (s.out.read k).isSome = decide (k < s.i)
  /-- OLEN = I while EOF = 0 (R24). -/
  olenLive : s.eof = false → s.olen = s.i
  /-- OLEN <= I (R38). -/
  olenBound : s.olen ≤ s.i
  /-- FCODE = 0 while FAULT = 0, and only then (R27). -/
  faultCode : s.fault = false ↔ s.fcode = .noFault
  /-- Before the start step the working registers hold their reset values (R39). -/
  idle : s.phase = .idle → s.i = 0 ∧ s.olen = 0 ∧ s.cur = 8 ∧ s.rem = 0 ∧ s.eof = false
  /-- A run goes on while I < OUT_MAX (R28, R38, R197). -/
  running : s.phase = .run → s.i < s.cfg.outMax

/-- What holds at every iteration start of a run on a valid configuration, for any stream, beside MemInv (R38, R41). -/
structure State.RunInv (s : State) : Prop where
  /-- The configuration is valid and C boolean: the start step checked it, and no step changed it (R40). -/
  valid : s.Valid
  /-- LEVEL and BYP are the header's (R25). -/
  header : s.level = toByte (s.win 0 8) ∧ s.byp = (s.level == 0)
  /-- R41 (a). -/
  eofRem : s.eof = true → s.rem = 0
  /-- R41 (e), and its converse: the latch is set when the cursor stands on CLEN (R194). -/
  eofCur : s.eof = true ↔ s.cur = s.clen
  /-- R38: REM <= 255. -/
  remBound : s.rem ≤ 255
  /-- R38: 8 <= CUR. -/
  curLow : 8 ≤ s.cur
  /-- R38: CUR <= 8 + I * max(8, WC + WL + WA). -/
  curHigh : s.cur ≤ 8 + s.i * max 8 (s.tab.wc + s.tab.wl + s.tab.wa)
  /-- R41 (b): while bytes remain, the record at CUR is the match being copied. -/
  copy : 0 < s.rem → ∃ f, fieldsAt s = .ok f ∧ (wires s f).isM = 1 ∧ (s.rem : Int) < (wires s f).mlen

/-- The invariant of the block stepping by itself. -/
structure State.Inv (s : State) : Prop where
  level : s.view = .hardware
  mem : s.MemInv
  run : s.phase = .run → s.RunInv

/-- What a finished run leaves (R28, R198): I = OUT_MAX, and OLEN = OUT_MAX where the end of the stream was not reached.
It lasts until the host chooses another OUT_MAX. -/
structure State.DoneInv (s : State) : Prop where
  iterated : s.phase = .done → s.i = s.cfg.outMax
  cutOff : s.phase = .done → s.eof = false → s.olen = s.cfg.outMax

/-- How many bytes a record appends (R162 to R165); none for what is no record. -/
def recordBytes : Instr → Nat
  | .raw _ => 1
  | .lit _ => 1
  | .wmatch len _ => len
  | .dmatch len _ => len
  | .add _ _ | .mul _ _ | .mac _ _ _ | .assertEq _ _ | .assertBool _ | .select _ _ _ | .lookup _ _ | .insert _ _ => 0
  | .sub _ _ | .isZero _ | .eq _ _ | .win _ _ | .decChars _ | .decLen _ | .decAddr _ => 0
  | .hdrNocomp | .hdrComp _ | .start | .iter => 0

/-- The state after one more byte of output in a live iteration: the byte at I, the cursor moved by `advance` bits and
compared with CLEN, `rem` bytes of the record still to come (R191, R193 to R197). -/
def State.withByte (s : State) (b : Byte) (advance rem : Nat) : State :=
  { s with
    out := s.out.write s.i b
    cur := s.cur + advance
    eof := decide (s.cur + advance = s.clen)
    olen := s.olen + 1
    rem := rem
    i := s.i + 1
    phase := if s.i + 1 = s.cfg.outMax then .done else s.phase }

/-- Bytes of the match at the cursor still to be written, this iteration's included (R186). -/
def State.toGo (s : State) (len : Nat) : Nat := if s.rem = 0 then len else s.rem

/-- The block's state stands where the oracle's does (R199): cursor, mode, and the bytes written so far. -/
structure Represents (s : State) (o : OracleState) : Prop where
  cur : o.cur = s.cur
  mode : o.byp = s.byp
  length : o.out.length = s.i
  bytes : ∀ k, k < s.i → s.out.read k = o.out[k]?

/-- The inputs a host write can write (R29 to R35). -/
inductive Input where
  | constants
  | bits
  | clen
  | delimW
  | delimD
  | dictLen
  | dict
  | alog2
  | wc
  | wl
  | wa
  | chars
  | lengths
  | addresses
deriving DecidableEq, Repr

/-- The input a host action writes; none for reset and the start request. -/
def HostReq.writes : HostReq → Option Input
  | .reset => none
  | .start => none
  | .configure _ => some .constants
  | .writeBits _ => some .bits
  | .writeClen _ => some .clen
  | .writeDelimW _ => some .delimW
  | .writeDelimD _ => some .delimD
  | .writeDictLen _ => some .dictLen
  | .writeDict _ => some .dict
  | .writeAlog2 _ => some .alog2
  | .writeWc _ => some .wc
  | .writeWl _ => some .wl
  | .writeWa _ => some .wa
  | .writeChars _ => some .chars
  | .writeLengths _ => some .lengths
  | .writeAddresses _ => some .addresses

/-- Two states with the same configuration and inputs of a run (R40). -/
abbrev SameInputs (s t : State) : Prop :=
  t.cfg = s.cfg ∧ t.tab = s.tab ∧ t.dictLen = s.dictLen ∧ t.dict = s.dict ∧ t.loaded = s.loaded ∧ t.clen = s.clen

/-- Two states with the same working registers and output memory (R20 to R28, R34). -/
abbrev SameWork (s t : State) : Prop :=
  t.i = s.i ∧ t.cur = s.cur ∧ t.rem = s.rem ∧ t.olen = s.olen ∧ t.level = s.level ∧ t.byp = s.byp ∧ t.eof = s.eof ∧
    t.phase = s.phase ∧ t.out = s.out

/-- Two states with the same fault registers (R27). -/
abbrev SameFault (s t : State) : Prop := t.fault = s.fault ∧ t.fcode = s.fcode ∧ t.finfo = s.finfo

/-- Two states with the same fields of the model's own. -/
abbrev SameModel (s t : State) : Prop :=
  t.yielded = s.yielded ∧ t.req = s.req ∧ t.view = s.view ∧ t.fresh = s.fresh

end Sys2Proof.Machine
end

