-- ==== Sys2Proof/Certificates/Slice0/Obligations.lean ====
section
/-! DEFINITION. The statements for the provers. -/

open Sys2Proof Sys2Proof.Machine

/-! Configuration EX1 of spec/95_test_vectors.md section 2.1, for the sanity statements. -/

/-- The tables of EX1. -/
def Sys2Proof.Machine.ex1Tables : Tables where
  delimW := 0xFE
  delimD := 0xFF
  alog2 := 2
  wc := 3
  wl := 3
  wa := 2
  chLen := [(0x00, 3), (0x61, 2), (0x62, 2), (0xFE, 2), (0xFF, 3)]
  lnLen := [(0, 1), (1, 2), (2, 3), (3, 3)]
  adLen := [(0, 2), (1, 2), (2, 2), (3, 2)]

/-! ## Primitive operations -/

/-- R110, R111, R112, R115, R118, R119, R120: the arithmetic primitives complete in every state and yield the exact
integer; nothing else changes. (That a yielded value is held in `yielded` is the model's port, log entry 2.) -/
def Obligations.ArithmeticYieldsExactIntegers : Prop :=
  ∀ (s : State) (acc a b c : Int),
    exec (.add a b) s = .next { s with yielded := .value (a + b) } ∧
    exec (.mul a b) s = .next { s with yielded := .value (a * b) } ∧
    exec (.mac acc a b) s = .next { s with yielded := .value (acc + a * b) } ∧
    exec (.select c a b) s = .next { s with yielded := .value (b + c * (a - b)) } ∧
    exec (.sub a b) s = .next { s with yielded := .value (a - b) } ∧
    exec (.mul (-1) b) s = .next { s with yielded := .value (-b) } ∧
    exec (.isZero a) s = .next { s with yielded := .value (if a = 0 then 1 else 0) } ∧
    exec (.eq a b) s = .next { s with yielded := .value (if a = b then 1 else 0) }

/-- R113, R114: a passing assertion has no effect; a failing one takes AssertFail with the operand values, and writes
nothing but the fault registers. -/
def Obligations.AssertionsPassOrTakeAssertFail : Prop :=
  ∀ (s : State) (a b : Int),
    (a = b → exec (.assertEq a b) s = .next s) ∧
    (a ≠ b → s.fault = false →
      exec (.assertEq a b) s = .next { s with fault := true, fcode := .assertFail, finfo := .assertEq a b }) ∧
    (a = 0 ∨ a = 1 → exec (.assertBool a) s = .next s) ∧
    (a ≠ 0 → a ≠ 1 → s.fault = false →
      exec (.assertBool a) s = .next { s with fault := true, fcode := .assertFail, finfo := .assertBool a })

/-- R27: FAULT is sticky and FCODE is the code of the first fault taken: no instruction changes them, or the information
recorded, once FAULT = 1. -/
def Obligations.FirstFaultIsKept : Prop :=
  ∀ (i : Instr) (s t : State), s.fault = true → exec i s = .next t → t.fault = true ∧ t.fcode = s.fcode ∧ t.finfo = s.finfo

/-- R116, R67, R58: a LOOKUP of a key that holds an entry yields it: a bit of BITS, and 0 at and beyond NBITS; a byte of
DICT at every key below DICT_LEN; a written byte of OUT; through SRC the dictionary first and the output after it; a
table's (symbol, length) pair. An entry the host has loaded is the one loaded; an entry of C it has not loaded is some
bit (R32; a free value, log entry 8). (That a yielded value is held in `yielded` is the model's port, log entry 2.) -/
def Obligations.LookupYieldsTheEntryHeld : Prop :=
  ∀ (s : State) (k : Nat) (v : Int) (b : Byte) (key : Int) (sym len : Nat),
    (s.bits[k]? = some v → exec (.lookup .bits k) s = .next { s with yielded := .value v }) ∧
    (s.nbits ≤ k → exec (.lookup .bits k) s = .next { s with yielded := .value 0 }) ∧
    (k < s.nbits → s.loaded[k]? = some v → s.bits[k]? = some v) ∧
    (k < s.nbits → s.loaded.length ≤ k → s.bits[k]? = some 0 ∨ s.bits[k]? = some 1) ∧
    (k < s.dictLen →
      exec (.lookup .dict k) s = .next { s with yielded := .value (s.dictByte k).toNat } ∧
      exec (.lookup .src k) s = .next { s with yielded := .value (s.dictByte k).toNat }) ∧
    (s.dict.read k = some b → s.dictByte k = b) ∧
    (k < s.i → s.i ≤ s.cfg.outMax → s.out.read k = some b →
      exec (.lookup .out k) s = .next { s with yielded := .value b.toNat } ∧
      exec (.lookup .src ((s.dictLen + k : Nat) : Int)) s = .next { s with yielded := .value b.toNat }) ∧
    (lutAt s.tab.chLen s.tab.wc key = some (sym, len) →
      exec (.lookup .lutCh key) s = .next { s with yielded := .entry sym len }) ∧
    (lutAt s.tab.lnLen s.tab.wl key = some (sym, len) →
      exec (.lookup .lutLn key) s = .next { s with yielded := .entry sym len }) ∧
    (lutAt s.tab.adLen s.tab.wa key = some (sym, len) →
      exec (.lookup .lutAd key) s = .next { s with yielded := .entry sym len })

/-- R116, R34, R59, R224, U4: a LOOKUP of a key that holds no value takes LookupMiss with I and the key, and nothing else
is written: SRC at a negative key or at DICT_LEN + I or beyond, BITS at a negative key, DICT outside 0..DICT_LEN-1, OUT
outside 0..OUT_MAX-1 or at an unwritten entry, a table where it has no entry. -/
def Obligations.LookupOfNoValueTakesLookupMiss : Prop :=
  ∀ (s : State) (key : Int) (space : Space), s.fault = false →
    (space = .src ∧ (key < 0 ∨ (s.dictLen : Int) + s.i ≤ key) ∨
      space = .bits ∧ key < 0 ∨
      space = .dict ∧ (key < 0 ∨ (s.dictLen : Int) ≤ key) ∨
      space = .out ∧ (key < 0 ∨ (s.cfg.outMax : Int) ≤ key ∨ s.out.read key.toNat = none) ∨
      space = .lutCh ∧ lutAt s.tab.chLen s.tab.wc key = none ∨
      space = .lutLn ∧ lutAt s.tab.lnLen s.tab.wl key = none ∨
      space = .lutAd ∧ lutAt s.tab.adLen s.tab.wa key = none) →
    exec (.lookup space key) s = .next { s with fault := true, fcode := .lookupMiss, finfo := .miss s.i key }

/-- R59, first sentence: in iteration I the keys of SRC that hold a value are exactly 0 .. DICT_LEN + I - 1. -/
def Obligations.SourceKeysHeldAreDictionaryAndWritten : Prop :=
  ∀ (s : State) (key : Int), s.MemInv → s.i ≤ s.cfg.outMax →
    ((srcRead s key).isSome = true ↔ 0 ≤ key ∧ key < (s.dictLen : Int) + s.i)

/-- R117: while an iteration is enabled and entry I of OUT is unwritten, INSERT at key I completes: entry I goes from
unwritten to holding v, every other entry reads as before, and nothing else changes. -/
def Obligations.InsertWritesEntryI : Prop :=
  ∀ (s : State) (v : Byte), s.phase = .run → s.fault = false → s.i < s.cfg.outMax → s.out.read s.i = none →
    ∃ m : Memory, exec (.insert s.i v) s = .next { s with out := m } ∧
      (∀ k, m.read k = if k = s.i then some v else s.out.read k) ∧
      (s.out.wf = true → m.wf = true)

/-- R57: an insert at a key that is already written, or at a key other than the current I, is refused. -/
def Obligations.InsertElsewhereIsRefused : Prop :=
  ∀ (s : State) (key : Int) (v : Byte), s.phase = .run → s.fault = false →
    (key ≠ s.i ∨ s.out.read s.i ≠ none) → exec (.insert key v) s = .refused .insertOutOfOrder

/-! ## The bit reader, the prefix code and the field decoders -/

/-- R137: WIN p, w completes in every state and yields the sum over j of BIT(p + j) * 2^(w-1-j); positions at and beyond
NBITS contribute 0. (That a yielded value is held in `yielded` is the
model's port, log entry 2.) -/
def Obligations.BitWindowIsItsBinaryNumeral : Prop :=
  ∀ (s : State) (p w : Nat),
    exec (.win p w) s =
      .next { s with
        yielded := .value (∑ j ∈ Finset.range w,
          (if h : p + j < s.bits.length then s.bits[p + j] else 0) * 2 ^ (w - 1 - j)) }

/-- R138, R139, R140: with a valid configuration and a boolean array the three field decoders complete at every
position, each yielding a used symbol of its alphabet with that symbol's code length, at most the window's width.
(That a yielded value is held in `yielded` is the model's port, log entry 2.) -/
def Obligations.FieldDecodersYieldUsedSymbols : Prop :=
  ∀ (s : State) (p : Nat), s.Valid →
    (∃ sym len, exec (.decChars p) s = .next { s with yielded := .entry sym len } ∧
      lutAt s.tab.chLen s.tab.wc (win s.bits p s.tab.wc) = some (sym, len) ∧
      sym ≤ 255 ∧ 1 ≤ len ∧ len ≤ s.tab.wc ∧ codeLen s.tab.chLen sym = len) ∧
    (∃ sym len, exec (.decLen p) s = .next { s with yielded := .entry sym len } ∧
      lutAt s.tab.lnLen s.tab.wl (win s.bits p s.tab.wl) = some (sym, len) ∧
      sym ≤ 255 ∧ 1 ≤ len ∧ len ≤ s.tab.wl ∧ codeLen s.tab.lnLen sym = len) ∧
    (∃ sym len, exec (.decAddr p) s = .next { s with yielded := .entry sym len } ∧
      lutAt s.tab.adLen s.tab.wa (win s.bits p s.tab.wa) = some (sym, len) ∧
      sym < 2 ^ s.tab.alog2 ∧ 1 ≤ len ∧ len ≤ s.tab.wa ∧ codeLen s.tab.adLen sym = len)

/-- R141 (a): for a complete table every key 0 .. 2^W - 1 is filled by exactly one code (R136), and the lookup answers
that code's symbol and length. -/
def Obligations.EveryKeyHasExactlyOneEntry : Prop :=
  ∀ (n : Nat) (t : Lengths) (k : Int), CompleteTable n t → 0 ≤ k → k < 2 ^ maxLen t →
    (∃! e : CodeEntry, e ∈ codes t ∧ e.covers (maxLen t) k = true) ∧
    ∀ e ∈ codes t, e.covers (maxLen t) k = true → lutAt t (maxLen t) k = some (e.sym, e.len)

/-- R132: for a complete table the codes are those of the used symbols, one each, of the symbol's length; they stand in the
order of (length, symbol id), each the one before plus one, shifted left by the increase in length, so that codes of
equal length are consecutive integers in symbol order; the first is all zeros, the last all ones, every code fits its
length, and no code is a prefix of another. -/
def Obligations.CanonicalCodesFillTheCodeSpace : Prop :=
  ∀ (n : Nat) (t : Lengths), CompleteTable n t →
    (∀ sym len, (∃ e ∈ codes t, e.sym = sym ∧ e.len = len) ↔ 0 < len ∧ codeLen t sym = len) ∧
    ((codes t).map CodeEntry.sym).Nodup ∧
    (∀ k e e', (codes t)[k]? = some e → (codes t)[k + 1]? = some e' →
      (e.len < e'.len ∨ e.len = e'.len ∧ e.sym < e'.sym) ∧ e'.code = (e.code + 1) * 2 ^ (e'.len - e.len)) ∧
    (∃ e, (codes t).head? = some e ∧ e.code = 0) ∧
    (∃ e, (codes t).getLast? = some e ∧ e.code + 1 = 2 ^ e.len) ∧
    (∀ e ∈ codes t, e.code < 2 ^ e.len) ∧
    (∀ e ∈ codes t, ∀ e' ∈ codes t, e ≠ e' → ∀ d, e'.len = e.len + d → e'.code / 2 ^ d ≠ e.code)

/-- R141 (b): for a complete table and at every position of a boolean array, the field decode returns the symbol the
reference reader of R135 returns, and as its length the number of bits that reader consumes. -/
def Obligations.FieldDecodeAgreesWithReferenceReader : Prop :=
  ∀ (n : Nat) (t : Lengths) (c : List Int) (p : Nat), CompleteTable n t → BooleanArray c →
    fieldAt t (maxLen t) c p = refRead t c p

/-- R134, R135: for a complete table the re-insertion of its codes never conflicts, and walking the tree from the root
returns what the reference reader returns. -/
def Obligations.DecodeTreeIsBuiltAndWalksAlike : Prop :=
  ∀ (n : Nat) (t : Lengths), CompleteTable n t →
    ∃ tree, codeTree t = some tree ∧
      ∀ (c : List Int) (p : Nat), BooleanArray c → tree.walk c p 0 = refRead t c p

/-- R143 to R145 with R131: whatever the open tie-break and zero-weight policy (R146), the builder gives a complete table
whenever at least two symbols have non-zero weight; with fewer it gives what its open argument says. -/
def Obligations.BuilderGivesCompleteTables : Prop :=
  ∀ (tie : WeightTree → WeightTree → Bool) (zeros : Bool) (few : List Nat → Lengths) (weights : List Nat),
    (2 ≤ weighted weights → CompleteTable weights.length (buildLengths tie zeros few weights)) ∧
    (weighted weights < 2 → buildLengths tie zeros few weights = few weights)

/-! ## Encoding -/

/-- A few words of the spec's own examples (section 2.6 of spec/95_test_vectors.md, under EX1) decode to the
instruction they stand for. -/
def Obligations.SpecWordsDecode : Prop :=
  (decode ex1Tables .header [0, 0, 0, 0, 0, 0, 0, 0] 0).toOption = some (.hdrNocomp, 8) ∧
  (decode ex1Tables .header [0, 0, 0, 0, 0, 0, 0, 1] 0).toOption = some (.hdrComp 1, 8) ∧
  (decode ex1Tables .raw [1, 1, 1, 1, 1, 1, 1, 0] 0).toOption = some (.raw 0xFE, 8) ∧
  (decode ex1Tables .coded [1, 1, 0] 0).toOption = some (.lit 0x00, 3) ∧
  (decode ex1Tables .coded [1, 0, 1, 1, 1, 0, 1] 0).toOption = some (.wmatch 4 2, 7) ∧
  (decode ex1Tables .coded [1, 1, 1, 1, 0, 0, 1] 0).toOption = some (.dmatch 2 1, 7)

/-- Decode and encode agree (R50, R51, R81, R83 to R87, R133): a well-formed header or record, standing anywhere in a
boolean array, decodes to itself with every operand, and its length is the sum of its fields' code lengths (R89). -/
def Obligations.DecodeOfEncodeIsTheInstruction : Prop :=
  ∀ (t : Tables) (i : Instr) (m : DecodeMode) (pre post : List Int),
    TablesOk t → i.wf t = true → i.mode? = some m → BooleanArray post →
      decode t m (pre ++ encode t i ++ post) pre.length = .ok (i, i.bitLen t)

/-- R92, R141: there are no illegal bit patterns: every position of a boolean array decodes, in every mode, to a
well-formed instruction of that mode, and the bits there are that instruction's encoding. -/
def Obligations.EveryPositionDecodesToItsEncoding : Prop :=
  ∀ (t : Tables) (m : DecodeMode) (c : List Int) (p : Nat), TablesOk t → BooleanArray c →
    ∃ i n, decode t m c p = .ok (i, n) ∧ i.wf t = true ∧ i.mode? = some m ∧ n = i.bitLen t ∧
      ∀ j, j < n → bitAt c (p + j) = bitAt (encode t i) j

/-- R94, R96: the payload of three tables is 513 + 2^ALOG2 bytes long, and reading it gives the tables back. -/
def Obligations.PayloadReadsBack : Prop :=
  ∀ (alog2 : Nat) (ch ln ad : Lengths) (bytes : List Byte),
    shaped 256 ch = true → shaped 256 ln = true → shaped (2 ^ alog2) ad = true →
    serializeTables alog2 ch ln ad = some bytes →
      bytes.length = 513 + 2 ^ alog2 ∧ parseTables bytes = some (alog2, ch, ln, ad)

/-! ## Header and records -/

/-- R161: before the run, the header completes: LEVEL and BYP are the header's, the cursor is 8 and the output empty.
That it sets I, REM, OLEN, EOF and PHASE too, as the start step does, is the model's reading: a record-level run begins
here (log entry 3, DEDUCED). -/
def Obligations.HeaderBeginsTheRun : Prop :=
  ∀ (s : State) (level : Byte), s.phase = .idle → s.fault = false →
    exec .hdrNocomp s =
      .next { s with
        level := 0, byp := true, cur := 8, out := [], i := 0, olen := 0, rem := 0
        eof := decide (s.clen = 8), phase := if 0 < s.cfg.outMax then .run else .done } ∧
    (level ≠ 0 →
      exec (.hdrComp level) s =
        .next { s with
          level := level, byp := false, cur := 8, out := [], i := 0, olen := 0, rem := 0
          eof := decide (s.clen = 8), phase := if 0 < s.cfg.outMax then .run else .done })

/-- R162, R163: a RAW byte, in bypass, appends its byte and moves the cursor by 8; a LIT of a used symbol that is no
delimiter, not in bypass, appends the symbol and moves the cursor by its code length. Each completes in a live run with
no copy in progress. Beside OUT and CUR only I, OLEN, EOF and PHASE move, as in the iteration of that byte, and REM stays
0: that is log entry 3 (DEDUCED), not the record's rule. -/
def Obligations.RawAndLiteralAppendTheirByte : Prop :=
  ∀ (s : State) (b : Byte), s.MemInv → s.phase = .run → s.fault = false → s.eof = false → s.rem = 0 → s.cur ≠ s.clen →
    (s.byp = true → exec (.raw b) s = .next (s.withByte b 8 0)) ∧
    (s.byp = false → b ≠ s.tab.delimW → b ≠ s.tab.delimD → 0 < codeLen s.tab.chLen b.toNat →
      exec (.lit b) s = .next (s.withByte b (codeLen s.tab.chLen b.toNat) 0))

/-- R164: a WMATCH whose distance reaches no further back than the output so far, and whose length fits the buffer,
completes: len bytes are appended, each equal to the byte `dist` before it in the output as it grows (so an overlapping
copy repeats), the bytes before stay, no byte beyond is written, and the cursor passes the record. Beside OUT and CUR only
I, OLEN, EOF and PHASE move, as over the iterations of those bytes: that is log entry 3 (DEDUCED), not R164. -/
def Obligations.WindowMatchAppendsEarlierOutput : Prop :=
  ∀ (s : State) (len dist : Nat), s.MemInv → s.phase = .run → s.fault = false → s.eof = false → s.rem = 0 →
    s.cur ≠ s.clen → s.byp = false → (Instr.wmatch len dist).wf s.tab = true → dist ≤ s.i → s.i + len ≤ s.cfg.outMax →
    ∃ m : Memory,
      exec (.wmatch len dist) s =
        .next { s with
          out := m, i := s.i + len, olen := s.olen + len, cur := s.cur + (Instr.wmatch len dist).bitLen s.tab
          eof := decide (s.cur + (Instr.wmatch len dist).bitLen s.tab = s.clen)
          phase := if s.i + len = s.cfg.outMax then .done else .run } ∧
      (∀ k, k < s.i → m.read k = s.out.read k) ∧
      (∀ k, s.i ≤ k → k < s.i + len → m.read k = m.read (k - dist)) ∧
      (∀ k, s.i + len ≤ k → m.read k = none) ∧ m.wf = true

/-- R165: a DMATCH that ends within the dictionary, and whose length fits the buffer, completes: it appends
DICT[addr .. addr + len - 1], and the cursor passes the record. Beside OUT and CUR only I, OLEN, EOF and PHASE move, as
over the iterations of those bytes: that is log entry 3 (DEDUCED), not R165. -/
def Obligations.DictionaryMatchAppendsDictionaryBytes : Prop :=
  ∀ (s : State) (len addr : Nat), s.MemInv → s.phase = .run → s.fault = false → s.eof = false → s.rem = 0 →
    s.cur ≠ s.clen → s.byp = false → (Instr.dmatch len addr).wf s.tab = true → addr + len ≤ s.dictLen →
    s.i + len ≤ s.cfg.outMax →
    ∃ m : Memory,
      exec (.dmatch len addr) s =
        .next { s with
          out := m, i := s.i + len, olen := s.olen + len, cur := s.cur + (Instr.dmatch len addr).bitLen s.tab
          eof := decide (s.cur + (Instr.dmatch len addr).bitLen s.tab = s.clen)
          phase := if s.i + len = s.cfg.outMax then .done else .run } ∧
      (∀ k, k < s.i → m.read k = s.out.read k) ∧
      (∀ j, j < len → m.read (s.i + j) = some (s.dictByte (addr + j))) ∧
      (∀ k, s.i + len ≤ k → m.read k = none) ∧ m.wf = true

/-- R189, R224, R227 as log entry 3 reads them over a record row (DEDUCED: R171 gives such a record no result in the
oracle): a match whose first byte reads a key that holds no value takes LookupMiss with I and that key and writes nothing
else: a window match further back than the output, a dictionary match at or past DICT_LEN. -/
def Obligations.MatchOfNoValueTakesLookupMiss : Prop :=
  ∀ (s : State) (len n : Nat), s.phase = .run → s.fault = false → s.eof = false → s.rem = 0 → s.cur ≠ s.clen →
    s.byp = false →
    ((Instr.wmatch len n).wf s.tab = true → s.i < n →
      exec (.wmatch len n) s =
        .next { s with
          fault := true, fcode := .lookupMiss, finfo := .miss s.i ((s.dictLen : Int) + s.i - n) }) ∧
    ((Instr.dmatch len n).wf s.tab = true → s.dictLen ≤ n →
      exec (.dmatch len n) s =
        .next { s with fault := true, fcode := .lookupMiss, finfo := .miss s.i (n : Int) })

/-- R199's correspondence, a record at a time: where the block's state represents the oracle's and the record at the
cursor has a result in the oracle that fits the buffer, executing the record completes in a state that represents the
oracle's next one, with no copy in progress, no fault, and EOF as the oracle's end test. (That a record row runs on the
block's state, and moves OLEN and EOF, is log entry 3, DEDUCED.) -/
def Obligations.RecordExecutionRefinesTheOracle : Prop :=
  ∀ (s : State) (o o' : OracleState) (i : Instr) (n : Nat),
    s.MemInv → TablesOk s.tab → s.recordReady s.byp = true → Represents s o →
    decode s.tab (recordMode s.byp) s.bits s.cur = .ok (i, n) → applyRecord s i n o = some o' →
    o'.out.length ≤ s.cfg.outMax →
      ∃ t, exec i s = .next t ∧ Represents t o' ∧ t.rem = 0 ∧ t.fault = false ∧
        t.eof = decide (o'.cur = s.clen) ∧ t.olen = s.olen + recordBytes i ∧ SameInputs s t

/-! ## The start step -/

/-- R242: with a valid configuration and a boolean array the start step completes, with exactly the register writes of
R242. -/
def Obligations.StartBeginsTheRun : Prop :=
  ∀ (s : State), s.phase = .idle → s.fault = false → s.Valid →
    ∃ level : Byte, (level.toNat : Int) = win s.bits 0 8 ∧
      exec .start s =
        .next { s with
          level := level, byp := decide (win s.bits 0 8 = 0), cur := 8, rem := 0, olen := 0, i := 0
          eof := decide (s.clen = 8), phase := if 0 < s.cfg.outMax then .run else .done }

/-- R222 with R10 and R221: a configuration that breaks a constraint of R6 to R10 makes the start step take ConfigInvalid;
PHASE stays IDLE and nothing but the fault registers is written. The constraints: complete tables, no code longer than
WMAX, different delimiters, DICT_LEN >= 2, NBITS at least 8 and a multiple of 8, ALOG2 in 0..255, the widths the largest
code lengths, AW_WIN and AW_DICT at most ALOG2, OUT_MAX >= MAX_INPUT, both delimiter values in DICT. And it takes
ConfigInvalid of no configuration that meets all of them: what DICT holds beyond DICT_LEN, or C beyond NBITS, does not
matter. (R7's bound of 255 on a code length is the length byte's, R96. That the block checks also what R221 does not
list, and that the check that fails is recorded, is log entry 11, DEDUCED.) -/
def Obligations.InvalidConfigurationTakesConfigInvalid : Prop :=
  (∀ (s : State), s.phase = .idle → s.fault = false →
    (¬ CompleteTable 256 s.tab.chLen ∨ ¬ CompleteTable 256 s.tab.lnLen ∨ ¬ CompleteTable (2 ^ s.tab.alog2) s.tab.adLen ∨
      s.cfg.wmax < maxLen s.tab.chLen ∨ s.cfg.wmax < maxLen s.tab.lnLen ∨ s.cfg.wmax < maxLen s.tab.adLen ∨
      s.tab.delimW = s.tab.delimD ∨ s.dictLen < 2 ∨ s.cfg.nbits < 8 ∨ s.cfg.nbits % 8 ≠ 0 ∨ 255 < s.tab.alog2 ∨
      s.tab.wc ≠ maxLen s.tab.chLen ∨ s.tab.wl ≠ maxLen s.tab.lnLen ∨ s.tab.wa ≠ maxLen s.tab.adLen ∨
      s.tab.alog2 < s.cfg.awWin ∨ s.tab.alog2 < s.cfg.awDict ∨ s.cfg.outMax < s.cfg.maxInput ∨
      (∀ k, k < s.dictLen → s.dictByte k ≠ s.tab.delimW) ∨ (∀ k, k < s.dictLen → s.dictByte k ≠ s.tab.delimD)) →
    ∃ c, exec .start s = .next { s with fault := true, fcode := .configInvalid, finfo := .config c }) ∧
  (∀ (s : State), TablesOk s.tab →
    maxLen s.tab.chLen ≤ min s.cfg.wmax 255 → maxLen s.tab.lnLen ≤ min s.cfg.wmax 255 →
    maxLen s.tab.adLen ≤ min s.cfg.wmax 255 → 2 ≤ s.dictLen → 8 ≤ s.cfg.nbits → s.cfg.nbits % 8 = 0 → s.tab.alog2 ≤ 255 →
    s.cfg.awWin ≤ s.tab.alog2 → s.cfg.awDict ≤ s.tab.alog2 → s.cfg.maxInput ≤ s.cfg.outMax →
    (∃ k, k < s.dictLen ∧ s.dictByte k = s.tab.delimW) → (∃ k, k < s.dictLen ∧ s.dictByte k = s.tab.delimD) →
      configCheck s = none)

/-- R226, R223: with a valid configuration, the first entry of C that is not boolean, lowest index first, makes the start
step take AssertFail with that entry's value. -/
def Obligations.FirstNonBooleanEntryTakesAssertFail : Prop :=
  ∀ (s : State) (k : Nat) (v : Int), s.phase = .idle → s.fault = false → configCheck s = none →
    s.bits[k]? = some v → v ≠ 0 → v ≠ 1 → (∀ j a, j < k → s.bits[j]? = some a → a = 0 ∨ a = 1) →
    exec .start s = .next { s with fault := true, fcode := .assertFail, finfo := .assertBool v }

/-- R242 against the header row: on a valid configuration the start step does what the header at bit 0 does. R161's header
sets only the level, the cursor and the output; that the row sets I, REM, OLEN, EOF and PHASE as the start step does is
log entry 3 (DEDUCED), and this says so. -/
def Obligations.StartExecutesTheHeader : Prop :=
  ∀ (s : State), s.MemInv → s.phase = .idle → s.fault = false → s.Valid →
    ∃ i, decode s.tab .header s.bits 0 = .ok (i, 8) ∧ exec .start s = exec i s

/-! ## The iteration -/

/-- R182 to R184, R186 to R188, R192: the fields and wires of an iteration whose field decodes answer, in closed form, in
every state. (R181's `live` is written out, R183's lookups are the decodes at p1 and p2.) -/
def Obligations.IterationWiresFollowTheRules : Prop :=
  ∀ (s : State) (f : Fields), fieldsAt s = .ok f →
    (∃ sh lsh lv ll av la : Nat,
      lutAt s.tab.chLen s.tab.wc (win s.bits s.cur s.tab.wc) = some (sh, lsh) ∧
      f.s = (if s.byp then win s.bits s.cur 8 else (sh : Int)) ∧ f.ls = (if s.byp then 8 else (lsh : Int)) ∧
      lutAt s.tab.lnLen s.tab.wl (win s.bits (s.cur + f.ls.toNat) s.tab.wl) = some (lv, ll) ∧ f.lv = lv ∧ f.ll = ll ∧
      lutAt s.tab.adLen s.tab.wa (win s.bits (s.cur + f.ls.toNat + ll) s.tab.wa) = some (av, la) ∧ f.av = av ∧ f.la = la) ∧
    (wires s f).isW = (if s.eof = false ∧ s.byp = false ∧ f.s = (s.tab.delimW.toNat : Int) then 1 else 0) ∧
    (wires s f).isD = (if s.eof = false ∧ s.byp = false ∧ f.s = (s.tab.delimD.toNat : Int) then 1 else 0) ∧
    (wires s f).isM = (wires s f).isW + (wires s f).isD ∧
    (s.tab.delimW ≠ s.tab.delimD → (wires s f).isM = 0 ∨ (wires s f).isM = 1) ∧
    (wires s f).n = (if s.rem = 0 then (wires s f).isM * (f.lv + 1) else (s.rem : Int)) ∧
    (wires s f).copying = (if (wires s f).n = 0 then 0 else 1) ∧
    (wires s f).last = (if (wires s f).n = 0 ∨ (wires s f).n = 1 then 1 else 0) ∧
    (wires s f).key = (wires s f).isW * ((s.dictLen : Int) + s.i - 1 - f.av) +
      (wires s f).isD * (f.av + (f.lv + 1 - (wires s f).n)) ∧
    (wires s f).delta = (wires s f).last * (f.ls + (wires s f).isM * (f.ll + f.la))

/-- R190, R191, R193 to R197: in every state, an iteration that completes without a fault writes one entry, R190's byte at
I, and updates CUR, EOF, OLEN, REM, I and PHASE as the rules say, and nothing else. (The byte 0 of an iteration after the
end of the stream is R190's, decision D10 of the spec, log entry 15; a byte is taken modulo 256, log entry 10.) -/
def Obligations.IterationUpdatesTheRegisters : Prop :=
  ∀ (s t : State), s.fault = false → exec .iter s = .next t → t.fault = false →
    ∃ f v, fieldsAt s = .ok f ∧ srcLookup s (wires s f).isW (wires s f).isD (wires s f).key = some v ∧
      t.out.read s.i =
        some (if (wires s f).copying = 0 then toByte ((if s.eof then 0 else 1) * f.s) else v) ∧
      (∀ k, k ≠ s.i → t.out.read k = s.out.read k) ∧
      (t.cur : Int) = s.cur + (if s.eof then 0 else 1) * (wires s f).delta ∧
      t.eof = (s.eof || decide (t.cur = s.clen)) ∧
      t.olen = s.olen + (if s.eof then 0 else 1) ∧
      (t.rem : Int) = (wires s f).n - (wires s f).copying ∧
      t.i = s.i + 1 ∧ t.phase = (if s.i + 1 = s.cfg.outMax then .done else .run) ∧
      t.level = s.level ∧ t.byp = s.byp ∧ SameInputs s t ∧ SameFault s t ∧ SameModel s t

/-- R181 to R197 on a record that is one byte: in a live run the iteration at a RAW or LIT writes its byte at I, moves
the cursor past it, latches EOF at CLEN, leaves REM at 0, and counts in I, OLEN and PHASE; nothing else changes. -/
def Obligations.IterationOfOneByteRecord : Prop :=
  ∀ (s : State) (b : Byte) (n : Nat), s.Inv → s.phase = .run → s.fault = false → s.eof = false →
    (decode s.tab (recordMode s.byp) s.bits s.cur = .ok (.raw b, n) ∨
      decode s.tab (recordMode s.byp) s.bits s.cur = .ok (.lit b, n)) →
    exec .iter s = .next (s.withByte b n 0)

/-- R183 to R197 on a match: in a live run the iteration at a match record, first or in the middle of its copy, writes
the byte `dist` before I, or the dictionary byte at the address plus the progress, and leaves one byte fewer to go; the
cursor stays until the last byte and then passes the whole record. -/
def Obligations.IterationOfMatchCopiesOneByte : Prop :=
  ∀ (s : State) (b : Byte) (len a n : Nat), s.Inv → s.phase = .run → s.fault = false → s.eof = false →
    (decode s.tab (recordMode s.byp) s.bits s.cur = .ok (.wmatch len a, n) → a ≤ s.i → s.out.read (s.i - a) = some b →
      exec .iter s = .next (s.withByte b (if s.toGo len = 1 then n else 0) (s.toGo len - 1))) ∧
    (decode s.tab (recordMode s.byp) s.bits s.cur = .ok (.dmatch len a, n) → a + (len - s.toGo len) < s.dictLen →
      exec .iter s =
        .next (s.withByte (s.dictByte (a + (len - s.toGo len))) (if s.toGo len = 1 then n else 0) (s.toGo len - 1)))

/-- R181, R190, R193 to R197 after the end of the stream: the iteration still executes, writes 0 at I, and moves only I
and PHASE; cursor, OLEN, REM and EOF are frozen. (The byte 0 is R190's, decision D10 of the spec.) -/
def Obligations.DeadIterationWritesZero : Prop :=
  ∀ (s : State), s.Inv → s.phase = .run → s.fault = false → s.eof = true →
    exec .iter s =
      .next { s with
        out := s.out.write s.i 0, i := s.i + 1, phase := if s.i + 1 = s.cfg.outMax then .done else .run }

/-- R189, R227: an iteration whose match reads a key that holds no value, or one in the wrong part of the key space,
takes LookupMiss with I and the key; it performs no insert and updates no register. -/
def Obligations.IterationMissTakesLookupMiss : Prop :=
  ∀ (s : State) (len a n : Nat), s.Inv → s.phase = .run → s.fault = false → s.eof = false →
    (decode s.tab (recordMode s.byp) s.bits s.cur = .ok (.wmatch len a, n) → s.i < a →
      exec .iter s =
        .next { s with
          fault := true, fcode := .lookupMiss, finfo := .miss s.i ((s.dictLen : Int) + s.i - a) }) ∧
    (decode s.tab (recordMode s.byp) s.bits s.cur = .ok (.dmatch len a, n) → s.dictLen ≤ a + (len - s.toGo len) →
      exec .iter s =
        .next { s with
          fault := true, fcode := .lookupMiss, finfo := .miss s.i ((a + (len - s.toGo len) : Nat) : Int) })

/-- R183 to R197 over a whole record: where a fresh record stands at the cursor of a live run, executing the record is
executing one iteration for each of its bytes, for every record, also when the copy is cut at OUT_MAX or misses. (That a
record row runs on the block's state is log entry 3, DEDUCED; this says that its reading there is the iterations'.) -/
def Obligations.RecordIsItsIterations : Prop :=
  ∀ (s : State) (i : Instr) (n : Nat), s.Inv → s.phase = .run → s.fault = false → s.eof = false → s.rem = 0 →
    decode s.tab (recordMode s.byp) s.bits s.cur = .ok (i, n) → exec i s = iterations (recordBytes i) s

/-- R26, R41 (c), R193, R195: in every state an iteration that completes never moves the cursor back and never clears
EOF, and once EOF = 1 the cursor and OLEN stay. -/
def Obligations.CursorNeverDecreasesAndEofStays : Prop :=
  ∀ (s t : State), exec .iter s = .next t →
    s.cur ≤ t.cur ∧ s.olen ≤ t.olen ∧ (s.eof = true → t.eof = true ∧ t.cur = s.cur ∧ t.olen = s.olen)

/-- R38, the wires: in a run on a valid configuration the fields, indicators, copy state, candidate keys and cursor step
of an iteration lie in their bounds, whatever the stream. R38's last clause, on the selected key, is false of malformed
streams (log entry 13) and is stated of well-formed ones in WellFormedRunStaysInBounds. -/
def Obligations.WiresStayInTheirBounds : Prop :=
  ∀ (s : State), s.Inv → s.phase = .run →
    ∃ f, fieldsAt s = .ok f ∧ 0 ≤ f.s ∧ f.s ≤ 255 ∧ 1 ≤ f.ls ∧ f.ls ≤ max 8 (s.tab.wc : Int) ∧ 0 ≤ f.lv ∧ f.lv ≤ 255 ∧
      1 ≤ f.ll ∧ f.ll ≤ s.tab.wl ∧ 0 ≤ f.av ∧ f.av < 2 ^ s.tab.alog2 ∧ 1 ≤ f.la ∧ f.la ≤ s.tab.wa ∧
      1 ≤ (wires s f).mlen ∧ (wires s f).mlen ≤ 256 ∧
      ((wires s f).isM = 0 ∨ (wires s f).isM = 1) ∧ ((wires s f).copying = 0 ∨ (wires s f).copying = 1) ∧
      ((wires s f).last = 0 ∨ (wires s f).last = 1) ∧ 0 ≤ (wires s f).n ∧ (wires s f).n ≤ 256 ∧
      -(2 ^ s.tab.alog2 : Int) ≤ (wires s f).kW ∧
      (wires s f).kW ≤ (s.dictLen : Int) + s.cfg.outMax + 2 ^ s.tab.alog2 + 256 ∧
      -(2 ^ s.tab.alog2 : Int) ≤ (wires s f).kD ∧
      (wires s f).kD ≤ (s.dictLen : Int) + s.cfg.outMax + 2 ^ s.tab.alog2 + 256 ∧
      0 ≤ (wires s f).delta ∧ (wires s f).delta ≤ max 8 ((s.tab.wc : Int) + s.tab.wl + s.tab.wa)

/-- R185: for two different delimiter values the polynomial form of the indicators has the values of the comparisons, for
every symbol. -/
def Obligations.IndicatorPolynomialsAreComparisons : Prop :=
  ∀ (s a b : Int), a ≠ b → polyIsDict s a b = opEq s b ∧ polyIsWindow s a b = opEq s a

/-- R201: the operations of an iteration are fixed: WC + 8 + WL + WA lookups in BITS, one in each table, one in SRC, one
insert, three ISZERO, three EQ, five SELECT; no SUB stands in the list, since one counts as one ADD and one MUL (R118).
(The numbers of ADD, MUL and MAC are the model's, log entry 18, and not stated.) -/
def Obligations.IterationOperationCounts : Prop :=
  ∀ (s : State) (ops : List Instr), iterTrace s = some ops →
    countOp (.lookup .bits 0) ops = s.tab.wc + 8 + s.tab.wl + s.tab.wa ∧
    countOp (.lookup .lutCh 0) ops = 1 ∧ countOp (.lookup .lutLn 0) ops = 1 ∧ countOp (.lookup .lutAd 0) ops = 1 ∧
    countOp (.lookup .src 0) ops = 1 ∧ countOp (.insert 0 0) ops = 1 ∧ countOp (.isZero 0) ops = 3 ∧
    countOp (.eq 0 0) ops = 3 ∧ countOp (.select 0 0 0) ops = 5 ∧ countOp (.sub 0 0) ops = 0

/-- R121, R201: two iterations with the same window widths perform the same operations in the same order; only values and
keys differ. (Which order within a rule's formula is log entry 18; this holds of the model's one.) -/
def Obligations.IterationSequenceIsDataIndependent : Prop :=
  ∀ (s t : State) (ops ops' : List Instr), s.tab.wc = t.tab.wc → s.tab.wl = t.tab.wl → s.tab.wa = t.tab.wa →
    iterTrace s = some ops → iterTrace t = some ops' → ops.map eraseValues = ops'.map eraseValues

/-- R12, R191: an enabled iteration that takes no fault is its sequence of primitive operations: the sequence exists, and
the one insert in it is the byte the iteration writes. -/
def Obligations.IterationWritesWhatItsSequenceInserts : Prop :=
  ∀ (s t : State), s.fault = false → exec .iter s = .next t → t.fault = false →
    ∃ ops v, iterTrace s = some ops ∧ .insert s.i v ∈ ops ∧ t.out.read s.i = some v

/-! ## Stepping -/

/-- One step runs the decoded instruction: at record level, the header before the run, then the record at the cursor
(R161, R166 as a step). That a step may be one header or record is the model's record level, log entry 4 (DESIGN CHOICE):
the block itself never takes such a step. -/
def Obligations.StepRunsTheDecodedInstruction : Prop :=
  ∀ (s : State) (i : Instr) (n : Nat), s.req = [] → s.view = .record → s.fault = false →
    (s.phase = .idle → decode s.tab .header s.bits 0 = .ok (i, n) → step s = exec i s) ∧
    (s.phase = .run → s.eof = false → decode s.tab (recordMode s.byp) s.bits s.cur = .ok (i, n) → step s = exec i s)

/-- R180, R242, R244: the sequencer: the start request runs START; in RUN a step is an iteration; in IDLE without a
request, in DONE, and once a fault is taken, no step is enabled. (The list of pending host actions is log entry 4.) -/
def Obligations.SequencerStepsByPhase : Prop :=
  ∀ (s : State) (rest : List HostReq), s.view = .hardware →
    (s.req = .start :: rest → step s = exec .start { s with req := rest }) ∧
    (s.req = [] → s.fault = false → s.phase = .run → step s = exec .iter s) ∧
    (s.req = [] → s.fault = false → s.phase = .idle → step s = .fault .noStartRequest) ∧
    (s.req = [] → s.phase = .done → step s = .fault .runOver) ∧
    (s.req = [] → s.fault = true → step s = .fault .runOver)

/-- R180, R242, R226: START and ITER are not enabled outside their phase or after a fault. R161 to R165, R230, R84, R91,
R93: where the other rows stop. A header row is executed only in IDLE with FAULT = 0; a record row only in a live run with
no copy in progress, off the end of the stream, in the header's mode; INSERT only in a live run. A header or record no
stream can hold under the loaded tables is refused: level 0 as HDR_COMP, a LIT of a delimiter or of an unused symbol, a
match whose length, distance or address has no code. (Rows on the block's state are log entry 3, INSERT's enabling is log
entry 12, the refusal is log entry 14.) -/
def Obligations.StepRowsNeedTheirPhase : Prop :=
  ∀ (s : State) (i : Instr) (k : Int) (b : Byte) (len a : Nat),
    (s.phase ≠ .idle ∨ s.fault = true → exec .start s = .fault .startNotEnabled) ∧
    (s.phase ≠ .run ∨ s.fault = true → exec .iter s = .fault .iterNotEnabled) ∧
    (s.phase ≠ .idle ∨ s.fault = true →
      exec .hdrNocomp s = .fault .headerNotEnabled ∧ exec (.hdrComp b) s = .fault .headerNotEnabled) ∧
    (s.phase = .idle → s.fault = false → exec (.hdrComp 0) s = .refused .notEncodable) ∧
    (s.phase ≠ .run ∨ s.fault = true ∨ s.eof = true ∨ s.rem ≠ 0 ∨ s.cur = s.clen ∨ s.byp = false →
      exec (.raw b) s = .fault .recordNotEnabled) ∧
    (s.phase ≠ .run ∨ s.fault = true ∨ s.eof = true ∨ s.rem ≠ 0 ∨ s.cur = s.clen ∨ s.byp = true →
      exec (.lit b) s = .fault .recordNotEnabled ∧ exec (.wmatch len a) s = .fault .recordNotEnabled ∧
      exec (.dmatch len a) s = .fault .recordNotEnabled) ∧
    (s.phase = .run → s.fault = false → s.eof = false → s.rem = 0 → s.cur ≠ s.clen → s.byp = false →
      i.mode? = some .coded → i.wf s.tab = false → exec i s = .refused .notEncodable) ∧
    (b = s.tab.delimW ∨ b = s.tab.delimD ∨ codeLen s.tab.chLen b.toNat = 0 → (Instr.lit b).wf s.tab = false) ∧
    (s.phase ≠ .run ∨ s.fault = true → exec (.insert k b) s = .fault .insertNotEnabled)

/-- R240: reset, in any phase, after any fault: the working registers, the fault registers and OUT as R39 says, the
configuration, C and CLEN not touched. (LEVEL and BYP are left unspecified and this says nothing of them. That the
recorded information is cleared is the model's choice, log entry 11; that the request is taken off a list is log entry
4.) -/
def Obligations.ResetRestoresTheWorkingRegisters : Prop :=
  ∀ (s : State) (rest : List HostReq), s.req = .reset :: rest →
    ∃ t, step s = .next t ∧ t.phase = .idle ∧ t.i = 0 ∧ t.cur = 8 ∧ t.rem = 0 ∧ t.olen = 0 ∧ t.eof = false ∧
      t.fault = false ∧ t.fcode = .noFault ∧ t.finfo = .nothing ∧ t.out = [] ∧ t.req = rest ∧ SameInputs s t

/-- R31, R66: while PHASE = RUN the host has no move but reset: every write of a configuration register, C, CLEN, DICT or
a table is refused. (The list of pending host actions is log entry 4.) -/
def Obligations.HostWritesAreRefusedDuringRun : Prop :=
  ∀ (s : State) (r : HostReq) (rest : List HostReq), s.req = r :: rest → s.phase = .run → r ≠ .reset → r ≠ .start →
    step s = .refused .hostWriteDuringRun

/-- R243, R31: in IDLE and in DONE the host's writes to different inputs may come in any order. (The list of pending
host actions is log entry 4.) -/
def Obligations.HostWritesComeInAnyOrder : Prop :=
  ∀ (s : State) (r r' : HostReq), s.phase ≠ .run → r.writes ≠ none → r'.writes ≠ none → r.writes ≠ r'.writes →
    ∃ t, Host.Core.run core 2 { s with req := [r, r'] } = .next t ∧
      Host.Core.run core 2 { s with req := [r', r] } = .next t ∧ t.req = [] ∧ SameWork s t ∧ SameFault s t

/-- R40: no step of the block changes the configuration, the tables, the dictionary, C or CLEN; nor does any instruction,
in any state. -/
def Obligations.NoInstructionChangesTheInputs : Prop :=
  ∀ (i : Instr) (s t : State), exec i s = .next t → SameInputs s t ∧ t.req = s.req ∧ t.view = s.view ∧ t.fresh = s.fresh

/-- R57, R60 to R62: with no host action pending, a step never overwrites or erases a written entry of OUT, and writes
entries only from I on, without a gap. -/
def Obligations.OutputIsAppendOnly : Prop :=
  ∀ (s t : State), s.MemInv → s.req = [] → step s = .next t →
    (∀ k b, s.out.read k = some b → t.out.read k = some b) ∧ s.i ≤ t.i ∧
      ∀ k, (t.out.read k).isSome = decide (k < t.i)

/-- The memories stay canonical, the written entries of OUT are exactly those below I, OLEN is I until the end of the
stream, the counters and fault registers stay consistent: kept by every step, at both levels, and by every host action
(R24, R27, R28, R38, R39, R57). -/
def Obligations.StepKeepsMemoryInvariant : Prop :=
  ∀ (s t : State), s.MemInv → step s = .next t → t.MemInv

/-- R38, R41: what holds at every iteration start of every run on a valid configuration, for any stream, is kept by every
step of the block and every host action. R28, R198: so is what holds of a run that is over, that I = OUT_MAX, and OLEN =
OUT_MAX where the end of the stream was not reached, but for the host's choice of another OUT_MAX. -/
def Obligations.StepKeepsRunInvariant : Prop :=
  ∀ (s t : State), s.Inv → step s = .next t →
    t.Inv ∧ (s.DoneInv → (∀ c rest, s.req ≠ .configure c :: rest) → t.DoneInv)

/-- The invariants hold after reset. -/
def Obligations.ResetMeetsTheInvariant : Prop := State.reset.Inv ∧ State.reset.DoneInv

/-- R180, R198: a run goes on, whatever the stream holds, until all OUT_MAX iterations are done or a fault is taken; no
iteration is refused; and with EOF = 0 at the end OLEN is OUT_MAX. -/
def Obligations.RunEndsAfterOutMaxIterations : Prop :=
  ∀ (s : State), s.Inv → s.phase = .run → s.fault = false →
    ∃ t, iterations (s.cfg.outMax - s.i) s = .next t ∧
      (t.fault = true ∨ (t.fault = false ∧ t.phase = .done ∧ t.i = s.cfg.outMax ∧ (t.eof = false → t.olen = s.cfg.outMax)))

/-- R198, R243 item 7, R31: the host has the data OUT[0..OLEN-1] when PHASE = DONE with FAULT = 0 and EOF = 1, and no
complete decompression otherwise; the status registers, the counter I (R231) and the written entries of OUT it reads at
any time. -/
def Obligations.ResultIsReadAtACompleteEnd : Prop :=
  ∀ (s : State), s.MemInv →
    (s.phase = .done → s.fault = false → s.eof = true →
      ∃ bytes, hostResult s = some bytes ∧ bytes.length = s.olen ∧ ∀ k, k < s.olen → s.out.read k = bytes[k]?) ∧
    (s.phase ≠ .done ∨ s.fault = true ∨ s.eof = false → hostResult s = none) ∧
    (∀ k b, k < s.cfg.outMax → s.out.read k = some b → hostReadOut s k = some b) ∧
    (∀ k, s.i ≤ k → hostReadOut s k = none) ∧
    s.status.olen = s.olen ∧ s.status.eof = s.eof ∧ s.status.fault = s.fault ∧ (s.status.fcode = 0 ↔ s.fault = false) ∧
    s.status.phase = s.phase ∧ (s.status.done = true ↔ s.phase = .done) ∧ s.status.i = s.i

/-- R243 items 1 to 6: outside a run the host's boot actions load the configuration, C, CLEN, DICT and the tables, and
reset the machine where PHASE is not IDLE or a fault has been taken; the start request is what remains. The stream's
bytes stand in C most significant bit first (R51). One step for each action, the list of them and their order are the
model's, log entries 4 and 9 (DESIGN CHOICE), and so is that the entries of C and DICT beyond what is loaded stay as they
were, log entry 8. -/
def Obligations.BootActionsLoadTheConfiguration : Prop :=
  ∀ (s : State) (cfg : Config) (dw dd : Byte) (raw payload stream : List Byte) (clen alog2 : Nat)
    (ch ln ad : Lengths) (reqs : List HostReq),
    s.phase ≠ .run → parseTables payload = some (alog2, ch, ln, ad) → 8 * stream.length ≤ cfg.nbits →
    bootRequests s cfg dw dd raw payload stream clen = some reqs → s.req = reqs →
    ∃ t, Host.Core.run core (reqs.length - 1) s = .next t ∧ t.req = [.start] ∧ t.phase = .idle ∧ t.fault = false ∧
      t.cfg = cfg ∧
      t.tab = { delimW := dw, delimD := dd, alog2 := alog2, wc := maxLen ch, wl := maxLen ln, wa := maxLen ad
                chLen := ch, lnLen := ln, adLen := ad } ∧
      t.dictLen = (augment cfg.augOrder dw dd raw).length ∧
      (∀ k, k < t.dictLen → (augment cfg.augOrder dw dd raw)[k]? = some (t.dictByte k)) ∧
      (∀ k, t.dictLen ≤ k → t.dict.read k = s.dict.read k) ∧
      t.bits.length = cfg.nbits ∧ (∀ m b, stream[m]? = some b → win t.bits (8 * m) 8 = b.toNat) ∧
      (∀ k, 8 * stream.length ≤ k → t.loaded[k]? = s.loaded[k]?) ∧ t.clen = clen

/-! ## The run against the oracle -/

/-- R171, R166, R168: the oracle has a result exactly for the well-formed pairs (C, CLEN), none where the configuration is
invalid (a table with invalid or incomplete lengths included) or C no bit array; and the result of a well-formed pair
does not depend on the bits of C at and beyond CLEN. -/
def Obligations.OracleResultOfWellFormedPairs : Prop :=
  ∀ (s : State) (c : List Int),
    ((refDecompress s).isSome = wellFormedStream s) ∧
    (¬ s.Valid → refDecompress s = none) ∧
    (BooleanArray { s with loaded := c }.bits →
      (∀ k, k < s.clen → bitAt { s with loaded := c }.bits k = bitAt s.bits k) → wellFormedStream s = true →
      refDecompress { s with loaded := c } = refDecompress s)

/-- R199: for every valid configuration and every well-formed pair (C, CLEN), from the start request on the machine ends
its OUT_MAX iterations with FAULT = 0, EOF = 1, OLEN the oracle's length, OUT the oracle's bytes, and 0 beyond them. -/
def Obligations.RunAgreesWithTheOracle : Prop :=
  ∀ (s : State), s.MemInv → s.view = .hardware → s.req = [.start] → s.phase = .idle → s.fault = false → s.Valid →
    wellFormedStream s = true →
    ∃ out t, refDecompress s = some out ∧ Host.Core.run core (s.cfg.outMax + 1) s = .next t ∧
      t.phase = .done ∧ t.fault = false ∧ t.eof = true ∧ t.olen = out.length ∧
      (∀ k, k < out.length → t.out.read k = out[k]?) ∧
      (∀ k, out.length ≤ k → k < s.cfg.outMax → t.out.read k = some 0)

/-- R38 of a well-formed pair: at every iteration start of its run 8 <= CUR <= CLEN <= NBITS, and the selected key of the
source lookup holds a value: it is never negative and never reaches DICT_LEN + I. -/
def Obligations.WellFormedRunStaysInBounds : Prop :=
  ∀ (s : State) (n : Nat) (t : State), s.MemInv → s.view = .hardware → s.req = [.start] → s.phase = .idle →
    s.fault = false → s.Valid → wellFormedStream s = true → Host.Core.run core n s = .next t →
      8 ≤ t.cur ∧ t.cur ≤ t.clen ∧ t.clen ≤ t.nbits ∧
      (t.phase = .run →
        ∃ f, fieldsAt t = .ok f ∧ 0 ≤ (wires t f).key ∧ (wires t f).key < (t.dictLen : Int) + t.i)

/-- R200: on a well-formed pair no register at any iteration start and no output entry depends on the padding: two
machines that differ only in entries of C at and beyond CLEN step alike. -/
def Obligations.PaddingDoesNotMatter : Prop :=
  ∀ (s : State) (c : List Int) (n : Nat) (t : State), s.MemInv → s.view = .hardware → s.req = [.start] →
    s.phase = .idle → s.fault = false → s.Valid → wellFormedStream s = true →
    BooleanArray { s with loaded := c }.bits → (∀ k, k < s.clen → bitAt { s with loaded := c }.bits k = bitAt s.bits k) →
    Host.Core.run core n s = .next t →
      Host.Core.run core n { s with loaded := c } = .next { t with loaded := c }
end

