-- ==== Sys2Proof/Laws/Arith.lean ====
section
/-! SUPPORT. The primitive operations as integer arithmetic, and the wires of the datapath on 0/1 values. -/

namespace Sys2Proof.Machine

@[simp] theorem opAdd_eq (a b : Int) : opAdd a b = a + b := rfl

@[simp] theorem opMul_eq (a b : Int) : opMul a b = a * b := rfl

@[simp] theorem opMac_eq (acc a b : Int) : opMac acc a b = acc + a * b := rfl

@[simp] theorem opSub_eq (a b : Int) : opSub a b = a - b := by simp [opSub]; ring

@[simp] theorem opNeg_eq (b : Int) : opNeg b = -b := by simp [opNeg]

@[simp] theorem opSelect_eq (c a b : Int) : opSelect c a b = b + c * (a - b) := by simp [opSelect]

@[simp] theorem opIsZero_zero : opIsZero 0 = 1 := rfl

@[simp] theorem opIsZero_of_ne {x : Int} (h : x ≠ 0) : opIsZero x = 0 := by simp [opIsZero, h]

theorem opIsZero_eq (x : Int) : opIsZero x = if x = 0 then 1 else 0 := rfl

theorem opEq_eq (a b : Int) : opEq a b = if a = b then 1 else 0 := by
  simp [opEq, opIsZero, sub_eq_zero]

@[simp] theorem ofFlag_true : ofFlag true = 1 := rfl

@[simp] theorem ofFlag_false : ofFlag false = 0 := rfl

@[simp] theorem toFlag_one : toFlag 1 = true := rfl

@[simp] theorem toFlag_zero : toFlag 0 = false := rfl

@[simp] theorem toFlag_ofFlag (b : Bool) : toFlag (ofFlag b) = b := by cases b <;> rfl

@[simp] theorem toFlag_opIsZero (x : Int) : toFlag (opIsZero x) = decide (x = 0) := by
  by_cases h : x = 0 <;> simp [opIsZero, h]

@[simp] theorem toFlag_opEq (a b : Int) : toFlag (opEq a b) = decide (a = b) := by
  rw [opEq_eq]; by_cases h : a = b <;> simp [h]

@[simp] theorem isBoolean_iff (a : Int) : isBoolean a = true ↔ a = 0 ∨ a = 1 := by simp [isBoolean]

theorem ofByte_nonneg (b : Byte) : 0 ≤ ofByte b := by simp [ofByte]

theorem ofByte_lt (b : Byte) : ofByte b < 256 := by
  have := b.isLt
  simp only [ofByte]; omega

@[simp] theorem toByte_ofByte (b : Byte) : toByte (ofByte b) = b := by
  simp [toByte, ofByte]

theorem ofByte_toByte {v : Int} (h0 : 0 ≤ v) (h1 : v < 256) : ofByte (toByte v) = v := by
  obtain ⟨n, rfl⟩ := Int.eq_ofNat_of_zero_le h0
  simp only [toByte, ofByte]
  rw [show BitVec.ofInt 8 (n : Int) = BitVec.ofNat 8 n from by simp]
  simp only [BitVec.toNat_ofNat]
  omega

theorem ofByte_inj {a b : Byte} : ofByte a = ofByte b ↔ a = b := by
  simp [ofByte, BitVec.toNat_inj]

@[simp] theorem liveWire_false : liveWire false = 1 := by simp [liveWire]

@[simp] theorem liveWire_true : liveWire true = 0 := by simp [liveWire]

theorem startsMatch_eq (g s : Int) (d : Byte) : startsMatch g s d = if s = ofByte d then g else 0 := by
  by_cases h : s = ofByte d <;> simp [startsMatch, opEq_eq, h]

@[simp] theorem bypassSelect_true (a b : Int) : bypassSelect true a b = a := by simp [bypassSelect]

@[simp] theorem bypassSelect_false (a b : Int) : bypassSelect false a b = b := by simp [bypassSelect]

theorem bytesToGo_eq (r : Nat) (m l : Int) : bytesToGo r m l = if r = 0 then m * l else (r : Int) := by
  by_cases h : r = 0
  · simp [bytesToGo, h]
  · have : (r : Int) ≠ 0 := by exact_mod_cast h
    simp [bytesToGo, h]

theorem copyingWire_eq (n : Int) : copyingWire n = if n = 0 then 0 else 1 := by
  by_cases h : n = 0 <;> simp [copyingWire, h]

theorem lastWire_eq (n : Int) : lastWire n = if n = 0 ∨ n = 1 then 1 else 0 := by
  by_cases h : n = 0
  · simp [lastWire, h]
  · by_cases h1 : n = 1
    · simp [lastWire, h1]
    · have : n * (n - 1) ≠ 0 := mul_ne_zero h (sub_ne_zero.mpr h1)
      rw [lastWire, opSub_eq, opMul_eq, opIsZero_of_ne this]; simp [h, h1]

@[simp] theorem eofNext_true (h : Int) : eofNext true h = 1 := by simp [eofNext]

@[simp] theorem eofNext_false (h : Int) : eofNext false h = h := by simp [eofNext]

theorem hitWire_eq (c : Int) (clen : Nat) : hitWire c clen = if c = clen then 1 else 0 := opEq_eq c clen

end Sys2Proof.Machine
end

