-- ==== Sys2Proof/Laws/BitReader.lean ====
section
/-! SUPPORT. Laws of the bit reader (R137) and of numbers written as bits (R50). -/

namespace Sys2Proof.Machine

theorem booleanArray_iff {c : List Int} : BooleanArray c ↔ ∀ a ∈ c, a = 0 ∨ a = 1 := by
  unfold BooleanArray firstNonBoolean
  rw [List.find?_eq_none]
  simp

/-- Every bit of a boolean array is 0 or 1, beyond its end too (R67). -/
theorem bitAt_boolean {c : List Int} (h : BooleanArray c) (k : Nat) : bitAt c k = 0 ∨ bitAt c k = 1 := by
  unfold bitAt
  by_cases hk : k < c.length
  · rw [List.getD_eq_getElem c 0 hk]
    exact booleanArray_iff.mp h _ (List.getElem_mem hk)
  · rw [List.getD_eq_default c 0 (by omega)]
    exact .inl rfl

/-- The accumulator of R137's loop counts as the bits before. -/
theorem winFrom_acc (c : List Int) (p w : Nat) (acc : Int) :
    winFrom c p w acc = acc * 2 ^ w + winFrom c p w 0 := by
  induction w generalizing p acc with
  | zero => simp [winFrom]
  | succ w ih =>
    rw [winFrom, winFrom, ih, ih (p + 1) (opMac (bitAt c p) 2 0)]
    simp only [opMac_eq, pow_succ]
    ring

@[simp] theorem win_zero (c : List Int) (p : Nat) : win c p 0 = 0 := rfl

/-- A window is its first bit and the window after it. -/
theorem win_succ (c : List Int) (p w : Nat) : win c p (w + 1) = bitAt c p * 2 ^ w + win c (p + 1) w := by
  rw [win, winFrom, winFrom_acc]
  simp [win]

/-- A window is its first `a` bits and the rest. -/
theorem win_add (c : List Int) (p a b : Nat) : win c p (a + b) = win c p a * 2 ^ b + win c (p + a) b := by
  induction a generalizing p with
  | zero => simp
  | succ a ih =>
    rw [show a + 1 + b = (a + b) + 1 from by omega, win_succ, ih, win_succ, pow_add,
      show p + 1 + a = p + (a + 1) from by omega]
    ring

/-- A window's last bit. -/
theorem win_succ_last (c : List Int) (p w : Nat) : win c p (w + 1) = win c p w * 2 + bitAt c (p + w) := by
  rw [win_add c p w 1, win_succ c (p + w) 0]
  simp

/-- A window of a boolean array lies in 0..2^w - 1 (R137). -/
theorem win_range {c : List Int} (h : BooleanArray c) (p w : Nat) : 0 ≤ win c p w ∧ win c p w < 2 ^ w := by
  induction w generalizing p with
  | zero => simp
  | succ w ih =>
    have h1 := ih (p + 1)
    rw [win_succ, pow_succ]
    rcases bitAt_boolean h p with hb | hb <;> rw [hb] <;> constructor <;> omega

/-- Arrays that agree on the window's bits have the same window. -/
theorem win_congr {c d : List Int} {p w : Nat} (h : ∀ j, j < w → bitAt c (p + j) = bitAt d (p + j)) :
    win c p w = win d p w := by
  induction w generalizing p with
  | zero => simp
  | succ w ih =>
    rw [win_succ, win_succ, show bitAt c p = bitAt d p from by simpa using h 0 (by omega)]
    rw [ih (p := p + 1) fun j hj => by
      have := h (j + 1) (by omega)
      rwa [show p + (j + 1) = p + 1 + j from by omega] at this]

@[simp] theorem bitsOf_length (l v : Nat) : (bitsOf l v).length = l := by
  induction l generalizing v with
  | zero => rfl
  | succ l ih => simp [bitsOf, ih]

theorem bitsOf_boolean (l v : Nat) : BooleanArray (bitsOf l v) := by
  rw [booleanArray_iff]
  induction l with
  | zero => simp [bitsOf]
  | succ l ih =>
    intro a ha
    rw [bitsOf, List.mem_cons] at ha
    rcases ha with rfl | ha
    · rcases Nat.mod_two_eq_zero_or_one (v / 2 ^ l) with h | h <;> simp [h]
    · exact ih a ha

theorem bitAt_append_right (pre rest : List Int) (k : Nat) : bitAt (pre ++ rest) (pre.length + k) = bitAt rest k := by
  rw [bitAt, bitAt, List.getD_eq_getElem?_getD, List.getD_eq_getElem?_getD,
    List.getElem?_append_right (by omega), Nat.add_sub_cancel_left]

/-- A window inside the part after `pre`. -/
theorem win_append_right (pre rest : List Int) (k w : Nat) : win (pre ++ rest) (pre.length + k) w = win rest k w := by
  induction w generalizing k with
  | zero => simp
  | succ w ih =>
    rw [win_succ, win_succ, bitAt_append_right, show pre.length + k + 1 = pre.length + (k + 1) from by omega, ih]

/-- The window over a number's bits is the number, modulo 2^l (R50). -/
theorem win_bitsOf_mod (l v : Nat) (post : List Int) : win (bitsOf l v ++ post) 0 l = ((v % 2 ^ l : Nat) : Int) := by
  induction l with
  | zero => simp [Nat.mod_one]
  | succ l ih =>
    rw [win_succ]
    have h0 : bitAt (bitsOf (l + 1) v ++ post) 0 = ((v / 2 ^ l % 2 : Nat) : Int) := by simp [bitsOf, bitAt]
    have h1 : win (bitsOf (l + 1) v ++ post) (0 + 1) l = win (bitsOf l v ++ post) 0 l := by
      have := win_append_right [((v / 2 ^ l % 2 : Nat) : Int)] (bitsOf l v ++ post) 0 l
      simpa [bitsOf] using this
    rw [h0, h1, ih]
    have h2 : v % 2 ^ (l + 1) = v % 2 ^ l + 2 ^ l * (v / 2 ^ l % 2) := by
      rw [pow_succ, Nat.mod_mul]
    rw [h2]
    push_cast
    ring

/-- The window over a number's bits, preceded and followed by anything, is the number (R50, R133). -/
theorem win_bitsOf {l v : Nat} (h : v < 2 ^ l) (pre post : List Int) :
    win (pre ++ bitsOf l v ++ post) pre.length l = v := by
  have := win_append_right pre (bitsOf l v ++ post) 0 l
  rw [List.append_assoc, show pre.length = pre.length + 0 from rfl, this, win_bitsOf_mod, Nat.mod_eq_of_lt h]

end Sys2Proof.Machine
end

