-- ==== Sys2Proof/Laws/Memory.lean ====
section
/-! SUPPORT. Laws of the byte memories: read after write, and that every operation keeps the canonical form. -/

namespace Sys2Proof.Machine

@[simp] theorem Memory.read_nil (a : Nat) : Memory.read [] a = none := rfl

@[simp] theorem Memory.wf_nil : Memory.wf [] = true := rfl

/-- A read after a write at the same key gives the value written. -/
@[simp] theorem Memory.read_write_same (m : Memory) (a : Nat) (v : Byte) : (m.write a v).read a = some v := by
  induction m with
  | nil => simp [Memory.write, Memory.read]
  | cons c rest ih =>
    obtain ⟨k, b⟩ := c
    unfold Memory.write
    split
    · simp [Memory.read]
    · split
      · simp [Memory.read]
      · rename_i h1 h2
        simp [Memory.read, Ne.symm h2, ih]

/-- A write leaves every other key alone. -/
@[simp] theorem Memory.read_write_ne (m : Memory) {a k : Nat} (v : Byte) (h : k ≠ a) :
    (m.write a v).read k = m.read k := by
  induction m with
  | nil => simp [Memory.write, Memory.read, Ne.symm h]
  | cons c rest ih =>
    obtain ⟨j, b⟩ := c
    unfold Memory.write
    split
    · simp [Memory.read, Ne.symm h]
    · split
      · rename_i h2
        subst h2
        simp [Memory.read, Ne.symm h]
      · simp [Memory.read, ih]

/-- What a read gives after a write. -/
theorem Memory.read_write (m : Memory) (a k : Nat) (v : Byte) :
    (m.write a v).read k = if k = a then some v else m.read k := by
  by_cases h : k = a
  · subst h; simp
  · simp [h]

theorem Memory.wfFrom_mono {m : Memory} {lo lo' : Nat} (h : Memory.wfFrom lo m = true) (hl : lo' ≤ lo) :
    Memory.wfFrom lo' m = true := by
  cases m with
  | nil => rfl
  | cons c rest =>
    obtain ⟨k, b⟩ := c
    simp only [Memory.wfFrom, Bool.and_eq_true, decide_eq_true_eq] at h ⊢
    exact ⟨by omega, h.2⟩

theorem Memory.wfFrom_write {m : Memory} {lo a : Nat} (v : Byte) (h : Memory.wfFrom lo m = true) (hl : lo ≤ a) :
    Memory.wfFrom lo (m.write a v) = true := by
  induction m generalizing lo with
  | nil => simp [Memory.write, Memory.wfFrom, hl]
  | cons c rest ih =>
    obtain ⟨k, b⟩ := c
    simp only [Memory.wfFrom, Bool.and_eq_true, decide_eq_true_eq] at h
    unfold Memory.write
    split
    · simp only [Memory.wfFrom, Bool.and_eq_true, decide_eq_true_eq]
      exact ⟨hl, by omega, h.2⟩
    · split
      · rename_i h2
        subst h2
        simp only [Memory.wfFrom, Bool.and_eq_true, decide_eq_true_eq]
        exact ⟨hl, h.2⟩
      · simp only [Memory.wfFrom, Bool.and_eq_true, decide_eq_true_eq]
        exact ⟨h.1, ih h.2 (by omega)⟩

/-- A write keeps the canonical form. -/
theorem Memory.wf_write {m : Memory} (a : Nat) (v : Byte) (h : m.wf = true) : (m.write a v).wf = true :=
  Memory.wfFrom_write v h (Nat.zero_le a)

/-- Loading a list of bytes keeps the canonical form. -/
theorem Memory.wf_load {m : Memory} (k : Nat) (bytes : List Byte) (h : m.wf = true) : (m.load k bytes).wf = true := by
  induction bytes generalizing k m with
  | nil => exact h
  | cons b rest ih => exact ih (k + 1) (Memory.wf_write _ _ h)

/-- After a load the loaded keys hold its bytes and every other key what it held. -/
theorem Memory.read_load (m : Memory) (k a : Nat) (bytes : List Byte) :
    (m.load k bytes).read a = if k ≤ a ∧ a - k < bytes.length then bytes[a - k]? else m.read a := by
  induction bytes generalizing k m with
  | nil => simp [Memory.load]
  | cons b rest ih =>
    rw [Memory.load, ih, Memory.read_write]
    rcases Nat.lt_trichotomy a k with h | h | h
    · rw [if_neg (by omega), if_neg (by omega), if_neg (by omega)]
    · subst h; simp
    · have h4 : a - k = (a - (k + 1)) + 1 := by omega
      rw [if_neg (by omega : ¬ a = k), h4]
      simp only [List.length_cons, List.getElem?_cons_succ]
      by_cases h5 : a - (k + 1) < rest.length
      · rw [if_pos ⟨by omega, h5⟩, if_pos ⟨by omega, by omega⟩]
      · rw [if_neg (by omega), if_neg (by omega)]

/-- A list of bytes from key 0 on is in canonical form. -/
theorem Memory.wf_ofBytes (bytes : List Byte) : (Memory.ofBytes bytes).wf = true := Memory.wf_load 0 bytes rfl

/-- The byte at a key of a list. -/
theorem Memory.read_ofBytes (a : Nat) (bytes : List Byte) : (Memory.ofBytes bytes).read a = bytes[a]? := by
  rw [Memory.ofBytes, Memory.read_load]
  by_cases h : a < bytes.length
  · rw [if_pos ⟨Nat.zero_le a, h⟩, Nat.sub_zero]
  · rw [if_neg (by omega), List.getElem?_eq_none (by omega), Memory.read]

/-- A memory at which no key holds a value is empty. -/
theorem Memory.eq_nil_of_read_none {m : Memory} (h : ∀ k, m.read k = none) : m = [] := by
  cases m with
  | nil => rfl
  | cons c rest =>
    obtain ⟨k, b⟩ := c
    exact absurd (h k) (by simp [Memory.read])

theorem Memory.read_eq_none_of_wfFrom {m : Memory} {lo a : Nat} (h : Memory.wfFrom lo m = true) (ha : a < lo) :
    m.read a = none := by
  induction m generalizing lo with
  | nil => rfl
  | cons c rest ih =>
    obtain ⟨k, b⟩ := c
    simp only [Memory.wfFrom, Bool.and_eq_true, decide_eq_true_eq] at h
    have hk : k ≠ a := by omega
    simp [Memory.read, hk, ih h.2 (by omega)]

/-- Canonical memories that read alike are equal. -/
theorem Memory.ext_of_wfFrom {m m' : Memory} {lo lo' : Nat} (h : Memory.wfFrom lo m = true)
    (h' : Memory.wfFrom lo' m' = true) (hr : ∀ k, m.read k = m'.read k) : m = m' := by
  induction m generalizing m' lo lo' with
  | nil => exact (Memory.eq_nil_of_read_none (fun k => by rw [← hr k]; rfl)).symm
  | cons c rest ih =>
    obtain ⟨k, b⟩ := c
    cases m' with
    | nil => exact absurd (hr k) (by simp [Memory.read])
    | cons c' rest' =>
      obtain ⟨k', b'⟩ := c'
      simp only [Memory.wfFrom, Bool.and_eq_true, decide_eq_true_eq] at h h'
      have hk : k = k' := by
        rcases Nat.lt_trichotomy k k' with hlt | heq | hgt
        · have := hr k
          rw [Memory.read, if_pos rfl, Memory.read, if_neg (by omega),
            Memory.read_eq_none_of_wfFrom h'.2 (by omega)] at this
          cases this
        · exact heq
        · have := hr k'
          rw [Memory.read, if_neg (by omega), Memory.read_eq_none_of_wfFrom h.2 (by omega), Memory.read,
            if_pos rfl] at this
          cases this
      subst hk
      have hb : b = b' := by
        have := hr k
        simpa [Memory.read] using this
      subst hb
      have hrest : rest = rest' := by
        refine ih h.2 h'.2 (fun a => ?_)
        by_cases ha : k = a
        · rw [Memory.read_eq_none_of_wfFrom h.2 (by omega), Memory.read_eq_none_of_wfFrom h'.2 (by omega)]
        · have := hr a
          simpa [Memory.read, ha] using this
      rw [hrest]

end Sys2Proof.Machine
end

