-- ==== Sys2Proof/Laws/State.lean ====
section
/-! SUPPORT. One lemma per field and update of State, true by rfl. -/

namespace Sys2Proof.Machine

variable (s : State)

/-! enterFault -/

@[simp] theorem enterFault_cfg (c : FaultCode) (x : FaultInfo) : (enterFault s c x).cfg = s.cfg := rfl

@[simp] theorem enterFault_tab (c : FaultCode) (x : FaultInfo) : (enterFault s c x).tab = s.tab := rfl

@[simp] theorem enterFault_dictLen (c : FaultCode) (x : FaultInfo) : (enterFault s c x).dictLen = s.dictLen := rfl

@[simp] theorem enterFault_dict (c : FaultCode) (x : FaultInfo) : (enterFault s c x).dict = s.dict := rfl

@[simp] theorem enterFault_loaded (c : FaultCode) (x : FaultInfo) : (enterFault s c x).loaded = s.loaded := rfl

@[simp] theorem enterFault_bits (c : FaultCode) (x : FaultInfo) : (enterFault s c x).bits = s.bits := rfl

@[simp] theorem enterFault_clen (c : FaultCode) (x : FaultInfo) : (enterFault s c x).clen = s.clen := rfl

@[simp] theorem enterFault_i (c : FaultCode) (x : FaultInfo) : (enterFault s c x).i = s.i := rfl

@[simp] theorem enterFault_cur (c : FaultCode) (x : FaultInfo) : (enterFault s c x).cur = s.cur := rfl

@[simp] theorem enterFault_rem (c : FaultCode) (x : FaultInfo) : (enterFault s c x).rem = s.rem := rfl

@[simp] theorem enterFault_olen (c : FaultCode) (x : FaultInfo) : (enterFault s c x).olen = s.olen := rfl

@[simp] theorem enterFault_level (c : FaultCode) (x : FaultInfo) : (enterFault s c x).level = s.level := rfl

@[simp] theorem enterFault_byp (c : FaultCode) (x : FaultInfo) : (enterFault s c x).byp = s.byp := rfl

@[simp] theorem enterFault_eof (c : FaultCode) (x : FaultInfo) : (enterFault s c x).eof = s.eof := rfl

@[simp] theorem enterFault_fault (c : FaultCode) (x : FaultInfo) : (enterFault s c x).fault = true := rfl

@[simp] theorem enterFault_fcode (c : FaultCode) (x : FaultInfo) : (enterFault s c x).fcode = c := rfl

@[simp] theorem enterFault_finfo (c : FaultCode) (x : FaultInfo) : (enterFault s c x).finfo = x := rfl

@[simp] theorem enterFault_phase (c : FaultCode) (x : FaultInfo) : (enterFault s c x).phase = s.phase := rfl

@[simp] theorem enterFault_out (c : FaultCode) (x : FaultInfo) : (enterFault s c x).out = s.out := rfl

@[simp] theorem enterFault_yielded (c : FaultCode) (x : FaultInfo) : (enterFault s c x).yielded = s.yielded := rfl

@[simp] theorem enterFault_req (c : FaultCode) (x : FaultInfo) : (enterFault s c x).req = s.req := rfl

@[simp] theorem enterFault_view (c : FaultCode) (x : FaultInfo) : (enterFault s c x).view = s.view := rfl

@[simp] theorem enterFault_fresh (c : FaultCode) (x : FaultInfo) : (enterFault s c x).fresh = s.fresh := rfl

/-! hostReset -/

@[simp] theorem hostReset_cfg : (hostReset s).cfg = s.cfg := rfl

@[simp] theorem hostReset_tab : (hostReset s).tab = s.tab := rfl

@[simp] theorem hostReset_dictLen : (hostReset s).dictLen = s.dictLen := rfl

@[simp] theorem hostReset_dict : (hostReset s).dict = s.dict := rfl

@[simp] theorem hostReset_loaded : (hostReset s).loaded = s.loaded := rfl

@[simp] theorem hostReset_bits : (hostReset s).bits = s.bits := rfl

@[simp] theorem hostReset_clen : (hostReset s).clen = s.clen := rfl

@[simp] theorem hostReset_i : (hostReset s).i = 0 := rfl

@[simp] theorem hostReset_cur : (hostReset s).cur = 8 := rfl

@[simp] theorem hostReset_rem : (hostReset s).rem = 0 := rfl

@[simp] theorem hostReset_olen : (hostReset s).olen = 0 := rfl

@[simp] theorem hostReset_level : (hostReset s).level = Config.freeLevel s.fresh := rfl

@[simp] theorem hostReset_byp : (hostReset s).byp = Config.freeByp s.fresh := rfl

@[simp] theorem hostReset_eof : (hostReset s).eof = false := rfl

@[simp] theorem hostReset_fault : (hostReset s).fault = false := rfl

@[simp] theorem hostReset_fcode : (hostReset s).fcode = .noFault := rfl

@[simp] theorem hostReset_finfo : (hostReset s).finfo = .nothing := rfl

@[simp] theorem hostReset_phase : (hostReset s).phase = .idle := rfl

@[simp] theorem hostReset_out : (hostReset s).out = [] := rfl

@[simp] theorem hostReset_yielded : (hostReset s).yielded = s.yielded := rfl

@[simp] theorem hostReset_req : (hostReset s).req = s.req := rfl

@[simp] theorem hostReset_view : (hostReset s).view = s.view := rfl

@[simp] theorem hostReset_fresh : (hostReset s).fresh = s.fresh + 1 := rfl

/-! setYield -/

@[simp] theorem setYield_cfg (y : Yield) : (setYield s y).cfg = s.cfg := rfl

@[simp] theorem setYield_tab (y : Yield) : (setYield s y).tab = s.tab := rfl

@[simp] theorem setYield_dictLen (y : Yield) : (setYield s y).dictLen = s.dictLen := rfl

@[simp] theorem setYield_dict (y : Yield) : (setYield s y).dict = s.dict := rfl

@[simp] theorem setYield_loaded (y : Yield) : (setYield s y).loaded = s.loaded := rfl

@[simp] theorem setYield_bits (y : Yield) : (setYield s y).bits = s.bits := rfl

@[simp] theorem setYield_clen (y : Yield) : (setYield s y).clen = s.clen := rfl

@[simp] theorem setYield_i (y : Yield) : (setYield s y).i = s.i := rfl

@[simp] theorem setYield_cur (y : Yield) : (setYield s y).cur = s.cur := rfl

@[simp] theorem setYield_rem (y : Yield) : (setYield s y).rem = s.rem := rfl

@[simp] theorem setYield_olen (y : Yield) : (setYield s y).olen = s.olen := rfl

@[simp] theorem setYield_level (y : Yield) : (setYield s y).level = s.level := rfl

@[simp] theorem setYield_byp (y : Yield) : (setYield s y).byp = s.byp := rfl

@[simp] theorem setYield_eof (y : Yield) : (setYield s y).eof = s.eof := rfl

@[simp] theorem setYield_fault (y : Yield) : (setYield s y).fault = s.fault := rfl

@[simp] theorem setYield_fcode (y : Yield) : (setYield s y).fcode = s.fcode := rfl

@[simp] theorem setYield_finfo (y : Yield) : (setYield s y).finfo = s.finfo := rfl

@[simp] theorem setYield_phase (y : Yield) : (setYield s y).phase = s.phase := rfl

@[simp] theorem setYield_out (y : Yield) : (setYield s y).out = s.out := rfl

@[simp] theorem setYield_yielded (y : Yield) : (setYield s y).yielded = y := rfl

@[simp] theorem setYield_req (y : Yield) : (setYield s y).req = s.req := rfl

@[simp] theorem setYield_view (y : Yield) : (setYield s y).view = s.view := rfl

@[simp] theorem setYield_fresh (y : Yield) : (setYield s y).fresh = s.fresh := rfl

/-! beginRun -/

@[simp] theorem beginRun_cfg (l : Byte) : (beginRun s l).cfg = s.cfg := rfl

@[simp] theorem beginRun_tab (l : Byte) : (beginRun s l).tab = s.tab := rfl

@[simp] theorem beginRun_dictLen (l : Byte) : (beginRun s l).dictLen = s.dictLen := rfl

@[simp] theorem beginRun_dict (l : Byte) : (beginRun s l).dict = s.dict := rfl

@[simp] theorem beginRun_loaded (l : Byte) : (beginRun s l).loaded = s.loaded := rfl

@[simp] theorem beginRun_bits (l : Byte) : (beginRun s l).bits = s.bits := rfl

@[simp] theorem beginRun_clen (l : Byte) : (beginRun s l).clen = s.clen := rfl

@[simp] theorem beginRun_i (l : Byte) : (beginRun s l).i = 0 := rfl

@[simp] theorem beginRun_cur (l : Byte) : (beginRun s l).cur = 8 := rfl

@[simp] theorem beginRun_rem (l : Byte) : (beginRun s l).rem = 0 := rfl

@[simp] theorem beginRun_olen (l : Byte) : (beginRun s l).olen = 0 := rfl

@[simp] theorem beginRun_level (l : Byte) : (beginRun s l).level = l := rfl

@[simp] theorem beginRun_byp (l : Byte) : (beginRun s l).byp = toFlag (opIsZero (ofByte l)) := rfl

@[simp] theorem beginRun_eof (l : Byte) : (beginRun s l).eof = toFlag (opIsZero (opSub s.clen 8)) := rfl

@[simp] theorem beginRun_fault (l : Byte) : (beginRun s l).fault = s.fault := rfl

@[simp] theorem beginRun_fcode (l : Byte) : (beginRun s l).fcode = s.fcode := rfl

@[simp] theorem beginRun_finfo (l : Byte) : (beginRun s l).finfo = s.finfo := rfl

@[simp] theorem beginRun_phase (l : Byte) : (beginRun s l).phase = if 0 < s.cfg.outMax then .run else .done := rfl

@[simp] theorem beginRun_out (l : Byte) : (beginRun s l).out = s.out := rfl

@[simp] theorem beginRun_yielded (l : Byte) : (beginRun s l).yielded = s.yielded := rfl

@[simp] theorem beginRun_req (l : Byte) : (beginRun s l).req = s.req := rfl

@[simp] theorem beginRun_view (l : Byte) : (beginRun s l).view = s.view := rfl

@[simp] theorem beginRun_fresh (l : Byte) : (beginRun s l).fresh = s.fresh := rfl

/-! clearOut -/

@[simp] theorem clearOut_cfg : (clearOut s).cfg = s.cfg := rfl

@[simp] theorem clearOut_tab : (clearOut s).tab = s.tab := rfl

@[simp] theorem clearOut_dictLen : (clearOut s).dictLen = s.dictLen := rfl

@[simp] theorem clearOut_dict : (clearOut s).dict = s.dict := rfl

@[simp] theorem clearOut_loaded : (clearOut s).loaded = s.loaded := rfl

@[simp] theorem clearOut_bits : (clearOut s).bits = s.bits := rfl

@[simp] theorem clearOut_clen : (clearOut s).clen = s.clen := rfl

@[simp] theorem clearOut_i : (clearOut s).i = s.i := rfl

@[simp] theorem clearOut_cur : (clearOut s).cur = s.cur := rfl

@[simp] theorem clearOut_rem : (clearOut s).rem = s.rem := rfl

@[simp] theorem clearOut_olen : (clearOut s).olen = s.olen := rfl

@[simp] theorem clearOut_level : (clearOut s).level = s.level := rfl

@[simp] theorem clearOut_byp : (clearOut s).byp = s.byp := rfl

@[simp] theorem clearOut_eof : (clearOut s).eof = s.eof := rfl

@[simp] theorem clearOut_fault : (clearOut s).fault = s.fault := rfl

@[simp] theorem clearOut_fcode : (clearOut s).fcode = s.fcode := rfl

@[simp] theorem clearOut_finfo : (clearOut s).finfo = s.finfo := rfl

@[simp] theorem clearOut_phase : (clearOut s).phase = s.phase := rfl

@[simp] theorem clearOut_out : (clearOut s).out = [] := rfl

@[simp] theorem clearOut_yielded : (clearOut s).yielded = s.yielded := rfl

@[simp] theorem clearOut_req : (clearOut s).req = s.req := rfl

@[simp] theorem clearOut_view : (clearOut s).view = s.view := rfl

@[simp] theorem clearOut_fresh : (clearOut s).fresh = s.fresh := rfl

/-! writeOut -/

@[simp] theorem writeOut_cfg (v : Byte) : (writeOut s v).cfg = s.cfg := rfl

@[simp] theorem writeOut_tab (v : Byte) : (writeOut s v).tab = s.tab := rfl

@[simp] theorem writeOut_dictLen (v : Byte) : (writeOut s v).dictLen = s.dictLen := rfl

@[simp] theorem writeOut_dict (v : Byte) : (writeOut s v).dict = s.dict := rfl

@[simp] theorem writeOut_loaded (v : Byte) : (writeOut s v).loaded = s.loaded := rfl

@[simp] theorem writeOut_bits (v : Byte) : (writeOut s v).bits = s.bits := rfl

@[simp] theorem writeOut_clen (v : Byte) : (writeOut s v).clen = s.clen := rfl

@[simp] theorem writeOut_i (v : Byte) : (writeOut s v).i = s.i := rfl

@[simp] theorem writeOut_cur (v : Byte) : (writeOut s v).cur = s.cur := rfl

@[simp] theorem writeOut_rem (v : Byte) : (writeOut s v).rem = s.rem := rfl

@[simp] theorem writeOut_olen (v : Byte) : (writeOut s v).olen = s.olen := rfl

@[simp] theorem writeOut_level (v : Byte) : (writeOut s v).level = s.level := rfl

@[simp] theorem writeOut_byp (v : Byte) : (writeOut s v).byp = s.byp := rfl

@[simp] theorem writeOut_eof (v : Byte) : (writeOut s v).eof = s.eof := rfl

@[simp] theorem writeOut_fault (v : Byte) : (writeOut s v).fault = s.fault := rfl

@[simp] theorem writeOut_fcode (v : Byte) : (writeOut s v).fcode = s.fcode := rfl

@[simp] theorem writeOut_finfo (v : Byte) : (writeOut s v).finfo = s.finfo := rfl

@[simp] theorem writeOut_phase (v : Byte) : (writeOut s v).phase = s.phase := rfl

@[simp] theorem writeOut_out (v : Byte) : (writeOut s v).out = s.out.write s.i v := rfl

@[simp] theorem writeOut_yielded (v : Byte) : (writeOut s v).yielded = s.yielded := rfl

@[simp] theorem writeOut_req (v : Byte) : (writeOut s v).req = s.req := rfl

@[simp] theorem writeOut_view (v : Byte) : (writeOut s v).view = s.view := rfl

@[simp] theorem writeOut_fresh (v : Byte) : (writeOut s v).fresh = s.fresh := rfl

/-! commitRegs -/

@[simp] theorem commitRegs_cfg (c e o r : Int) : (commitRegs s c e o r).cfg = s.cfg := rfl

@[simp] theorem commitRegs_tab (c e o r : Int) : (commitRegs s c e o r).tab = s.tab := rfl

@[simp] theorem commitRegs_dictLen (c e o r : Int) : (commitRegs s c e o r).dictLen = s.dictLen := rfl

@[simp] theorem commitRegs_dict (c e o r : Int) : (commitRegs s c e o r).dict = s.dict := rfl

@[simp] theorem commitRegs_loaded (c e o r : Int) : (commitRegs s c e o r).loaded = s.loaded := rfl

@[simp] theorem commitRegs_bits (c e o r : Int) : (commitRegs s c e o r).bits = s.bits := rfl

@[simp] theorem commitRegs_clen (c e o r : Int) : (commitRegs s c e o r).clen = s.clen := rfl

@[simp] theorem commitRegs_i (c e o r : Int) : (commitRegs s c e o r).i = s.i + 1 := rfl

@[simp] theorem commitRegs_cur (c e o r : Int) : (commitRegs s c e o r).cur = c.toNat := rfl

@[simp] theorem commitRegs_rem (c e o r : Int) : (commitRegs s c e o r).rem = r.toNat := rfl

@[simp] theorem commitRegs_olen (c e o r : Int) : (commitRegs s c e o r).olen = o.toNat := rfl

@[simp] theorem commitRegs_level (c e o r : Int) : (commitRegs s c e o r).level = s.level := rfl

@[simp] theorem commitRegs_byp (c e o r : Int) : (commitRegs s c e o r).byp = s.byp := rfl

@[simp] theorem commitRegs_eof (c e o r : Int) : (commitRegs s c e o r).eof = toFlag e := rfl

@[simp] theorem commitRegs_fault (c e o r : Int) : (commitRegs s c e o r).fault = s.fault := rfl

@[simp] theorem commitRegs_fcode (c e o r : Int) : (commitRegs s c e o r).fcode = s.fcode := rfl

@[simp] theorem commitRegs_finfo (c e o r : Int) : (commitRegs s c e o r).finfo = s.finfo := rfl

@[simp] theorem commitRegs_phase (c e o r : Int) : (commitRegs s c e o r).phase = if s.i + 1 = s.cfg.outMax then .done else s.phase := rfl

@[simp] theorem commitRegs_out (c e o r : Int) : (commitRegs s c e o r).out = s.out := rfl

@[simp] theorem commitRegs_yielded (c e o r : Int) : (commitRegs s c e o r).yielded = s.yielded := rfl

@[simp] theorem commitRegs_req (c e o r : Int) : (commitRegs s c e o r).req = s.req := rfl

@[simp] theorem commitRegs_view (c e o r : Int) : (commitRegs s c e o r).view = s.view := rfl

@[simp] theorem commitRegs_fresh (c e o r : Int) : (commitRegs s c e o r).fresh = s.fresh := rfl

/-! takeFault: the fields a fault does not write (R227). -/

@[simp] theorem takeFault_cfg (c : FaultCode) (x : FaultInfo) : (takeFault s c x).cfg = s.cfg := by
  unfold takeFault; split <;> rfl

@[simp] theorem takeFault_tab (c : FaultCode) (x : FaultInfo) : (takeFault s c x).tab = s.tab := by
  unfold takeFault; split <;> rfl

@[simp] theorem takeFault_dictLen (c : FaultCode) (x : FaultInfo) : (takeFault s c x).dictLen = s.dictLen := by
  unfold takeFault; split <;> rfl

@[simp] theorem takeFault_dict (c : FaultCode) (x : FaultInfo) : (takeFault s c x).dict = s.dict := by
  unfold takeFault; split <;> rfl

@[simp] theorem takeFault_loaded (c : FaultCode) (x : FaultInfo) : (takeFault s c x).loaded = s.loaded := by
  unfold takeFault; split <;> rfl

@[simp] theorem takeFault_bits (c : FaultCode) (x : FaultInfo) : (takeFault s c x).bits = s.bits := by
  unfold takeFault; split <;> rfl

@[simp] theorem takeFault_clen (c : FaultCode) (x : FaultInfo) : (takeFault s c x).clen = s.clen := by
  unfold takeFault; split <;> rfl

@[simp] theorem takeFault_i (c : FaultCode) (x : FaultInfo) : (takeFault s c x).i = s.i := by
  unfold takeFault; split <;> rfl

@[simp] theorem takeFault_cur (c : FaultCode) (x : FaultInfo) : (takeFault s c x).cur = s.cur := by
  unfold takeFault; split <;> rfl

@[simp] theorem takeFault_rem (c : FaultCode) (x : FaultInfo) : (takeFault s c x).rem = s.rem := by
  unfold takeFault; split <;> rfl

@[simp] theorem takeFault_olen (c : FaultCode) (x : FaultInfo) : (takeFault s c x).olen = s.olen := by
  unfold takeFault; split <;> rfl

@[simp] theorem takeFault_level (c : FaultCode) (x : FaultInfo) : (takeFault s c x).level = s.level := by
  unfold takeFault; split <;> rfl

@[simp] theorem takeFault_byp (c : FaultCode) (x : FaultInfo) : (takeFault s c x).byp = s.byp := by
  unfold takeFault; split <;> rfl

@[simp] theorem takeFault_eof (c : FaultCode) (x : FaultInfo) : (takeFault s c x).eof = s.eof := by
  unfold takeFault; split <;> rfl

@[simp] theorem takeFault_phase (c : FaultCode) (x : FaultInfo) : (takeFault s c x).phase = s.phase := by
  unfold takeFault; split <;> rfl

@[simp] theorem takeFault_out (c : FaultCode) (x : FaultInfo) : (takeFault s c x).out = s.out := by
  unfold takeFault; split <;> rfl

@[simp] theorem takeFault_yielded (c : FaultCode) (x : FaultInfo) : (takeFault s c x).yielded = s.yielded := by
  unfold takeFault; split <;> rfl

@[simp] theorem takeFault_req (c : FaultCode) (x : FaultInfo) : (takeFault s c x).req = s.req := by
  unfold takeFault; split <;> rfl

@[simp] theorem takeFault_view (c : FaultCode) (x : FaultInfo) : (takeFault s c x).view = s.view := by
  unfold takeFault; split <;> rfl

@[simp] theorem takeFault_fresh (c : FaultCode) (x : FaultInfo) : (takeFault s c x).fresh = s.fresh := by
  unfold takeFault; split <;> rfl

@[simp] theorem takeFault_fault (c : FaultCode) (x : FaultInfo) : (takeFault s c x).fault = true := by
  unfold takeFault; split <;> simp_all

theorem takeFault_of_noFault {s : State} (h : s.fault = false) (c : FaultCode) (x : FaultInfo) :
    takeFault s c x = { s with fault := true, fcode := c, finfo := x } := by
  simp [takeFault, h, enterFault]

theorem takeFault_of_fault {s : State} (h : s.fault = true) (c : FaultCode) (x : FaultInfo) : takeFault s c x = s := by
  simp [takeFault, h]

end Sys2Proof.Machine
end

