-- ==== Sys2Proof/Laws/Ops.lean ====
section
/-! SUPPORT. For each shared operation, once, everything it can do. -/

namespace Sys2Proof.Machine

/-- `andThen` answers next exactly through two next states. -/
theorem andThen_next {r : Result} {f : State → Result} {t : State} :
    andThen r f = .next t ↔ ∃ s, r = .next s ∧ f s = .next t := by
  cases r <;> simp [andThen]

@[simp] theorem andThen_of_next (s : State) (f : State → Result) : andThen (.next s) f = f s := rfl

/-- INSERT answers next only by writing entry I, which was unwritten (R57). -/
theorem insertOut_next {s t : State} {key : Int} {v : Byte} :
    insertOut s key v = .next t ↔
      key = s.i ∧ s.i < s.cfg.outMax ∧ s.out.read s.i = none ∧ t = writeOut s v := by
  unfold insertOut
  split
  · rename_i h
    simp only [Host.Outcome.next.injEq]
    exact ⟨fun e => ⟨h.1, h.2.1, h.2.2, e.symm⟩, fun e => e.2.2.2.symm⟩
  · rename_i h
    simp only [reduceCtorEq, false_iff]
    exact fun e => h ⟨e.1, e.2.1, e.2.2.1⟩

/-- A commit answers next only by writing entry I and then the registers (R191, R193 to R197). -/
theorem commit_next {s t : State} {b c e o r : Int} :
    commit s b c e o r = .next t ↔
      s.i < s.cfg.outMax ∧ s.out.read s.i = none ∧ t = commitRegs (writeOut s (toByte b)) c e o r := by
  unfold commit
  rw [andThen_next]
  constructor
  · rintro ⟨u, hu, ht⟩
    obtain ⟨-, h1, h2, rfl⟩ := insertOut_next.mp hu
    exact ⟨h1, h2, (by simpa using ht.symm)⟩
  · rintro ⟨h1, h2, rfl⟩
    exact ⟨writeOut s (toByte b), insertOut_next.mpr ⟨rfl, h1, h2, rfl⟩, rfl⟩

/-- A commit with room and entry I unwritten. -/
theorem commit_eq {s : State} (b c e o r : Int) (h1 : s.i < s.cfg.outMax) (h2 : s.out.read s.i = none) :
    commit s b c e o r = .next (commitRegs (writeOut s (toByte b)) c e o r) :=
  commit_next.mpr ⟨h1, h2, rfl⟩

/-- LOOKUP either yields what the key holds or takes LookupMiss (R116). -/
theorem yieldOrMiss_next {s t : State} {key : Int} {y : Option Yield} :
    yieldOrMiss s key y = .next t ↔
      (∃ v, y = some v ∧ t = setYield s v) ∨ (y = none ∧ t = takeFault s .lookupMiss (.miss s.i key)) := by
  cases y <;> simp [yieldOrMiss, eq_comm]

/-! C and DICT, loaded or not (R32, R33). -/

/-- n entries are n entries. -/
theorem fitBits_length (n k : Nat) (c : List Int) : (fitBits n k c).length = n := by
  induction n generalizing k c with
  | zero => rfl
  | succ n ih => cases c <;> simp [fitBits, ih]

/-- C has NBITS entries (R32). -/
@[simp] theorem State.bits_length (s : State) : s.bits.length = s.cfg.nbits := fitBits_length _ _ _

/-- Entry j of the n entries from k on: the one loaded, else a free bit. -/
theorem fitBits_get (n k j : Nat) (c : List Int) (h : j < n) :
    (fitBits n k c)[j]? = some (c.getD j (ofFlag (Config.freeBit (k + j)))) := by
  induction n generalizing k j c with
  | zero => omega
  | succ n ih =>
    cases c <;> cases j
    · simp [fitBits]
    · rename_i j; simp [fitBits, ih (k + 1) j [] (by omega), show k + 1 + j = k + (j + 1) by omega]
    · simp [fitBits]
    · rename_i b rest j; simp [fitBits, ih (k + 1) j rest (by omega), show k + 1 + j = k + (j + 1) by omega]

/-- Entry k of C: the one the host has loaded, else a free bit. -/
theorem State.bits_get (s : State) {k : Nat} (h : k < s.cfg.nbits) :
    s.bits[k]? = some (s.loaded.getD k (ofFlag (Config.freeBit k))) := by
  simpa [State.bits, State.nbits] using fitBits_get s.cfg.nbits 0 k s.loaded h

/-- A loaded byte of DICT. -/
theorem State.dictByte_of_read {s : State} {k : Nat} {b : Byte} (h : s.dict.read k = some b) : s.dictByte k = b := by
  simp [State.dictByte, h]

/-- A byte in DICT. -/
theorem dictRead_some {s : State} {key : Int} {b : Byte} :
    dictRead s key = some b ↔ 0 ≤ key ∧ key < s.dictLen ∧ s.dictByte key.toNat = b := by
  unfold dictRead
  split <;> rename_i h
  · exact ⟨fun e => ⟨h.1, h.2, Option.some.inj e⟩, fun e => congrArg some e.2.2⟩
  · simp only [reduceCtorEq, false_iff]
    exact fun e => h ⟨e.1, e.2.1⟩

/-- A byte in OUT. -/
theorem outRead_some {s : State} {key : Int} {b : Byte} :
    outRead s key = some b ↔ 0 ≤ key ∧ key < s.cfg.outMax ∧ s.out.read key.toNat = some b := by
  unfold outRead
  split <;> rename_i h
  · exact ⟨fun e => ⟨h.1, h.2, e⟩, fun e => e.2.2⟩
  · simp only [reduceCtorEq, false_iff]
    exact fun e => h ⟨e.1, e.2.1⟩

/-- A byte in SRC is a dictionary byte or a written output byte (R58, R59). -/
theorem srcRead_some {s : State} {key : Int} {b : Byte} :
    srcRead s key = some b ↔
      (key < s.dictLen ∧ dictRead s key = some b) ∨
        ((s.dictLen : Int) ≤ key ∧ key < s.dictLen + s.i ∧ outRead s (key - s.dictLen) = some b) := by
  unfold srcRead
  split <;> rename_i h
  · constructor
    · exact fun e => .inl ⟨h, e⟩
    · rintro (e | e)
      · exact e.2
      · omega
  · split <;> rename_i h2
    · simp only [opSub_eq, opAdd_eq] at h2 ⊢
      constructor
      · exact fun e => .inr ⟨by omega, h2, e⟩
      · rintro (e | e)
        · omega
        · exact e.2.2
    · simp only [opAdd_eq] at h2
      simp only [reduceCtorEq, false_iff]
      rintro (e | e) <;> omega

/-- The source lookup answers a byte only under none of R189's miss conditions. -/
theorem srcLookup_some {s : State} {isW isD key : Int} {b : Byte} :
    srcLookup s isW isD key = some b ↔
      0 ≤ key ∧ key < s.dictLen + s.i ∧ (isW = 1 → (s.dictLen : Int) ≤ key) ∧ (isD = 1 → key < s.dictLen) ∧
        srcRead s key = some b := by
  unfold srcLookup
  split <;> rename_i h <;> simp only [opAdd_eq] at h
  · simp only [reduceCtorEq, false_iff]
    rintro ⟨h1, h2, h3, h4, -⟩
    rcases h with h | h | h | h
    · omega
    · omega
    · have := h3 h.1; omega
    · have := h4 h.1; omega
  · push Not at h
    exact ⟨fun e => ⟨h.1, h.2.1, h.2.2.1, h.2.2.2, e⟩, fun e => e.2.2.2.2⟩

/-- Everything an iteration's pass can do: a table or source lookup misses, or the byte is committed. -/
theorem iterate_next {s t : State} :
    iterate s = .next t ↔
      (∃ key, fieldsAt s = .error key ∧ t = takeFault s .lookupMiss (.miss s.i key)) ∨
      (∃ f, fieldsAt s = .ok f ∧
        ((srcLookup s (wires s f).isW (wires s f).isD (wires s f).key = none ∧
            t = takeFault s .lookupMiss (.miss s.i (wires s f).key)) ∨
          (∃ v, srcLookup s (wires s f).isW (wires s f).isD (wires s f).key = some v ∧
            s.i < s.cfg.outMax ∧ s.out.read s.i = none ∧
            t = commitRegs
              (writeOut s (toByte (byteMux (wires s f).copying (ofByte v) (wires s f).live f.s)))
              (wires s f).curNext (eofNext s.eof (wires s f).hit) (olenNext s.olen (wires s f).live)
              (remNext (wires s f).n (wires s f).copying)))) := by
  unfold iterate
  cases hf : fieldsAt s with
  | error k => simp [eq_comm]
  | ok f =>
    simp only [reduceCtorEq, false_and, exists_false, Except.ok.injEq, false_or, exists_eq_left']
    cases hv : srcLookup s (wires s f).isW (wires s f).isD (wires s f).key with
    | none => simp [eq_comm]
    | some v => simp [commit_next]

/-- The start step answers next in three ways (R242). -/
theorem execStart_next {s t : State} :
    execStart s = .next t ↔
      s.headerReady = true ∧
        ((∃ c, configCheck s = some c ∧ t = takeFault s .configInvalid (.config c)) ∨
          (configCheck s = none ∧
            ((∃ v, firstNonBoolean s.bits = some v ∧ t = takeFault s .assertFail (.assertBool v)) ∨
              (firstNonBoolean s.bits = none ∧ t = beginRun s (toByte (s.win 0 8)))))) := by
  unfold execStart
  split
  · rename_i h
    cases hc : configCheck s with
    | some c => simp [h, eq_comm]
    | none =>
      cases hb : firstNonBoolean s.bits with
      | some v => simp [h, eq_comm]
      | none => simp [h, eq_comm]
  · rename_i h
    simp [h]

/-- A record appends one byte at I. -/
theorem emit_next {s t : State} {b : Byte} {adv r : Nat} :
    emit s b adv r = .next t ↔
      s.i < s.cfg.outMax ∧ s.out.read s.i = none ∧
        t = { s with
              out := s.out.write s.i b, cur := s.cur + adv, eof := decide (s.cur + adv = s.clen)
              olen := s.olen + 1, rem := r, i := s.i + 1
              phase := if s.i + 1 = s.cfg.outMax then .done else s.phase } := by
  unfold emit
  rw [commit_next]
  simp only [toByte_ofByte, commitRegs, writeOut, toFlag_ofFlag, Int.toNat_natCast]

/-- A copy with bytes to go: it ends, misses, or appends one byte and goes on. -/
theorem copyLoop_succ_next {isW isD : Int} {key : State → Nat → Int} {len n : Nat} {s t : State} :
    copyLoop isW isD key len (n + 1) s = .next t ↔
      (s.enabled = false ∧ t = s) ∨
      (s.enabled = true ∧ srcLookup s isW isD (key s (n + 1)) = none ∧
        t = takeFault s .lookupMiss (.miss s.i (key s (n + 1)))) ∨
      (s.enabled = true ∧ ∃ b u, srcLookup s isW isD (key s (n + 1)) = some b ∧
        emit s b (if n = 0 then len else 0) n = .next u ∧ copyLoop isW isD key len n u = .next t) := by
  rw [copyLoop]
  cases he : s.enabled with
  | false => simp [eq_comm]
  | true =>
    simp only [if_true]
    cases hv : srcLookup s isW isD (key s (n + 1)) with
    | none => simp [eq_comm]
    | some b => simp [andThen_next]

end Sys2Proof.Machine
end

