-- ==== Sys2Proof/Laws/PrefixCode.lean ====
section
/-! SUPPORT. Laws of the canonical prefix code (R132): the codes of a table, in order, fill consecutive intervals of the
key space, so that a complete table's codes tile 0..2^W - 1 (R136, R141). -/

namespace Sys2Proof.Machine

/-- The first key of a code in a table of width w (R136). -/
def CodeEntry.first (w : Nat) (e : CodeEntry) : Nat := e.code * 2 ^ (w - e.len)

/-- The key after the last key of a code in a table of width w (R136). -/
def CodeEntry.beyond (w : Nat) (e : CodeEntry) : Nat := (e.code + 1) * 2 ^ (w - e.len)

theorem CodeEntry.covers_iff {e : CodeEntry} {w : Nat} {k : Int} :
    e.covers w k = true ↔ (e.first w : Int) ≤ k ∧ k < (e.beyond w : Int) := by
  simp only [CodeEntry.covers, CodeEntry.first, CodeEntry.beyond, Bool.and_eq_true, decide_eq_true_eq]

theorem CodeEntry.beyond_eq (w : Nat) (e : CodeEntry) : e.beyond w = e.first w + 2 ^ (w - e.len) := by
  simp [CodeEntry.beyond, CodeEntry.first, Nat.add_mul]

/-- Lengths that rise from lp on, none above w. -/
def Ascending (w : Nat) : Nat → Lengths → Prop
  | _, [] => True
  | lp, (_, l) :: rest => lp ≤ l ∧ l ≤ w ∧ Ascending w l rest

/-- A list of codes that fills the keys from a to b without gap or overlap. -/
def Tiles (w : Nat) : Nat → List CodeEntry → Nat → Prop
  | a, [], b => a = b
  | a, e :: rest, b => e.first w = a ∧ e.len ≤ w ∧ Tiles w (e.beyond w) rest b

theorem pow_split {w l lp : Nat} (h1 : lp ≤ l) (h2 : l ≤ w) : 2 ^ (l - lp) * 2 ^ (w - l) = 2 ^ (w - lp) := by
  rw [← pow_add]; congr 1; omega

theorem assignFrom_tiles {w c lp : Nat} {t : Lengths} (h : Ascending w lp t) :
    Tiles w ((c + 1) * 2 ^ (w - lp)) (assignFrom c lp t) ((c + 1) * 2 ^ (w - lp) + kraftSum w t) := by
  induction t generalizing c lp with
  | nil => simp [assignFrom, Tiles, kraftSum]
  | cons x rest ih =>
    obtain ⟨s, l⟩ := x
    obtain ⟨h1, h2, h3⟩ := h
    have hf : ((c + 1) * 2 ^ (l - lp)) * 2 ^ (w - l) = (c + 1) * 2 ^ (w - lp) := by
      rw [mul_assoc, pow_split h1 h2]
    refine ⟨hf, h2, ?_⟩
    have := ih (c := (c + 1) * 2 ^ (l - lp)) h3
    simp only [CodeEntry.beyond]
    convert this using 1
    rw [kraftSum, add_mul ((c + 1) * 2 ^ (l - lp)), hf]
    ring

/-- R132: the canonical codes of a sorted list tile the keys from 0 on. -/
theorem assign_tiles {w : Nat} {t : Lengths} (h : Ascending w 0 t) : Tiles w 0 (assign t) (kraftSum w t) := by
  cases t with
  | nil => simp [assign, Tiles, kraftSum]
  | cons x rest =>
    obtain ⟨s, l⟩ := x
    obtain ⟨-, h2, h3⟩ := h
    refine ⟨by simp [CodeEntry.first], h2, ?_⟩
    have := assignFrom_tiles (c := 0) h3
    simpa [CodeEntry.beyond, kraftSum] using this

theorem Tiles.le {w a b : Nat} {l : List CodeEntry} (h : Tiles w a l b) : a ≤ b := by
  induction l generalizing a with
  | nil => exact le_of_eq h
  | cons e rest ih =>
    obtain ⟨h1, -, h3⟩ := h
    have := ih h3
    have hp := e.beyond_eq w
    have h0 : 0 < 2 ^ (w - e.len) := Nat.two_pow_pos _
    omega

/-- Every code of a tiling lies between its ends. -/
theorem Tiles.bounds {w a b : Nat} {l : List CodeEntry} (h : Tiles w a l b) {e : CodeEntry} (he : e ∈ l) :
    a ≤ e.first w ∧ e.beyond w ≤ b ∧ e.len ≤ w := by
  induction l generalizing a with
  | nil => cases he
  | cons x rest ih =>
    obtain ⟨h1, h2, h3⟩ := h
    rcases List.mem_cons.mp he with rfl | he
    · exact ⟨le_of_eq h1.symm, h3.le, h2⟩
    · have := ih h3 he
      have hx := x.beyond_eq w
      have hp : 0 < 2 ^ (w - x.len) := Nat.two_pow_pos _
      exact ⟨by omega, this.2.1, this.2.2⟩

/-- A key between the ends of a tiling is covered. -/
theorem Tiles.exists {w a b : Nat} {l : List CodeEntry} (h : Tiles w a l b) {k : Int} (h0 : (a : Int) ≤ k)
    (h1 : k < b) : ∃ e ∈ l, e.covers w k = true := by
  induction l generalizing a with
  | nil => have : a = b := h; omega
  | cons x rest ih =>
    obtain ⟨hx1, -, hx3⟩ := h
    by_cases hk : k < (x.beyond w : Int)
    · exact ⟨x, List.mem_cons_self .., CodeEntry.covers_iff.mpr ⟨by omega, hk⟩⟩
    · obtain ⟨e, he, hc⟩ := ih hx3 (by omega)
      exact ⟨e, List.mem_cons_of_mem _ he, hc⟩

/-- No key is covered by two codes of a tiling. -/
theorem Tiles.unique {w a b : Nat} {l : List CodeEntry} (h : Tiles w a l b) {k : Int} {e e' : CodeEntry} (he : e ∈ l)
    (he' : e' ∈ l) (hc : e.covers w k = true) (hc' : e'.covers w k = true) : e = e' := by
  rw [CodeEntry.covers_iff] at hc hc'
  induction l generalizing a with
  | nil => cases he
  | cons x rest ih =>
    obtain ⟨hx1, -, hx3⟩ := h
    rcases List.mem_cons.mp he with h1 | h1 <;> rcases List.mem_cons.mp he' with h2 | h2
    · rw [h1, h2]
    · have := (hx3.bounds h2).1
      rw [h1] at hc
      omega
    · have := (hx3.bounds h1).1
      rw [h2] at hc'
      omega
    · exact ih hx3 h1 h2

/-- The lookup's answer is the one covering code. -/
theorem Tiles.find {w a b : Nat} {l : List CodeEntry} (h : Tiles w a l b) {k : Int} {e : CodeEntry} (he : e ∈ l)
    (hc : e.covers w k = true) : l.find? (fun e => e.covers w k) = some e := by
  cases hf : l.find? (fun e => e.covers w k) with
  | none =>
    rw [List.find?_eq_none] at hf
    exact absurd hc (by simpa using hf e he)
  | some x =>
    have hx : x.covers w k = true := by simpa using List.find?_some (p := fun e => CodeEntry.covers e w k) hf
    rw [h.unique (List.mem_of_find?_eq_some hf) he hx hc]

/-! The sorted list of a table. -/

theorem le_maxLen {t : Lengths} {x : Nat × Nat} (h : x ∈ t) : x.2 ≤ maxLen t := by
  induction t with
  | nil => cases h
  | cons y rest ih =>
    obtain ⟨k, l⟩ := y
    simp only [maxLen]
    rcases List.mem_cons.mp h with rfl | h
    · exact le_max_left ..
    · exact le_trans (ih h) (le_max_right ..)

theorem mem_ordered {t : Lengths} {x : Nat × Nat} (h : x ∈ ordered t) : x ∈ t ∧ 1 ≤ x.2 := by
  simp only [ordered, List.mem_flatMap, List.mem_range, List.mem_filter, beq_iff_eq] at h
  obtain ⟨l, -, hx, hl⟩ := h
  exact ⟨hx, by omega⟩

theorem mem_ordered_of_mem {t : Lengths} {x : Nat × Nat} (h : x ∈ t) (hl : 1 ≤ x.2) : x ∈ ordered t := by
  simp only [ordered, List.mem_flatMap, List.mem_range, List.mem_filter, beq_iff_eq]
  exact ⟨x.2 - 1, by have := le_maxLen h; omega, h, by omega⟩

/-- A list all of whose lengths are l rises, and goes on with what rises from l. -/
theorem Ascending.append {w lp l : Nat} {s t : Lengths} (hs : ∀ x ∈ s, x.2 = l) (hlp : lp ≤ l) (hlw : l ≤ w)
    (ht : ∀ lp', lp' ≤ l → Ascending w lp' t) : Ascending w lp (s ++ t) := by
  induction s generalizing lp with
  | nil => exact ht lp hlp
  | cons x rest ih =>
    obtain ⟨k, m⟩ := x
    have hm : m = l := hs (k, m) (List.mem_cons_self ..)
    subst hm
    exact ⟨hlp, hlw, ih (fun x hx => hs x (List.mem_cons_of_mem _ hx)) (le_refl _)⟩

theorem ascending_levels {w : Nat} (t : Lengths) (a n lp : Nat) (h : lp ≤ a + 1) (hn : a + n ≤ w) :
    Ascending w lp ((List.range' a n).flatMap (fun l => t.filter (fun e => e.2 == l + 1))) := by
  induction n generalizing a lp with
  | zero => simp [Ascending]
  | succ n ih =>
    rw [List.range'_succ, List.flatMap_cons]
    refine Ascending.append (l := a + 1) (fun x hx => ?_) h (by omega) (fun lp' hlp' => ih (a + 1) lp' (by omega) (by omega))
    simpa using (List.mem_filter.mp hx).2

theorem ordered_ascending {t : Lengths} {w : Nat} (h : maxLen t ≤ w) : Ascending w 0 (ordered t) := by
  rw [ordered, List.range_eq_range']
  exact ascending_levels t 0 (maxLen t) 0 (by omega) (by omega)

theorem kraftSum_append (w : Nat) (s t : Lengths) : kraftSum w (s ++ t) = kraftSum w s + kraftSum w t := by
  induction s with
  | nil => simp [kraftSum]
  | cons x rest ih => obtain ⟨k, l⟩ := x; simp [kraftSum, ih, Nat.add_assoc]

theorem kraftSum_levels_cons (w : Nat) (x : Nat × Nat) (t : Lengths) (a n : Nat) :
    kraftSum w ((List.range' a n).flatMap (fun l => (x :: t).filter (fun e => e.2 == l + 1))) =
      (if a + 1 ≤ x.2 ∧ x.2 ≤ a + n then 2 ^ (w - x.2) else 0) +
        kraftSum w ((List.range' a n).flatMap (fun l => t.filter (fun e => e.2 == l + 1))) := by
  induction n generalizing a with
  | zero =>
    have : ¬ (a + 1 ≤ x.2 ∧ x.2 ≤ a + 0) := by omega
    rw [if_neg this]
    simp [kraftSum]
  | succ n ih =>
    rw [List.range'_succ, List.flatMap_cons, List.flatMap_cons, kraftSum_append, kraftSum_append, ih,
      List.filter_cons]
    by_cases hx : x.2 = a + 1
    · have h1 : ¬ (a + 1 + 1 ≤ x.2 ∧ x.2 ≤ a + 1 + n) := by omega
      have h2 : a + 1 ≤ x.2 ∧ x.2 ≤ a + (n + 1) := by omega
      obtain ⟨k, l⟩ := x
      simp only at hx
      subst hx
      simp only [beq_self_eq_true, if_true, kraftSum, if_pos h2, if_neg h1]
      omega
    · by_cases h2 : a + 1 ≤ x.2 ∧ x.2 ≤ a + (n + 1)
      · have h1 : a + 1 + 1 ≤ x.2 ∧ x.2 ≤ a + 1 + n := by omega
        have h3 : (x.2 == a + 1) = false := by simpa using hx
        simp only [h3, Bool.false_eq_true, if_false, if_pos h1, if_pos h2]
        omega
      · have h1 : ¬ (a + 1 + 1 ≤ x.2 ∧ x.2 ≤ a + 1 + n) := by omega
        have h3 : (x.2 == a + 1) = false := by simpa using hx
        simp only [h3, Bool.false_eq_true, if_false, if_neg h1, if_neg h2]
        omega

theorem kraftSum_levels (w n : Nat) (t : Lengths) (h : ∀ x ∈ t, 1 ≤ x.2 ∧ x.2 ≤ n) :
    kraftSum w ((List.range' 0 n).flatMap (fun l => t.filter (fun e => e.2 == l + 1))) = kraftSum w t := by
  induction t with
  | nil =>
    have : (List.range' 0 n).flatMap (fun l => ([] : Lengths).filter (fun e => e.2 == l + 1)) = [] := by simp
    rw [this, kraftSum]
  | cons x rest ih =>
    obtain ⟨h1, h2⟩ := h x (List.mem_cons_self ..)
    have h3 : 0 + 1 ≤ x.2 ∧ x.2 ≤ 0 + n := by omega
    rw [kraftSum_levels_cons, ih fun y hy => h y (List.mem_cons_of_mem _ hy), if_pos h3]
    obtain ⟨k, l⟩ := x
    simp [kraftSum]

/-- Sorting does not change the Kraft sum. -/
theorem kraftSum_ordered (w : Nat) {t : Lengths} (h : ∀ x ∈ t, 1 ≤ x.2) : kraftSum w (ordered t) = kraftSum w t := by
  rw [ordered, List.range_eq_range']
  exact kraftSum_levels w (maxLen t) t fun x hx => ⟨h x hx, le_maxLen hx⟩

/-! The canonical form of a table. -/

theorem shapedFrom_mem {n lo : Nat} {t : Lengths} (h : shapedFrom n lo t = true) {x : Nat × Nat} (hx : x ∈ t) :
    lo ≤ x.1 ∧ x.1 < n ∧ 1 ≤ x.2 := by
  induction t generalizing lo with
  | nil => cases hx
  | cons y rest ih =>
    obtain ⟨k, l⟩ := y
    simp only [shapedFrom, Bool.and_eq_true, decide_eq_true_eq] at h
    rcases List.mem_cons.mp hx with rfl | hx
    · exact ⟨h.1.1.1, h.1.1.2, h.1.2⟩
    · have := ih h.2 hx
      exact ⟨by omega, this.2⟩

/-- A listed symbol is in the alphabet and used. -/
theorem shaped_mem {n : Nat} {t : Lengths} (h : shaped n t = true) {x : Nat × Nat} (hx : x ∈ t) : x.1 < n ∧ 1 ≤ x.2 :=
  (shapedFrom_mem h hx).2

theorem codeLen_of_mem_from {n lo : Nat} {t : Lengths} (h : shapedFrom n lo t = true) {s l : Nat} (hx : (s, l) ∈ t) :
    codeLen t s = l := by
  induction t generalizing lo with
  | nil => cases hx
  | cons y rest ih =>
    obtain ⟨k, m⟩ := y
    simp only [shapedFrom, Bool.and_eq_true, decide_eq_true_eq] at h
    rw [codeLen]
    rcases List.mem_cons.mp hx with he | hx
    · cases he; simp
    · have := shapedFrom_mem h.2 hx
      rw [if_neg (by simp only at this; omega), ih h.2 hx]

/-- The length listed for a symbol is its code length. -/
theorem codeLen_of_mem {n : Nat} {t : Lengths} (h : shaped n t = true) {s l : Nat} (hx : (s, l) ∈ t) :
    codeLen t s = l := codeLen_of_mem_from h hx

/-- A used symbol is listed. -/
theorem mem_of_codeLen {t : Lengths} {s : Nat} (h : 0 < codeLen t s) : (s, codeLen t s) ∈ t := by
  induction t with
  | nil => simp [codeLen] at h
  | cons y rest ih =>
    obtain ⟨k, m⟩ := y
    rw [codeLen] at h ⊢
    split
    · rename_i hk; subst hk; exact List.mem_cons_self ..
    · rename_i hk
      rw [if_neg hk] at h
      exact List.mem_cons_of_mem _ (ih h)

/-! The codes of a table. -/

theorem mem_assignFrom {c lp : Nat} {t : Lengths} {e : CodeEntry} (h : e ∈ assignFrom c lp t) : (e.sym, e.len) ∈ t := by
  induction t generalizing c lp with
  | nil => cases h
  | cons x rest ih =>
    obtain ⟨s, l⟩ := x
    rcases List.mem_cons.mp h with rfl | h
    · exact List.mem_cons_self ..
    · exact List.mem_cons_of_mem _ (ih h)

theorem exists_assignFrom {c lp : Nat} {t : Lengths} {x : Nat × Nat} (h : x ∈ t) :
    ∃ e ∈ assignFrom c lp t, e.sym = x.1 ∧ e.len = x.2 := by
  induction t generalizing c lp with
  | nil => cases h
  | cons y rest ih =>
    obtain ⟨s, l⟩ := y
    rcases List.mem_cons.mp h with rfl | h
    · exact ⟨_, List.mem_cons_self .., rfl, rfl⟩
    · obtain ⟨e, he, h1⟩ := ih (c := (c + 1) * 2 ^ (l - lp)) (lp := l) h
      exact ⟨e, List.mem_cons_of_mem _ he, h1⟩

theorem mem_assign {t : Lengths} {e : CodeEntry} (h : e ∈ assign t) : (e.sym, e.len) ∈ t := by
  cases t with
  | nil => cases h
  | cons x rest =>
    obtain ⟨s, l⟩ := x
    rcases List.mem_cons.mp h with rfl | h
    · exact List.mem_cons_self ..
    · exact List.mem_cons_of_mem _ (mem_assignFrom h)

/-- A code of a table belongs to a used symbol of it. -/
theorem mem_codes {n : Nat} {t : Lengths} (h : shaped n t = true) {e : CodeEntry} (he : e ∈ codes t) :
    e.sym < n ∧ 1 ≤ e.len ∧ e.len ≤ maxLen t ∧ codeLen t e.sym = e.len := by
  have hm := (mem_ordered (mem_assign he)).1
  exact ⟨(shaped_mem h hm).1, (shaped_mem h hm).2, le_maxLen hm, codeLen_of_mem h hm⟩

/-- Every used symbol has a code. -/
theorem exists_code {t : Lengths} {s : Nat} (h : 0 < codeLen t s) :
    ∃ e ∈ codes t, e.sym = s ∧ e.len = codeLen t s := by
  have hm := mem_ordered_of_mem (mem_of_codeLen h) h
  rw [codes]
  cases ho : ordered t with
  | nil => rw [ho] at hm; cases hm
  | cons x rest =>
    obtain ⟨s', l'⟩ := x
    rw [ho] at hm
    rcases List.mem_cons.mp hm with he | hm
    · cases he
      exact ⟨_, List.mem_cons_self .., rfl, rfl⟩
    · obtain ⟨e, he, h1, h2⟩ := exists_assignFrom (c := 0) (lp := l') hm
      exact ⟨e, List.mem_cons_of_mem _ he, h1, h2⟩

/-- The codes of a table tile the keys 0 .. Kraft sum. -/
theorem codes_tiles {n : Nat} {t : Lengths} (h : shaped n t = true) :
    Tiles (maxLen t) 0 (codes t) (kraftSum (maxLen t) t) := by
  have := assign_tiles (ordered_ascending (le_refl (maxLen t)))
  rwa [kraftSum_ordered _ (fun x hx => (shaped_mem h hx).2)] at this

/-- The codes of a complete table tile 0..2^W (R131, R132). -/
theorem codes_tile_all {n : Nat} {t : Lengths} (h : CompleteTable n t) :
    Tiles (maxLen t) 0 (codes t) (2 ^ maxLen t) := by
  have := codes_tiles h.1
  rwa [show kraftSum (maxLen t) t = 2 ^ maxLen t from by simpa [complete] using h.2] at this

/-- A code fits its length (R132). -/
theorem code_lt {n : Nat} {t : Lengths} (h : CompleteTable n t) {e : CodeEntry} (he : e ∈ codes t) :
    e.code < 2 ^ e.len := by
  have hb := (codes_tile_all h).bounds he
  have hp : 2 ^ maxLen t = 2 ^ e.len * 2 ^ (maxLen t - e.len) := by
    rw [← pow_add]; congr 1; omega
  have h2 := hb.2.1
  rw [hp, CodeEntry.beyond] at h2
  have := Nat.le_of_mul_le_mul_right h2 (Nat.two_pow_pos _)
  omega

/-- The table's answer at a key that a code covers. -/
theorem lutAt_of_covers {n : Nat} {t : Lengths} (h : shaped n t = true) {e : CodeEntry} (he : e ∈ codes t) {k : Int}
    (hc : e.covers (maxLen t) k = true) : lutAt t (maxLen t) k = some (e.sym, e.len) := by
  rw [lutAt, (codes_tiles h).find he hc]

/-- A table's answer is a used symbol with its code length, whose code covers the key. -/
theorem lutAt_some {t : Lengths} {w : Nat} {k : Int} {s l : Nat} (h : lutAt t w k = some (s, l)) :
    ∃ e ∈ codes t, e.sym = s ∧ e.len = l ∧ e.covers w k = true := by
  unfold lutAt at h
  split at h
  · rename_i e he
    cases h
    exact ⟨e, List.mem_of_find?_eq_some he, rfl, rfl, by simpa using List.find?_some he⟩
  · cases h

/-- A complete table has an entry at every key (R141). -/
theorem exists_lutAt {n : Nat} {t : Lengths} (h : CompleteTable n t) {k : Int} (h0 : 0 ≤ k) (h1 : k < 2 ^ maxLen t) :
    ∃ e ∈ codes t, lutAt t (maxLen t) k = some (e.sym, e.len) ∧ e.covers (maxLen t) k = true := by
  obtain ⟨e, he, hc⟩ := (codes_tile_all h).exists (k := k) (by simpa using h0) (by push_cast; exact h1)
  exact ⟨e, he, lutAt_of_covers h.1 he hc, hc⟩

/-- A symbol has one code. -/
theorem code_unique {n : Nat} {t : Lengths} (h : shaped n t = true) {e e' : CodeEntry} (he : e ∈ codes t)
    (he' : e' ∈ codes t) (hs : e.sym = e'.sym) : e = e' := by
  have key : ∀ (l : List CodeEntry), (l.map CodeEntry.sym).Nodup → e ∈ l → e' ∈ l → e = e' := by
    intro l hn h1 h2
    exact List.inj_on_of_nodup_map hn h1 h2 hs
  refine key (codes t) ?_ he he'
  have hmapF : ∀ (c lp : Nat) (l : Lengths), (assignFrom c lp l).map CodeEntry.sym = l.map Prod.fst := by
    intro c lp l
    induction l generalizing c lp with
    | nil => rfl
    | cons x rest ih => obtain ⟨s, m⟩ := x; simp [assignFrom, ih]
  have hmap : (codes t).map CodeEntry.sym = (ordered t).map Prod.fst := by
    rw [codes]
    cases ordered t with
    | nil => rfl
    | cons x rest => obtain ⟨s, m⟩ := x; simp [assign, hmapF]
  rw [hmap]
  have hnd : (t.map Prod.fst).Nodup := by
    have : ∀ (lo : Nat) (l : Lengths), shapedFrom n lo l = true → (l.map Prod.fst).Nodup := by
      intro lo l
      induction l generalizing lo with
      | nil => simp
      | cons x rest ih =>
        obtain ⟨s, m⟩ := x
        intro hl
        simp only [shapedFrom, Bool.and_eq_true, decide_eq_true_eq] at hl
        simp only [List.map_cons, List.nodup_cons]
        refine ⟨?_, ih _ hl.2⟩
        intro hmem
        obtain ⟨y, hy, hys⟩ := List.mem_map.mp hmem
        have := shapedFrom_mem hl.2 hy
        omega
    exact this 0 t h
  have hlev : ∀ (a m : Nat),
      (((List.range' a m).flatMap (fun l => t.filter (fun e => e.2 == l + 1))).map Prod.fst).Nodup := by
    intro a m
    induction m generalizing a with
    | zero => simp
    | succ m ih =>
      rw [List.range'_succ, List.flatMap_cons, List.map_append, List.nodup_append]
      refine ⟨?_, ih (a + 1), ?_⟩
      · exact List.Nodup.sublist (List.Sublist.map _ List.filter_sublist) hnd
      · intro x hx y hy hxy
        obtain ⟨u, hu, rfl⟩ := List.mem_map.mp hx
        obtain ⟨v, hv, rfl⟩ := List.mem_map.mp hy
        rw [List.mem_filter] at hu
        simp only [List.mem_flatMap, List.mem_range'_1, List.mem_filter, beq_iff_eq] at hv hu
        obtain ⟨l, hl, hv1, hv2⟩ := hv
        have := List.inj_on_of_nodup_map hnd hu.1 hv1 hxy
        rw [this] at hu
        omega
  rw [ordered, List.range_eq_range']
  exact hlev 0 _

/-- The code of a used symbol is the code of its entry. -/
theorem codeOf_eq {n : Nat} {t : Lengths} (h : shaped n t = true) {e : CodeEntry} (he : e ∈ codes t) :
    codeOf t e.sym = e.code := by
  unfold codeOf
  cases hf : (codes t).find? (fun x => x.sym == e.sym) with
  | none =>
    rw [List.find?_eq_none] at hf
    have := hf e he
    simp at this
  | some x =>
    have hs : x.sym = e.sym := by simpa using List.find?_some hf
    rw [code_unique h (List.mem_of_find?_eq_some hf) he hs]

/-- The window that begins with a code's bits is a key the code covers. -/
theorem covers_win {c : List Int} (hb : BooleanArray c) {p w : Nat} {e : CodeEntry} (hl : e.len ≤ w)
    (hw : win c p e.len = e.code) : e.covers w (win c p w) = true := by
  rw [CodeEntry.covers_iff, show w = e.len + (w - e.len) from by omega, win_add, hw]
  have hr := win_range hb (p + e.len) (w - e.len)
  rw [show e.len + (w - e.len) = w from by omega, CodeEntry.beyond_eq, CodeEntry.first]
  push_cast
  exact ⟨by omega, by omega⟩

/-- Conversely, a code that covers a window is its first bits. -/
theorem win_of_covers {c : List Int} (hb : BooleanArray c) {p w : Nat} {e : CodeEntry} (hl : e.len ≤ w)
    (hc : e.covers w (win c p w) = true) : win c p e.len = e.code := by
  rw [CodeEntry.covers_iff, CodeEntry.beyond_eq, CodeEntry.first] at hc
  have hr := win_range hb (p + e.len) (w - e.len)
  have hs : win c p w = win c p e.len * 2 ^ (w - e.len) + win c (p + e.len) (w - e.len) := by
    rw [← win_add, show e.len + (w - e.len) = w from by omega]
  rw [hs] at hc
  push_cast at hc
  have hp : (0 : Int) < 2 ^ (w - e.len) := by positivity
  obtain ⟨h1, h2⟩ := hc
  have h3 : (e.code : Int) < win c p e.len + 1 := by
    by_contra hlt
    have := mul_le_mul_of_nonneg_right (show win c p e.len + 1 ≤ (e.code : Int) by omega) hp.le
    nlinarith
  have h4 : win c p e.len < (e.code : Int) + 1 := by
    by_contra hlt
    have := mul_le_mul_of_nonneg_right (show (e.code : Int) + 1 ≤ win c p e.len by omega) hp.le
    nlinarith
  omega

/-- A field decode of a boolean array answers a used symbol with its code length, at most the window's width. -/
theorem exists_fieldAt {n : Nat} {t : Lengths} (h : CompleteTable n t) {c : List Int} (hb : BooleanArray c) (p : Nat) :
    ∃ s l, fieldAt t (maxLen t) c p = some (s, l) ∧ s < n ∧ 1 ≤ l ∧ l ≤ maxLen t ∧ codeLen t s = l := by
  have hr := win_range hb p (maxLen t)
  obtain ⟨e, he, hl, -⟩ := exists_lutAt h hr.1 hr.2
  have := mem_codes h.1 he
  exact ⟨e.sym, e.len, hl, this⟩

/-- What a field decode answers is a used symbol with its code length. -/
theorem fieldAt_some {n : Nat} {t : Lengths} (h : shaped n t = true) {w : Nat} {c : List Int} {p s l : Nat}
    (hf : fieldAt t w c p = some (s, l)) : s < n ∧ 1 ≤ l ∧ l ≤ maxLen t ∧ codeLen t s = l := by
  obtain ⟨e, he, rfl, rfl, -⟩ := lutAt_some hf
  exact mem_codes h he

end Sys2Proof.Machine
end

