-- ==== Sys2Proof/Laws/Datapath.lean ====
section
/-! SUPPORT. What a valid configuration gives, and the iteration's fields and wires in closed form. -/

namespace Sys2Proof.Machine

theorem ite_some_none {α : Type} {c : Prop} [Decidable c] {a : α} {x : Option α} :
    (if c then some a else x) = none ↔ ¬c ∧ x = none := by
  by_cases h : c <;> simp [h]

/-- A configuration that passes the start step's checks (R222), check by check. -/
theorem configCheck_none {s : State} (h : configCheck s = none) :
    TablesOk s.tab ∧ lengthsFit s.cfg.wmax s.tab.chLen = true ∧ lengthsFit s.cfg.wmax s.tab.lnLen = true ∧
      lengthsFit s.cfg.wmax s.tab.adLen = true ∧ 2 ≤ s.dictLen ∧ 8 ≤ s.nbits ∧ s.nbits % 8 = 0 ∧ s.tab.alog2 ≤ 255 ∧
      s.cfg.awWin ≤ s.tab.alog2 ∧ s.cfg.awDict ≤ s.tab.alog2 ∧ s.cfg.maxInput ≤ s.cfg.outMax := by
  unfold configCheck at h
  obtain ⟨h1, h⟩ := ite_some_none.mp h
  obtain ⟨h2, h⟩ := ite_some_none.mp h
  obtain ⟨h3, h⟩ := ite_some_none.mp h
  obtain ⟨h4, h⟩ := ite_some_none.mp h
  obtain ⟨h5, h⟩ := ite_some_none.mp h
  obtain ⟨h6, h⟩ := ite_some_none.mp h
  obtain ⟨h7, h⟩ := ite_some_none.mp h
  obtain ⟨h8, h⟩ := ite_some_none.mp h
  obtain ⟨h9, h⟩ := ite_some_none.mp h
  obtain ⟨h10, h⟩ := ite_some_none.mp h
  obtain ⟨h11, -⟩ := ite_some_none.mp h
  rw [Bool.not_eq_true, Bool.not_eq_false', Bool.and_eq_true] at h1 h2 h3
  rw [Bool.not_eq_true, Bool.not_eq_false', Bool.and_eq_true, Bool.and_eq_true] at h4
  rw [not_not] at h9
  exact ⟨⟨h1, h2, h3, h9.1, h9.2.1, h9.2.2, h5⟩, h4.1.1, h4.1.2, h4.2, by omega, by omega, by omega, by omega, by omega,
    by omega, by omega⟩

/-- The tables of a valid configuration. -/
theorem State.Valid.tables {s : State} (h : s.Valid) : TablesOk s.tab := (configCheck_none h.1).1

/-- A dictionary byte through SRC. -/
theorem srcRead_dict {s : State} {k : Nat} (hk : k < s.dictLen) : srcRead s (k : Int) = some (s.dictByte k) := by
  have h1 : (k : Int) < s.dictLen := by exact_mod_cast hk
  simp [srcRead, dictRead, h1]

/-- An output byte through SRC. -/
theorem srcRead_out {s : State} {k : Nat} (hk : k < s.i) (hi : s.i ≤ s.cfg.outMax) :
    srcRead s ((s.dictLen : Int) + k) = s.out.read k := by
  have h1 : ¬ ((s.dictLen : Int) + k < s.dictLen) := by omega
  have h2 : (k : Int) < s.i := by exact_mod_cast hk
  have h3 : (k : Int) < s.cfg.outMax := by exact_mod_cast (lt_of_lt_of_le hk hi)
  simp [srcRead, outRead, h2, h3]

/-- The three decodes of an iteration are field decodes. -/
theorem decChars_eq (s : State) (p : Nat) : decChars s p = fieldAt s.tab.chLen s.tab.wc s.bits p := rfl

theorem decLen_eq (s : State) (p : Nat) : decLen s p = fieldAt s.tab.lnLen s.tab.wl s.bits p := rfl

theorem decAddr_eq (s : State) (p : Nat) : decAddr s p = fieldAt s.tab.adLen s.tab.wa s.bits p := rfl

/-- The first field of an iteration as natural numbers (R182): in bypass the raw byte and 8, else the chars symbol and
its code length. -/
structure FirstField (s : State) (sym ls : Nat) : Prop where
  raw : s.byp = true → (sym : Int) = win s.bits s.cur 8 ∧ ls = 8
  coded : s.byp = false → fieldAt s.tab.chLen s.tab.wc s.bits s.cur = some (sym, ls)

/-- With a valid configuration and a boolean array the fields of an iteration decode, and lie in their bounds (R38). -/
theorem exists_fieldsAt {s : State} (h : s.Valid) :
    ∃ sym ls lv ll av la : Nat,
      fieldsAt s = .ok { s := sym, ls := ls, lv := lv, ll := ll, av := av, la := la } ∧
      FirstField s sym ls ∧
      fieldAt s.tab.lnLen s.tab.wl s.bits (s.cur + ls) = some (lv, ll) ∧
      fieldAt s.tab.adLen s.tab.wa s.bits (s.cur + ls + ll) = some (av, la) ∧
      sym < 256 ∧ 1 ≤ ls ∧ ls ≤ max 8 s.tab.wc ∧ (s.byp = false → ls ≤ s.tab.wc) ∧ lv < 256 ∧ 1 ≤ ll ∧ ll ≤ s.tab.wl ∧
      av < 2 ^ s.tab.alog2 ∧ 1 ≤ la ∧ la ≤ s.tab.wa := by
  obtain ⟨h1, h2, h3, h4, h5, h6, -⟩ := h.tables
  have hb : BooleanArray s.bits := h.2
  obtain ⟨sh, lsh, hc, hc1, hc2, hc3, -⟩ := exists_fieldAt h1 hb s.cur
  rw [← h4] at hc hc3
  have hr := win_range hb s.cur 8
  obtain ⟨raw, hraw⟩ := Int.eq_ofNat_of_zero_le hr.1
  let sym := if s.byp then raw else sh
  let ls := if s.byp then 8 else lsh
  have hsym : bypassSelect s.byp (win s.bits s.cur 8) sh = (sym : Int) := by
    cases hby : s.byp <;> simp [sym, hby, hraw]
  have hls : bypassSelect s.byp 8 lsh = (ls : Int) := by
    cases hby : s.byp <;> simp [ls, hby]
  obtain ⟨lv, ll, hl, hl1, hl2, hl3, -⟩ := exists_fieldAt h2 hb (s.cur + ls)
  rw [← h5] at hl hl3
  obtain ⟨av, la, ha, ha1, ha2, ha3, -⟩ := exists_fieldAt h3 hb (s.cur + ls + ll)
  rw [← h6] at ha ha3
  refine ⟨sym, ls, lv, ll, av, la, ?_, ⟨?_, ?_⟩, hl, ha, ?_, ?_, ?_, ?_, hl1, hl2, hl3, ha1, ha2, ha3⟩
  · have e1 : ((s.cur : Int) + (ls : Int)).toNat = s.cur + ls := by omega
    have e2 : ((s.cur : Int) + (ls : Int) + (ll : Int)).toNat = s.cur + ls + ll := by omega
    simp only [fieldsAt, decChars_eq, hc, State.win, hsym, hls, opAdd_eq, decLen_eq, e1, hl, decAddr_eq, e2, ha]
  · intro hby; simp [sym, ls, hby, hraw]
  · intro hby; simp [sym, ls, hby, hc]
  · cases hby : s.byp
    · simpa [sym, hby] using hc1
    · have := hr.2; rw [hraw] at this
      simp only [sym, hby, if_true]
      omega
  · cases hby : s.byp <;> simp [ls, hby, hc2]
  · cases hby : s.byp <;> simp [ls, hby, hc3]
  · intro hby; simpa [ls, hby] using hc3

/-- The indicators on 0/1 flags (R184). -/
theorem wires_isW (s : State) (f : Fields) :
    (wires s f).isW = if s.eof = false ∧ s.byp = false ∧ f.s = ofByte s.tab.delimW then 1 else 0 := by
  cases he : s.eof <;> cases hb : s.byp <;> simp [wires, gateWire, startsMatch_eq, he, hb]

theorem wires_isD (s : State) (f : Fields) :
    (wires s f).isD = if s.eof = false ∧ s.byp = false ∧ f.s = ofByte s.tab.delimD then 1 else 0 := by
  cases he : s.eof <;> cases hb : s.byp <;> simp [wires, gateWire, startsMatch_eq, he, hb]

theorem wires_isM (s : State) (f : Fields) : (wires s f).isM = (wires s f).isW + (wires s f).isD := rfl

theorem wires_n (s : State) (f : Fields) :
    (wires s f).n = if s.rem = 0 then (wires s f).isM * (f.lv + 1) else (s.rem : Int) := by
  rw [show (wires s f).n = bytesToGo s.rem (wires s f).isM (opAdd f.lv 1) from rfl, bytesToGo_eq, opAdd_eq]

theorem wires_mlen (s : State) (f : Fields) : (wires s f).mlen = f.lv + 1 := rfl

theorem wires_copying (s : State) (f : Fields) : (wires s f).copying = if (wires s f).n = 0 then 0 else 1 :=
  copyingWire_eq _

theorem wires_last (s : State) (f : Fields) :
    (wires s f).last = if (wires s f).n = 0 ∨ (wires s f).n = 1 then 1 else 0 := lastWire_eq _

theorem wires_key (s : State) (f : Fields) :
    (wires s f).key =
      (wires s f).isW * ((s.dictLen : Int) + s.i - 1 - f.av) + (wires s f).isD * (f.av + (f.lv + 1 - (wires s f).n)) := by
  rw [show (wires s f).key = sourceKey (wires s f).isW (wires s f).isD (windowKey s.dictLen s.i f.av)
    (dictKey f.av (opAdd f.lv 1) (wires s f).n) from rfl]
  simp only [sourceKey, windowKey, dictKey, opMac_eq, opMul_eq, opSub_eq, opAdd_eq]

theorem wires_live (s : State) (f : Fields) : (wires s f).live = if s.eof then 0 else 1 := by
  cases he : s.eof <;> simp [wires, he]

theorem wires_delta (s : State) (f : Fields) :
    (wires s f).delta = (wires s f).last * (f.ls + (wires s f).isM * (f.ll + f.la)) := by
  rw [show (wires s f).delta = cursorStep (wires s f).last f.ls (wires s f).isM f.ll f.la from rfl]
  simp only [cursorStep, opMac_eq, opMul_eq, opAdd_eq]

theorem wires_curNext (s : State) (f : Fields) :
    (wires s f).curNext = (s.cur : Int) + (wires s f).live * (wires s f).delta := by
  rw [show (wires s f).curNext = cursorNext s.cur (wires s f).live (wires s f).delta from rfl]
  simp only [cursorNext, opMac_eq]

theorem wires_hit (s : State) (f : Fields) : (wires s f).hit = if (wires s f).curNext = s.clen then 1 else 0 :=
  hitWire_eq _ _

/-- In a dead iteration nothing is a match (R181, R184). -/
theorem wires_dead {s : State} (f : Fields) (he : s.eof = true) :
    (wires s f).isW = 0 ∧ (wires s f).isD = 0 ∧ (wires s f).isM = 0 ∧ (wires s f).live = 0 := by
  simp [wires_isM, wires_isW, wires_isD, wires_live, he]

/-- A symbol that is no delimiter, or a raw byte, is no match (R184). -/
theorem wires_not_match {s : State} (f : Fields)
    (h : s.byp = true ∨ (f.s ≠ ofByte s.tab.delimW ∧ f.s ≠ ofByte s.tab.delimD)) :
    (wires s f).isW = 0 ∧ (wires s f).isD = 0 ∧ (wires s f).isM = 0 := by
  rcases h with h | ⟨h1, h2⟩
  · simp [wires_isM, wires_isW, wires_isD, h]
  · simp [wires_isM, wires_isW, wires_isD, h1, h2]

/-- A window delimiter in a live coded iteration (R184). -/
theorem wires_window {s : State} (f : Fields) (he : s.eof = false) (hb : s.byp = false)
    (hs : f.s = ofByte s.tab.delimW) (hd : s.tab.delimW ≠ s.tab.delimD) :
    (wires s f).isW = 1 ∧ (wires s f).isD = 0 ∧ (wires s f).isM = 1 := by
  have : ofByte s.tab.delimW ≠ ofByte s.tab.delimD := fun h => hd (ofByte_inj.mp h)
  simp [wires_isM, wires_isW, wires_isD, he, hb, hs, this]

/-- A dictionary delimiter in a live coded iteration (R184). -/
theorem wires_dict {s : State} (f : Fields) (he : s.eof = false) (hb : s.byp = false)
    (hs : f.s = ofByte s.tab.delimD) (hd : s.tab.delimW ≠ s.tab.delimD) :
    (wires s f).isW = 0 ∧ (wires s f).isD = 1 ∧ (wires s f).isM = 1 := by
  have : ofByte s.tab.delimD ≠ ofByte s.tab.delimW := fun h => hd (ofByte_inj.mp h).symm
  simp [wires_isM, wires_isW, wires_isD, he, hb, hs, this]

/-- The idle source lookup never misses (R188, R189: key 0). -/
theorem srcLookup_idle {s : State} (hd : 2 ≤ s.dictLen) : ∃ b, srcLookup s 0 0 0 = some b := by
  refine ⟨s.dictByte 0, srcLookup_some.mpr ⟨le_refl _, by omega, by simp, by simp, ?_⟩⟩
  simpa using srcRead_dict (s := s) (k := 0) (by omega)

/-- The source lookup of a window match, `dist` back (R188, R189). -/
theorem srcLookup_window {s : State} {dist : Nat} {b : Byte} (h1 : 1 ≤ dist) (h2 : dist ≤ s.i)
    (hi : s.i ≤ s.cfg.outMax) (hr : s.out.read (s.i - dist) = some b) :
    srcLookup s 1 0 ((s.dictLen : Int) + s.i - dist) = some b := by
  have hk : (s.dictLen : Int) + s.i - dist = (s.dictLen : Int) + ((s.i - dist : Nat) : Int) := by omega
  rw [hk]
  refine srcLookup_some.mpr ⟨by omega, by omega, by intro; omega, by simp, ?_⟩
  rw [srcRead_out (by omega) hi, hr]

/-- A window match further back than the output misses (R189). -/
theorem srcLookup_window_miss {s : State} {dist : Nat} (h : s.i < dist) :
    srcLookup s 1 0 ((s.dictLen : Int) + s.i - dist) = none := by
  unfold srcLookup
  rw [if_pos]
  exact .inr (.inr (.inl ⟨rfl, by omega⟩))

/-- The source lookup of a dictionary match (R188, R189). -/
theorem srcLookup_dict {s : State} {k : Nat} (hk : k < s.dictLen) : srcLookup s 0 1 (k : Int) = some (s.dictByte k) :=
  srcLookup_some.mpr ⟨by omega, by omega, by simp, by intro; omega, srcRead_dict hk⟩

/-- A dictionary match at or past DICT_LEN misses (R189). -/
theorem srcLookup_dict_miss {s : State} {k : Nat} (h : s.dictLen ≤ k) : srcLookup s 0 1 (k : Int) = none := by
  unfold srcLookup
  rw [if_pos]
  exact .inr (.inr (.inr ⟨rfl, by omega⟩))

/-- An iteration whose fields, source byte and insert are there (R189 to R197). -/
theorem iterate_of_lookup {s : State} {f : Fields} {v : Byte} (hf : fieldsAt s = .ok f)
    (hv : srcLookup s (wires s f).isW (wires s f).isD (wires s f).key = some v) (h1 : s.i < s.cfg.outMax)
    (h2 : s.out.read s.i = none) :
    iterate s =
      .next (commitRegs (writeOut s (toByte (byteMux (wires s f).copying (ofByte v) (wires s f).live f.s)))
        (wires s f).curNext (eofNext s.eof (wires s f).hit) (olenNext s.olen (wires s f).live)
        (remNext (wires s f).n (wires s f).copying)) := by
  unfold iterate
  rw [hf]
  simp only [hv]
  exact commit_eq _ _ _ _ _ h1 h2

/-- The invariant's unwritten entry: entry I of OUT is unwritten (R57). -/
theorem State.MemInv.unwritten {s : State} (h : s.MemInv) : s.out.read s.i = none := by
  have := h.written s.i
  simpa using this

end Sys2Proof.Machine
end

