-- ==== Sys2Proof/Laws/Iteration.lean ====
section
/-! SUPPORT. One iteration of a run, case by case: dead, one byte, or a byte of a copy, or a miss. -/

namespace Sys2Proof.Machine

/-- A live iteration whose fields, source byte and wires are known (R191 to R197). -/
theorem iterate_value {s : State} {f : Fields} {v b : Byte} (hf : fieldsAt s = .ok f)
    (hv : srcLookup s (wires s f).isW (wires s f).isD (wires s f).key = some v) (hm : s.MemInv) (hi : s.i < s.cfg.outMax)
    (hb : byteMux (wires s f).copying (ofByte v) (wires s f).live f.s = ofByte b)
    {adv rem : Nat} (hcur : (wires s f).curNext = ((s.cur + adv : Nat) : Int)) (he : s.eof = false)
    (hrem : remNext (wires s f).n (wires s f).copying = rem) :
    iterate s = .next (s.withByte b adv rem) := by
  rw [iterate_of_lookup hf hv hi hm.unwritten, hb, hcur, hrem, he, wires_hit, hcur, wires_live, he]
  have hc : (((s.cur + adv : Nat) : Int) = (s.clen : Int)) ↔ s.cur + adv = s.clen := by exact_mod_cast Iff.rfl
  have ho : ((s.olen : Int) + 1).toNat = s.olen + 1 := by omega
  by_cases h : s.cur + adv = s.clen
  · simp [commitRegs, writeOut, State.withByte, olenNext, ho, h]
  · have h' := fun e => h (hc.mp e)
    simp only [commitRegs, writeOut, State.withByte, olenNext, if_neg h', eofNext_false, toFlag_zero,
      if_neg (Bool.false_ne_true), opAdd_eq, ho, Int.toNat_natCast, toByte_ofByte, h, decide_false]

/-- A live iteration at a symbol that is no delimiter, or at a raw byte (R182, R184, R190). -/
theorem iterate_single {s : State} (hv : s.Valid) (hm : s.MemInv) (hi : s.i < s.cfg.outMax) (he : s.eof = false)
    (hr : s.rem = 0) {f : Fields} {b : Byte} {n : Nat} (hf : fieldsAt s = .ok f) (hs : f.s = ofByte b) (hl : f.ls = n)
    (hnm : s.byp = true ∨ (f.s ≠ ofByte s.tab.delimW ∧ f.s ≠ ofByte s.tab.delimD)) :
    iterate s = .next (s.withByte b n 0) := by
  obtain ⟨-, -, -, -, hd, -⟩ := configCheck_none hv.1
  obtain ⟨w1, w2, w3⟩ := wires_not_match f hnm
  have hn : (wires s f).n = 0 := by simp [wires_n, hr, w3]
  have hk : (wires s f).key = 0 := by simp [wires_key, w1, w2]
  obtain ⟨v, hv'⟩ := srcLookup_idle hd
  have hc : (wires s f).copying = 0 := by simp [wires_copying, hn]
  have hla : (wires s f).last = 1 := by simp [wires_last, hn]
  refine iterate_value hf (v := v) (by rw [w1, w2, hk]; exact hv') hm hi ?_ ?_ he ?_
  · simp [byteMux, hc, wires_live, he, hs]
  · rw [wires_curNext, wires_delta, wires_live, he, hla, w3, hl]; push_cast; simp
  · simp [remNext, hn, hc]

/-- An iteration after the end of the stream (R181, R190). -/
theorem iterate_dead {s : State} (hv : s.Valid) (hm : s.MemInv) (hi : s.i < s.cfg.outMax) (he : s.eof = true)
    (hr : s.rem = 0) :
    iterate s =
      .next { s with
        out := s.out.write s.i 0, i := s.i + 1, phase := if s.i + 1 = s.cfg.outMax then .done else s.phase } := by
  obtain ⟨-, -, -, -, hd, -⟩ := configCheck_none hv.1
  obtain ⟨sym, ls, lv, ll, av, la, hf, -⟩ := exists_fieldsAt hv
  obtain ⟨w1, w2, w3, w4⟩ := wires_dead (s := s)
    { s := sym, ls := ls, lv := lv, ll := ll, av := av, la := la } he
  generalize ({ s := sym, ls := ls, lv := lv, ll := ll, av := av, la := la } : Fields) = f at *
  have hn : (wires s f).n = 0 := by simp [wires_n, hr, w3]
  have hk : (wires s f).key = 0 := by simp [wires_key, w1, w2]
  obtain ⟨v, hv'⟩ := srcLookup_idle hd
  have hc : (wires s f).copying = 0 := by simp [wires_copying, hn]
  rw [iterate_of_lookup hf (v := v) (by rw [w1, w2, hk]; exact hv') hi hm.unwritten]
  have hb : toByte (byteMux (wires s f).copying (ofByte v) (wires s f).live f.s) = 0 := by simp [byteMux, hc, w4]; rfl
  rw [hb]
  simp [commitRegs, writeOut, olenNext, remNext, he, w4, hn, hc, hr, wires_curNext]

/-- A live iteration at a match, its source byte there (R183, R186, R187, R192, R196). -/
theorem iterate_copy {s : State} (hm : s.MemInv) (hi : s.i < s.cfg.outMax) (he : s.eof = false) {f : Fields}
    {lv ls ll la : Nat} (hf : fieldsAt s = .ok f) (e1 : f.lv = lv) (e2 : f.ls = ls) (e3 : f.ll = ll) (e4 : f.la = la)
    (hM : (wires s f).isM = 1) {b : Byte}
    (hv : srcLookup s (wires s f).isW (wires s f).isD (wires s f).key = some b) :
    iterate s = .next (s.withByte b (if s.toGo (lv + 1) = 1 then ls + ll + la else 0) (s.toGo (lv + 1) - 1)) := by
  have hn : (wires s f).n = (s.toGo (lv+1) : Nat) := by
    rw [wires_n, hM, State.toGo, e1]; split <;> push_cast <;> ring
  have hpos : 1 ≤ s.toGo (lv+1) := by unfold State.toGo; split <;> omega
  have hc : (wires s f).copying = 1 := by rw [wires_copying, hn, if_neg (by omega)]
  refine iterate_value hf (v := b) hv hm hi ?_ ?_ he ?_
  · simp [byteMux, hc]
  · rw [wires_curNext, wires_delta, wires_live, he, wires_last, hn, hM, e2, e3, e4]
    by_cases h1 : s.toGo (lv+1) = 1
    · simp [h1]; ring
    · have h0 : ¬ (((s.toGo (lv + 1) : Nat) : Int) = 0 ∨ ((s.toGo (lv + 1) : Nat) : Int) = 1) := by omega
      rw [if_neg h0, if_neg h1]; simp
  · rw [remNext, hn, hc]; simp; omega

/-- What the decoder and the datapath read at CUR, together: the instruction, its length, and the iteration's fields
(R182, R183 against R83 to R87). -/
inductive At (s : State) (f : Fields) : Instr → Nat → Prop
  | raw (b : Byte) : s.byp = true → f.s = ofByte b → f.ls = 8 → At s f (.raw b) 8
  | lit (b : Byte) (ls : Nat) : s.byp = false → f.s = ofByte b → f.ls = ls → b ≠ s.tab.delimW → b ≠ s.tab.delimD →
      1 ≤ ls → ls ≤ s.tab.wc → At s f (.lit b) ls
  | wm (ls lv ll av la : Nat) : s.byp = false →
      f = { s := ofByte s.tab.delimW, ls := ls, lv := lv, ll := ll, av := av, la := la } → lv < 256 → 1 ≤ ls →
      ls + ll + la ≤ s.tab.wc + s.tab.wl + s.tab.wa → At s f (.wmatch (lv + 1) (av + 1)) (ls + ll + la)
  | dm (ls lv ll av la : Nat) : s.byp = false →
      f = { s := ofByte s.tab.delimD, ls := ls, lv := lv, ll := ll, av := av, la := la } → lv < 256 → 1 ≤ ls →
      ls + ll + la ≤ s.tab.wc + s.tab.wl + s.tab.wa → At s f (.dmatch (lv + 1) av) (ls + ll + la)

theorem ofByte_nat {k : Nat} (h : k < 256) : ofByte (BitVec.ofNat 8 k) = k := by
  simp [ofByte, Nat.mod_eq_of_lt h]

/-- With a valid configuration and a boolean array something stands at every cursor (R92, R141). -/
theorem exists_at {s : State} (hv : s.Valid) :
    ∃ f i n, fieldsAt s = .ok f ∧ decode s.tab (recordMode s.byp) s.bits s.cur = .ok (i, n) ∧ At s f i n := by
  obtain ⟨sym, ls, lv, ll, av, la, hf, ⟨hraw, hcod⟩, hl, ha, b1, b2, b3, b4, b5, b6, b7, b8, b9, b10⟩ := exists_fieldsAt hv
  refine ⟨{ s := sym, ls := ls, lv := lv, ll := ll, av := av, la := la }, ?_⟩
  cases hb : s.byp
  · have hc := hcod hb
    have hm : decodeMatch s.tab s.bits s.cur ls = .ok (lv, av, ls + ll + la) := by simp only [decodeMatch, hl, ha]
    by_cases hW : sym = s.tab.delimW.toNat
    · refine ⟨.wmatch (lv+1) (av+1), ls+ll+la, hf, ?_, .wm ls lv ll av la hb ?_ b5 b2 (by have := b4 hb; omega)⟩
      · simp only [recordMode, decode, decodeCoded, hc, if_pos hW, hm]; simp
      · simp [ofByte, hW]
    · by_cases hD : sym = s.tab.delimD.toNat
      · refine ⟨.dmatch (lv+1) av, ls+ll+la, hf, ?_, .dm ls lv ll av la hb ?_ b5 b2 (by have := b4 hb; omega)⟩
        · simp only [recordMode, decode, decodeCoded, hc, if_neg hW, if_pos hD, hm]; simp
        · simp [ofByte, hD]
      · refine ⟨.lit (BitVec.ofNat 8 sym), ls, hf, ?_, .lit _ ls hb ?_ rfl ?_ ?_ b2 (b4 hb)⟩
        · simp only [recordMode, decode, decodeCoded, hc, if_neg hW, if_neg hD]; simp
        · simp only; rw [ofByte_nat b1]
        · rintro h; apply hW; rw [← h, BitVec.toNat_ofNat]; exact (Nat.mod_eq_of_lt b1).symm
        · rintro h; apply hD; rw [← h, BitVec.toNat_ofNat]; exact (Nat.mod_eq_of_lt b1).symm
  · obtain ⟨h1, h2⟩ := hraw hb
    refine ⟨.raw (BitVec.ofNat 8 sym), 8, hf, ?_, ?_⟩
    · have hw : win s.bits s.cur 8 = sym := h1.symm
      simp only [recordMode, decode, if_true, byteAt, hw]
      rw [if_pos (by omega)]
      have : toByte (sym : Int) = BitVec.ofNat 8 sym := by rw [← ofByte_nat b1, toByte_ofByte]
      simp [this]
    · exact .raw _ hb (by rw [ofByte_nat b1]) (by simp [h2])

/-- The indicators and the source key by what stands at CUR (R184, R188). -/
theorem indicators_of_at {s : State} {f : Fields} {i : Instr} {n : Nat} (hv : s.Valid) (he : s.eof = false)
    (h : At s f i n) :
    (recordBytes i = 1 ∧ (wires s f).isM = 0 ∧ ∃ b, i = .raw b ∨ i = .lit b) ∨
    ∃ lv ls ll av la : Nat,
      f = { s := f.s, ls := ls, lv := lv, ll := ll, av := av, la := la } ∧ n = ls + ll + la ∧ (wires s f).isM = 1 ∧
      lv < 256 ∧ 1 ≤ ls ∧ ls + ll + la ≤ s.tab.wc + s.tab.wl + s.tab.wa ∧
      ((i = .wmatch (lv + 1) (av + 1) ∧ (wires s f).isW = 1 ∧ (wires s f).isD = 0 ∧
          (wires s f).key = (s.dictLen : Int) + s.i - (av + 1 : Nat)) ∨
        (i = .dmatch (lv + 1) av ∧ (wires s f).isW = 0 ∧ (wires s f).isD = 1 ∧
          (s.rem < lv + 1 → (wires s f).key = ((av + (lv + 1 - s.toGo (lv + 1)) : Nat) : Int)))) := by
  have hd : s.tab.delimW ≠ s.tab.delimD := hv.tables.2.2.2.2.2.2
  cases h with
  | raw b hb hs hl => exact .inl ⟨rfl, (wires_not_match f (.inl hb)).2.2, b, .inl rfl⟩
  | lit b ls hb hs hl h1 h2 =>
    refine .inl ⟨rfl, (wires_not_match f (.inr ?_)).2.2, b, .inr rfl⟩
    rw [hs]; exact ⟨fun h => h1 (ofByte_inj.mp h), fun h => h2 (ofByte_inj.mp h)⟩
  | wm ls lv ll av la hb hf h1 h2 h3 =>
    subst hf
    obtain ⟨w1, w2, w3⟩ := wires_window (s := s)
      { s := ofByte s.tab.delimW, ls := ls, lv := lv, ll := ll, av := av, la := la } he hb rfl hd
    refine .inr ⟨lv, ls, ll, av, la, rfl, rfl, w3, h1, h2, h3, .inl ⟨rfl, w1, w2, ?_⟩⟩
    rw [wires_key, w1, w2]; push_cast; ring
  | dm ls lv ll av la hb hf h1 h2 h3 =>
    subst hf
    obtain ⟨w1, w2, w3⟩ := wires_dict (s := s)
      { s := ofByte s.tab.delimD, ls := ls, lv := lv, ll := ll, av := av, la := la } he hb rfl hd
    refine .inr ⟨lv, ls, ll, av, la, rfl, rfl, w3, h1, h2, h3, .inr ⟨rfl, w1, w2, ?_⟩⟩
    intro hr
    rw [wires_key, w1, w2, wires_n, w3, State.toGo]
    split
    · simp
    · push_cast [Nat.cast_sub hr.le]; ring

/-- Fresh or in the middle of its copy, the record at CUR has more bytes than REM (R41 (b)). -/
theorem rem_lt {s : State} (h : s.RunInv) {f : Fields} {i : Instr} {n : Nat} (hf : fieldsAt s = .ok f)
    (ha : At s f i n) (he : s.eof = false) : s.rem < recordBytes i := by
  rcases indicators_of_at h.valid he ha with ⟨h1, h2, -⟩ | ⟨lv, ls, ll, av, la, hff, hn, hM, -, -, -, h3⟩
  · rw [h1]
    by_contra hr
    obtain ⟨f', hf', hm', -⟩ := h.copy (by omega)
    rw [hf] at hf'; cases hf'; rw [hm'] at h2; cases h2
  · have : recordBytes i = lv + 1 := by rcases h3 with ⟨rfl, -⟩ | ⟨rfl, -⟩ <;> rfl
    rw [this]
    by_cases hr : s.rem = 0
    · omega
    · obtain ⟨f', hf', -, hl⟩ := h.copy (by omega)
      rw [hf] at hf'; cases hf'
      rw [wires_mlen, hff] at hl; simp only at hl; omega

/-- An enabled ITER is one pass of the datapath (R180). -/
theorem exec_iter_eq {s : State} (hp : s.phase = .run) (hf : s.fault = false) : exec .iter s = iterate s := by
  simp [exec, execIter, State.enabled, hp, hf]

/-- An iteration whose source lookup misses (R189, R227). -/
theorem iterate_miss {s : State} {f : Fields} (hf : fieldsAt s = .ok f)
    (hv : srcLookup s (wires s f).isW (wires s f).isD (wires s f).key = none) :
    iterate s = .next (takeFault s .lookupMiss (.miss s.i (wires s f).key)) := by
  simp only [iterate, hf, hv]

end Sys2Proof.Machine
end

