-- ==== Sys2Proof/Laws/Step.lean ====
section
/-! SUPPORT. Everything a step can be, and that each operation keeps the memory invariant. -/

namespace Sys2Proof.Machine

/-- Writing the next byte of OUT keeps the memory invariant (R57, R191, R197). -/
theorem memInv_append {s t : State} {b : Byte} (hm : s.MemInv) (hi : s.i < s.cfg.outMax)
    (h1 : t.out = s.out.write s.i b) (h2 : t.dict = s.dict) (h3 : t.i = s.i + 1) (h4 : t.cfg = s.cfg)
    (h5 : t.olen ≤ s.olen + 1) (h9 : t.eof = false → s.eof = false ∧ t.olen = s.olen + 1) (h6 : t.fault = s.fault) (h7 : t.fcode = s.fcode) (h8 : t.phase = if s.i + 1 = s.cfg.outMax then .done else .run) : t.MemInv where
  outWf := by rw [h1]; exact Memory.wf_write _ _ hm.outWf
  dictWf := by rw [h2]; exact hm.dictWf
  written k := by
    rw [h1, h3, Memory.read_write]
    by_cases hk : k = s.i
    · simp [hk]
    · rw [if_neg hk, hm.written]; congr 1; simp only [eq_iff_iff]; omega
  olenLive he := by obtain ⟨e1, e2⟩ := h9 he; have := hm.olenLive e1; omega
  olenBound := by have := hm.olenBound; omega
  faultCode := by rw [h6, h7]; exact hm.faultCode
  idle h := by rw [h8] at h; split at h <;> cases h
  running h := by rw [h8] at h; split at h <;> [cases h; (rw [h3, h4]; omega)]

/-- Taking a fault keeps it (R27, R227). -/
theorem memInv_takeFault {s : State} (hm : s.MemInv) (c i) (hc : c ≠ .noFault) : (takeFault s c i).MemInv := by
  unfold takeFault
  split
  · exact hm
  · exact ⟨hm.outWf, hm.dictWf, hm.written, hm.olenLive, hm.olenBound, by simp [enterFault, hc], hm.idle, hm.running⟩

/-- The start step's register writes keep it (R242). -/
theorem memInv_beginRun {s : State} (hm : s.MemInv) (hi : s.i = 0) (l : Byte) : (beginRun s l).MemInv where
  outWf := hm.outWf
  dictWf := hm.dictWf
  written k := by have := hm.written k; rw [hi] at this; simpa [beginRun] using this
  olenLive _ := rfl
  olenBound := Nat.zero_le _
  faultCode := hm.faultCode
  idle h := by unfold beginRun at h; simp only at h; split at h <;> cases h
  running h := by unfold beginRun at h ⊢; simp only at h ⊢; split at h <;> [assumption; cases h]

/-- Before a run OUT is unwritten already (R39). -/
theorem clearOut_eq {s : State} (hm : s.MemInv) (hi : s.i = 0) : clearOut s = s := by
  have : s.out = [] := Memory.eq_nil_of_read_none (fun k => by have := hm.written k; rw [hi] at this; simpa using this)
  simp [clearOut, ← this]

/-- Reset keeps it (R240). -/
theorem memInv_hostReset {s : State} (hm : s.MemInv) : (hostReset s).MemInv where
  outWf := rfl
  dictWf := hm.dictWf
  written k := by simp [hostReset]
  olenLive _ := rfl
  olenBound := Nat.zero_le _
  faultCode := by simp [hostReset]
  idle _ := ⟨rfl, rfl, rfl, rfl, rfl⟩
  running h := by simp [hostReset] at h

/-- OLEN grows by at most one (R195). -/
theorem olenNext_le {s : State} {live} (h : live = (if s.eof then 0 else (1:Int))) : (olenNext s.olen live).toNat ≤ s.olen + 1 := by
  subst h; unfold olenNext; split <;> simp

/-- While EOF = 0 the latch was clear before, and OLEN grew by one (R194, R195). -/
theorem eofNext_clear {s : State} {live hit : Int} (h : live = (if s.eof then 0 else (1:Int)))
    (he : toFlag (eofNext s.eof hit) = false) : s.eof = false ∧ (olenNext s.olen live).toNat = s.olen + 1 := by
  cases hs : s.eof
  · subst h; refine ⟨rfl, ?_⟩; simp only [olenNext, hs, opAdd_eq, Bool.false_eq_true, if_false]; omega
  · rw [hs] at he; simp at he

/-- An iteration keeps it. -/
theorem memInv_iterate {s t : State} (hm : s.MemInv) (hp : s.phase = .run) (h : iterate s = .next t) : t.MemInv := by
  rcases iterate_next.mp h with ⟨key, -, rfl⟩ | ⟨f, hf, ⟨-, rfl⟩ | ⟨v, hv, hi, ho, rfl⟩⟩
  · exact memInv_takeFault hm _ _ (by simp)
  · exact memInv_takeFault hm _ _ (by simp)
  · exact memInv_append hm hi rfl rfl rfl rfl (olenNext_le (wires_live s f)) (eofNext_clear (wires_live s f)) rfl rfl
      (by simp [commitRegs, writeOut, hp])

/-- A record's byte keeps it. -/
theorem memInv_emit {s t : State} {b adv r} (hm : s.MemInv) (hp : s.phase = .run) (he : s.eof = false) (h : emit s b adv r = .next t) : t.MemInv := by
  obtain ⟨hi, ho, rfl⟩ := emit_next.mp h
  exact memInv_append hm hi rfl rfl rfl rfl (le_refl _) (fun _ => ⟨he, rfl⟩) rfl rfl (by simp [hp])

/-- Enabled means PHASE = RUN and FAULT = 0 (R180). -/
theorem enabled_iff_run {s : State} (h : s.enabled = true) : s.phase = .run ∧ s.fault = false := by simpa [State.enabled] using h

/-- A record's copy keeps it: until its last byte the cursor stays off the end of the stream. -/
theorem memInv_copyLoop {isW isD : Int} {key : State → Nat → Int} {len n : Nat} :
    ∀ {s t : State}, s.MemInv → (n ≠ 0 → s.eof = false ∧ s.cur ≠ s.clen) → copyLoop isW isD key len n s = .next t →
      t.MemInv := by
  induction n with
  | zero => intro s t hm _ h; cases h; exact hm
  | succ n ih =>
    intro s t hm hc h
    obtain ⟨he', hcur⟩ := hc (Nat.succ_ne_zero n)
    rcases copyLoop_succ_next.mp h with ⟨-, rfl⟩ | ⟨-, -, rfl⟩ | ⟨he, b, u, -, hu, ht⟩
    · exact hm
    · exact memInv_takeFault hm _ _ (by simp)
    · refine ih (memInv_emit hm (enabled_iff_run he).1 he' hu) (fun hn => ?_) ht
      obtain ⟨-, -, rfl⟩ := emit_next.mp hu
      simp [hn, hcur]

/-- A change of inputs, or of the model's own fields, keeps it. -/
theorem memInv_frame {s t : State} (hm : s.MemInv) (h1 : t.out = s.out) (h2 : t.dict = s.dict ∨ t.dict.wf = true)
    (h3 : t.i = s.i) (h4 : t.cfg = s.cfg ∨ s.phase ≠ .run) (h5 : t.olen = s.olen) (h6 : t.fault = s.fault)
    (h7 : t.fcode = s.fcode) (h8 : t.phase = s.phase) (h9 : t.cur = s.cur) (h10 : t.rem = s.rem) (h11 : t.eof = s.eof) :
    t.MemInv where
  outWf := by rw [h1]; exact hm.outWf
  dictWf := by rcases h2 with h2 | h2 <;> [(rw [h2]; exact hm.dictWf); exact h2]
  written k := by rw [h1, h3]; exact hm.written k
  olenLive h := by rw [h11] at h; rw [h3, h5]; exact hm.olenLive h
  olenBound := by rw [h3, h5]; exact hm.olenBound
  faultCode := by rw [h6, h7]; exact hm.faultCode
  idle h := by rw [h8] at h; rw [h3, h5, h9, h10, h11]; exact hm.idle h
  running h := by
    rw [h8] at h; rw [h3]
    rcases h4 with h4 | h4
    · rw [h4]; exact hm.running h
    · exact absurd h h4

/-- A header is executed in PHASE = IDLE with FAULT = 0. -/
theorem idle_of_headerReady {s : State} (h : s.headerReady = true) : s.phase = .idle ∧ s.fault = false := by simpa [State.headerReady] using h

/-- Every instruction a step executes keeps it. -/
theorem memInv_exec {i : Instr} {s t : State} (hm : s.MemInv) (hi : ∀ k v, i ≠ .insert k v)
    (h : exec i s = .next t) : t.MemInv := by
  have key : ∀ y, (setYield s y).MemInv :=
    fun y => memInv_frame hm rfl (.inl rfl) rfl (.inl rfl) rfl rfl rfl rfl rfl rfl rfl
  have ym : ∀ {k y}, yieldOrMiss s k y = .next t → t.MemInv := by
    intro k y h
    rcases yieldOrMiss_next.mp h with ⟨v, -, rfl⟩ | ⟨-, rfl⟩
    · exact key _
    · exact memInv_takeFault hm _ _ (by simp)
  have hd : ∀ l, s.headerReady = true → (runHeader s l).MemInv := by
    intro l hr
    have h0 := (hm.idle (idle_of_headerReady hr).1).1
    rw [runHeader, clearOut_eq hm h0]
    exact memInv_beginRun hm h0 l
  have rr : ∀ {b}, s.recordReady b = true → s.phase = .run ∧ s.eof = false ∧ s.cur ≠ s.clen := by
    intro b hr; simp [State.recordReady, State.enabled] at hr; exact ⟨hr.1.1.1.1.1, hr.1.1.1.2, hr.1.2⟩
  cases i <;> simp only [exec] at h
  case insert k v => exact absurd rfl (hi k v)
  case start =>
    obtain ⟨hr, ⟨c, -, rfl⟩ | ⟨-, ⟨v, -, rfl⟩ | ⟨-, rfl⟩⟩⟩ := execStart_next.mp h
    · exact memInv_takeFault hm _ _ (by simp)
    · exact memInv_takeFault hm _ _ (by simp)
    · exact memInv_beginRun hm (hm.idle (idle_of_headerReady hr).1).1 _
  case iter =>
    unfold execIter at h
    split at h
    · rename_i he; exact memInv_iterate hm (enabled_iff_run he).1 h
    · cases h
  case hdrNocomp =>
    unfold execHdrNocomp at h
    split at h
    · cases h; exact hd _ (by assumption)
    · cases h
  case hdrComp l =>
    unfold execHdrComp at h
    split at h
    · split at h
      · cases h; exact hd _ (by assumption)
      · cases h
    · cases h
  case raw b =>
    unfold execRaw at h
    split at h
    · rename_i hr; exact memInv_emit hm (rr hr).1 (rr hr).2.1 h
    · cases h
  case lit b =>
    unfold execLit at h
    split at h
    · rename_i hr
      split at h
      · exact memInv_emit hm (rr hr).1 (rr hr).2.1 h
      · cases h
    · cases h
  case wmatch =>
    unfold execWmatch at h
    split at h
    · rename_i hr
      split at h
      · exact memInv_copyLoop hm (fun _ => (rr hr).2) h
      · cases h
    · cases h
  case dmatch =>
    unfold execDmatch at h
    split at h
    · rename_i hr
      split at h
      · exact memInv_copyLoop hm (fun _ => (rr hr).2) h
      · cases h
    · cases h
  case assertEq => unfold execAssertEq at h; split at h <;> cases h; exacts [hm, memInv_takeFault hm _ _ (by simp)]
  case assertBool => unfold execAssertBool at h; split at h <;> cases h; exacts [hm, memInv_takeFault hm _ _ (by simp)]
  case lookup => exact ym h
  case decChars => exact ym h
  case decLen => exact ym h
  case decAddr => exact ym h
  all_goals (cases h; exact key _)

/-- A host write lands or is refused (R31, R66). -/
theorem hostWrite_cases {s u : State} :
    (s.phase = .run ∧ hostWrite s u = .refuse .hostWriteDuringRun) ∨ (s.phase ≠ .run ∧ hostWrite s u = .host u) := by
  unfold hostWrite; split <;> simp_all

/-- No bits decode to a primitive's INSERT. -/
theorem decode_not_insert {t m c p n k v} : decode t m c p ≠ .ok (.insert k v, n) := by
  cases m <;> simp only [decode, decodeCoded]
  · split
    · simp
    · split <;> simp
  · split <;> simp
  · split
    · simp
    · split
      · split <;> simp
      · split
        · split <;> simp
        · simp

/-- Every host action keeps it. -/
theorem memInv_hostAct {s u : State} {r} (hm : s.MemInv) (h : hostAct r s = .host u) : u.MemInv := by
  cases r <;> simp only [hostAct] at h
  case reset => cases h; exact memInv_hostReset hm
  case start => cases h
  case configure =>
    unfold hostWrite at h; split at h <;> cases h
    rename_i hp; exact memInv_frame hm rfl (.inl rfl) rfl (.inr hp) rfl rfl rfl rfl rfl rfl rfl
  case writeDict b =>
    unfold hostWrite at h; split at h <;> cases h
    exact memInv_frame hm rfl (.inr (Memory.wf_load 0 _ hm.dictWf)) rfl (.inl rfl) rfl rfl rfl rfl rfl rfl rfl
  all_goals
    unfold hostWrite at h; split at h <;> cases h
    exact memInv_frame hm rfl (.inl rfl) rfl (.inl rfl) rfl rfl rfl rfl rfl rfl rfl

/-- The one host action that executes an instruction is the start request. -/
theorem hostAct_exec {s u : State} {r i} (h : hostAct r s = .exec i u) : r = .start ∧ i = .start ∧ u = s := by
  cases r <;> simp only [hostAct] at h
  case start => cases h; exact ⟨rfl, rfl, rfl⟩
  case reset => cases h
  all_goals (unfold hostWrite at h; split at h <;> cases h)

/-- What is fetched is what is decoded there. -/
theorem fetchAt_cases {s u : State} {m p i} (h : fetchAt s m p = .exec i u) :
    u = s ∧ ∃ n, decode s.tab m s.bits p = .ok (i, n) := by
  unfold fetchAt at h
  split at h
  · rename_i i' n hd; cases h; exact ⟨rfl, n, hd⟩
  · cases h

/-- An executed instruction sees the state with at most the host's action taken off; it is no INSERT. -/
theorem nextStep_exec {s u : State} {i} (h : nextStep s = .exec i u) :
    (∀ k v, i ≠ .insert k v) ∧ ∃ r, u = { s with req := r } := by
  unfold nextStep at h
  split at h
  · rename_i r rest hr
    obtain ⟨-, rfl, rfl⟩ := hostAct_exec h
    exact ⟨by simp, rest, rfl⟩
  · rename_i hr
    split at h
    · unfold hardwareNext at h
      split at h
      · cases h
      · split at h <;> cases h
        exact ⟨by simp, _, rfl⟩
    · unfold recordNext at h
      have : ∀ {m p}, fetchAt s m p = .exec i u → (∀ k v, i ≠ .insert k v) ∧ ∃ r, u = { s with req := r } := by
        intro m p h
        obtain ⟨rfl, n, hd⟩ := fetchAt_cases h
        exact ⟨fun k v e => decode_not_insert (e ▸ hd), _, rfl⟩
      split at h
      · cases h
      · split at h
        · exact this h
        · split at h
          · cases h
          · exact this h
        · cases h

/-- A completed host action is the first pending one. -/
theorem nextStep_host {s u : State} (h : nextStep s = .host u) :
    ∃ r rest, s.req = r :: rest ∧ hostAct r { s with req := rest } = .host u := by
  unfold nextStep at h
  split at h
  · rename_i r rest hr; exact ⟨r, rest, hr, h⟩
  · split at h
    · unfold hardwareNext at h; split at h <;> [cases h; (split at h <;> cases h)]
    · unfold recordNext fetchAt at h
      split at h
      · cases h
      · split at h
        · split at h <;> cases h
        · split at h
          · cases h
          · split at h <;> cases h
        · cases h

/-- Everything a step that goes on can be: an executed instruction or a host action. -/
theorem step_cases {s t : State} (h : step s = .next t) :
    (∃ i r, (∀ k v, i ≠ .insert k v) ∧ nextStep s = .exec i { s with req := r } ∧
      exec i { s with req := r } = .next t) ∨
    (∃ r rest, s.req = r :: rest ∧ hostAct r { s with req := rest } = .host t) := by
  unfold step at h
  split at h
  · rename_i i u hn
    obtain ⟨h1, r, rfl⟩ := nextStep_exec hn
    exact .inl ⟨i, r, h1, hn, h⟩
  · rename_i u hn; cases h; exact .inr (nextStep_host hn)
  · cases h
  · cases h

end Sys2Proof.Machine
end

