-- ==== Sys2Proof/Laws/Run.lean ====
section
/-! SUPPORT. The run invariant, an iteration's forms, and a record's copy as its iterations. -/

namespace Sys2Proof.Machine

/-- Bytes to go of a match lie between 1 and its length. -/
theorem toGo_bounds {s : State} {lv : Nat} (h : s.rem < lv + 1) : s.toGo (lv + 1) ≤ lv + 1 ∧ 1 ≤ s.toGo (lv + 1) := by
  unfold State.toGo; split <;> omega

/-- One more byte keeps the run invariant. -/
theorem runInv_withByte {s : State} (h : s.RunInv) (he : s.eof = false) {b : Byte} {adv rem : Nat}
    (ha : rem = 0 ∨
      (adv = 0 ∧ rem ≤ 255 ∧ ∃ f, fieldsAt s = .ok f ∧ (wires s f).isM = 1 ∧ (rem : Int) < (wires s f).mlen))
    (hadv : adv ≤ max 8 (s.tab.wc + s.tab.wl + s.tab.wa)) : (s.withByte b adv rem).RunInv where
  valid := h.valid
  header := h.header
  eofRem := by
    intro e
    have e' : s.cur + adv = s.clen := by simpa [State.withByte] using e
    rcases ha with ha | ⟨h0, -⟩
    · exact ha
    · rw [h0, Nat.add_zero] at e'
      have := h.eofCur.mpr e'; rw [he] at this; cases this
  eofCur := by simp [State.withByte]
  remBound := by rcases ha with ha | ha <;> simp only [State.withByte] <;> omega
  curLow := by simp only [State.withByte]; have := h.curLow; omega
  curHigh := by
    simp only [State.withByte]; have := h.curHigh
    rw [Nat.add_mul]; omega
  copy := by
    intro hr
    rcases ha with ha | ⟨h0, -, f, hf, hM, hl⟩
    · simp [State.withByte, ha] at hr
    · subst h0
      have hc : ¬ s.cur = s.clen := fun e => by have := h.eofCur.mpr e; rw [he] at this; cases this
      refine ⟨f, hf, ?_, hl⟩
      have : (wires (s.withByte b 0 rem) f).isM = (wires s f).isM := by
        simp [wires_isM, wires_isW, wires_isD, State.withByte, he, hc]
      rw [this, hM]

/-- The run invariant reads configuration, inputs and working registers only. -/
theorem runInv_frame {s t : State} (h : s.RunInv) (h1 : t.cfg = s.cfg) (h2 : t.tab = s.tab) (h3 : t.dictLen = s.dictLen)
    (h4 : t.dict = s.dict) (h5 : t.loaded = s.loaded) (h6 : t.clen = s.clen) (h7 : t.i = s.i) (h8 : t.cur = s.cur)
    (h9 : t.rem = s.rem) (h10 : t.olen = s.olen) (h11 : t.level = s.level) (h12 : t.byp = s.byp) (h13 : t.eof = s.eof) :
    t.RunInv := by
  obtain ⟨cfg, tab, dictLen, dict, loaded, clen, i, cur, rem, olen, level, byp, eof, fault, fcode, finfo, phase, out, yielded, req, view, fresh⟩ := t
  subst h1 h2 h3 h4 h5 h6 h7 h8 h9 h10 h11 h12 h13
  exact ⟨h.valid, h.header, h.eofRem, h.eofCur, h.remBound, h.curLow, h.curHigh, h.copy⟩

/-- Taking a fault keeps the run invariant: no register is updated (R227). -/
theorem runInv_takeFault {s : State} (h : s.RunInv) (c i) : (takeFault s c i).RunInv := by
  unfold takeFault; split
  · exact h
  · exact runInv_frame h rfl rfl rfl rfl rfl rfl rfl rfl rfl rfl rfl rfl rfl

/-- Every iteration of a run is dead, misses, or writes one byte of the record at CUR. -/
theorem iterate_forms {s : State} (hm : s.MemInv) (h : s.RunInv) (hp : s.phase = .run) :
    (s.eof = true ∧
      iterate s =
        .next { s with
          out := s.out.write s.i 0, i := s.i + 1, phase := if s.i + 1 = s.cfg.outMax then .done else s.phase }) ∨
    (s.eof = false ∧ ∃ f i n,
      fieldsAt s = .ok f ∧ decode s.tab (recordMode s.byp) s.bits s.cur = .ok (i, n) ∧ At s f i n ∧ 1 ≤ n ∧
      n ≤ max 8 (s.tab.wc + s.tab.wl + s.tab.wa) ∧ 1 ≤ recordBytes i ∧ recordBytes i ≤ 256 ∧ s.rem < recordBytes i ∧
      ((∃ key, iterate s = .next (takeFault s .lookupMiss (.miss s.i key))) ∨
        (∃ b,
          iterate s =
            .next (s.withByte b (if s.toGo (recordBytes i) = 1 then n else 0) (s.toGo (recordBytes i) - 1)) ∧
          (s.toGo (recordBytes i) - 1 = 0 ∨ (wires s f).isM = 1 ∧ (wires s f).mlen = recordBytes i)))) := by
  have hi := hm.running hp
  cases he : s.eof
  · refine .inr ⟨rfl, ?_⟩
    obtain ⟨f, i, n, h1, h2, h3⟩ := exists_at h.valid
    have hlt := rem_lt h h1 h3 he
    rcases indicators_of_at h.valid he h3 with ⟨q1, q2, -⟩ | ⟨lv, ls, ll, av, la, hff, hn, hM, q1, q2, q3, q4⟩
    · rw [q1] at hlt
      have hr : s.rem = 0 := by omega
      have htg : s.toGo 1 = 1 := by simp [State.toGo, hr]
      refine ⟨f, i, n, h1, h2, h3, ?_, ?_, by omega, by omega, by omega, .inr ?_⟩
      · cases h3 <;> simp [recordBytes] at q1 <;> omega
      · cases h3 <;> simp [recordBytes] at q1 <;> omega
      · rw [q1, htg]
        cases h3 with
        | raw b a1 a2 a3 => exact ⟨b, by simpa using iterate_single h.valid hm hi he hr h1 a2 a3 (.inl a1), .inl rfl⟩
        | lit b ls a1 a2 a3 a4 a5 a6 a7 =>
          refine ⟨b, ?_, .inl rfl⟩
          simpa using iterate_single h.valid hm hi he hr h1 a2 a3
            (.inr (by rw [a2]; exact ⟨fun h => a4 (ofByte_inj.mp h), fun h => a5 (ofByte_inj.mp h)⟩))
        | wm ls lv ll av la a1 a2 =>
          subst a2
          rw [(wires_window _ he a1 rfl h.valid.tables.2.2.2.2.2.2).2.2] at q2; cases q2
        | dm ls lv ll av la a1 a2 =>
          subst a2
          rw [(wires_dict _ he a1 rfl h.valid.tables.2.2.2.2.2.2).2.2] at q2; cases q2
    · have hrb : recordBytes i = lv + 1 := by rcases q4 with ⟨rfl, -⟩ | ⟨rfl, -⟩ <;> rfl
      refine ⟨f, i, n, h1, h2, h3, by omega, by omega, by omega, by omega, hlt, ?_⟩
      rw [hrb] at hlt ⊢
      cases hv : srcLookup s (wires s f).isW (wires s f).isD (wires s f).key with
      | none => exact .inl ⟨_, iterate_miss h1 hv⟩
      | some b =>
        refine .inr ⟨b, ?_, .inr ⟨hM, by rw [wires_mlen, hff]; push_cast; rfl⟩⟩
        rw [hn]
        exact iterate_copy hm hi he h1 (by rw [hff]) (by rw [hff]) (by rw [hff]) (by rw [hff]) hM hv
  · have := iterate_dead h.valid hm hi he (h.eofRem he)
    rw [he] at this; exact .inl ⟨rfl, this⟩

/-- An iteration keeps the run invariant (R38, R41). -/
theorem runInv_iterate {s t : State} (hm : s.MemInv) (h : s.RunInv) (hp : s.phase = .run)
    (ht : iterate s = .next t) : t.RunInv := by
  rcases iterate_forms hm h hp with ⟨he, e⟩ | ⟨he, f, i, n, h1, h2, h3, h4, h5, h6, h7, h8, ⟨key, e⟩ | ⟨b, e, hc⟩⟩
  · rw [e] at ht; cases ht
    have hr := h.eofRem he
    refine ⟨h.valid, h.header, fun _ => hr, h.eofCur, h.remBound, h.curLow, ?_, fun hr' => ?_⟩
    · simp only; have := h.curHigh; rw [Nat.add_mul]; omega
    · simp only at hr'; omega
  · rw [e] at ht; cases ht; exact runInv_takeFault h _ _
  · rw [e] at ht; cases ht
    obtain ⟨k, hk⟩ : ∃ k, recordBytes i = k + 1 := ⟨recordBytes i - 1, by omega⟩
    have tg := toGo_bounds (s := s) (lv := k) (by omega)
    rw [← hk] at tg
    refine runInv_withByte h he ?_ (by split <;> omega)
    by_cases h0 : s.toGo (recordBytes i) - 1 = 0
    · exact .inl h0
    · rcases hc with hc | ⟨hc1, hc2⟩
      · exact absurd hc h0
      · exact .inr ⟨if_neg (by omega), by omega, f, h1, hc1, by rw [hc2]; omega⟩

/-- A byte value is 0 exactly when its byte is. -/
theorem toByte_beq_zero {v : Int} (h0 : 0 ≤ v) (h1 : v < 256) : (toByte v == 0) = decide (v = 0) := by
  have := ofByte_toByte h0 h1
  by_cases hv : v = 0
  · subst hv; rfl
  · simp [hv]; intro hh; rw [hh] at this; apply hv; rw [← this]; rfl

/-- The start step begins with the run invariant (R242). -/
theorem runInv_beginRun {s : State} (hv : s.Valid) : (beginRun s (toByte (s.win 0 8))).RunInv := by
  have hr := win_range hv.2 0 8
  have h8 : (2:Int)^8 = 256 := by norm_num
  rw [h8] at hr
  refine ⟨hv, ⟨rfl, ?_⟩, fun _ => rfl, ?_, Nat.zero_le _, le_refl _, by simp [beginRun], fun h => by simp [beginRun] at h⟩
  · simp only [beginRun, State.win, toFlag_opIsZero, ofByte_toByte hr.1 hr.2, toByte_beq_zero hr.1 hr.2]
  · simp [beginRun]; omega

/-- Where no iteration is enabled, iterating ends at once (R180). -/
theorem iterations_of_not_enabled {s : State} (h : s.enabled = false) (n : Nat) : iterations n s = .next s := by
  cases n <;> simp [iterations, h]

/-- A record's byte, where there is room. -/
theorem emit_eq {s : State} (b : Byte) (adv r : Nat) (hm : s.MemInv) (hi : s.i < s.cfg.outMax) :
    emit s b adv r = .next (s.withByte b adv r) := by
  rw [emit_next]; exact ⟨hi, hm.unwritten, rfl⟩

/-- The byte of an iteration keeps the memory invariant. -/
theorem memInv_withByte {s : State} (hm : s.MemInv) (hp : s.phase = .run) (he : s.eof = false) (b adv r) :
    (s.withByte b adv r).MemInv :=
  memInv_append hm (hm.running hp) rfl rfl rfl rfl (le_refl _) (fun _ => ⟨he, rfl⟩) rfl rfl (by simp [State.withByte, hp])

/-- An enabled ITER is one pass of the datapath. -/
theorem execIter_eq_iterate {s : State} (h : s.enabled = true) : execIter s = iterate s := by simp [execIter, h]

/-- After a fault no iteration is enabled (R180, R228). -/
theorem takeFault_not_enabled {s : State} (c i) : (takeFault s c i).enabled = false := by
  unfold takeFault; split <;> simp [State.enabled, enterFault, *]

/-- The source key of a record's copy is the datapath's (R188). -/
def CopiesLike (i : Instr) (len n : Nat) (isW isD : Int) (key : State → Nat → Int) : Prop :=
  ∀ (u : State) f, u.RunInv → u.eof = false → fieldsAt u = .ok f → At u f i n →
    (wires u f).isW = isW ∧ (wires u f).isD = isD ∧ (wires u f).key = key u (u.toGo len)

/-- A record's copy is its iterations, also where it ends early. -/
theorem copyLoop_iterations {i : Instr} {len n : Nat} {isW isD : Int} {key : State → Nat → Int}
    (hk : CopiesLike i len n isW isD key) (hl : recordBytes i = len) (hm1 : ∀ b, i ≠ .raw b ∧ i ≠ .lit b) :
    ∀ m u, u.MemInv → (u.phase = .run → u.RunInv) →
      (u.enabled = true → m ≠ 0 → u.eof = false ∧ decode u.tab (recordMode u.byp) u.bits u.cur = .ok (i, n) ∧ u.toGo len = m) →
      copyLoop isW isD key n m u = iterations m u := by
  intro m
  induction m with
  | zero => intros; rfl
  | succ m ih =>
    intro u hM hR hu
    cases hen : u.enabled with
    | false => rw [iterations_of_not_enabled hen, copyLoop, hen]; rfl
    | true =>
      obtain ⟨he, hd, htg⟩ := hu hen (by omega)
      obtain ⟨hp, hf⟩ := enabled_iff_run hen
      have hR' := hR hp
      have hi := hM.running hp
      obtain ⟨f, i', n', h1, h2, h3⟩ := exists_at hR'.valid
      rw [hd] at h2; cases h2
      obtain ⟨k1, k2, k3⟩ := hk u f hR' he h1 h3
      have hlt := rem_lt hR' h1 h3 he
      rw [copyLoop, iterations, hen, if_pos rfl, if_pos rfl, execIter_eq_iterate hen, ← htg, ← k1, ← k2, ← k3]
      cases hv : srcLookup u (wires u f).isW (wires u f).isD (wires u f).key with
      | none =>
        rw [iterate_miss h1 hv]
        simp only [andThen_of_next]
        rw [iterations_of_not_enabled (takeFault_not_enabled _ _)]
      | some b =>
        simp only
        rcases indicators_of_at hR'.valid he h3 with ⟨-, -, b', hb' | hb'⟩ | ⟨lv, ls, ll, av, la, hff, hn, hMM, -, -, -, q4⟩
        · exact absurd hb' (hm1 b').1
        · exact absurd hb' (hm1 b').2
        · have hlen : len = lv + 1 := by rw [← hl]; rcases q4 with ⟨rfl, -⟩ | ⟨rfl, -⟩ <;> rfl
          subst hlen
          have e := iterate_copy hM hi he h1 (by rw [hff]) (by rw [hff]) (by rw [hff]) (by rw [hff]) hMM hv
          rw [← hn, htg] at e
          rw [e, emit_eq _ _ _ hM hi]
          simp only [andThen_of_next, Nat.add_sub_cancel, Nat.add_eq_right]
          have hm2 := memInv_withByte hM hp he b (if m = 0 then n else 0) m
          have hr2 := runInv_iterate hM hR' hp (by rw [e])
          simp only [Nat.add_sub_cancel, Nat.add_eq_right] at hr2
          rw [k1, k2]
          refine ih _ hm2 (fun _ => hr2) ?_
          · intro hen2 hm0
            rw [if_neg hm0]
            refine ⟨?_, hd, by simp [State.toGo, State.withByte, hm0]⟩
            have : ¬ u.cur = u.clen := fun e => by have := hR'.eofCur.mpr e; rw [he] at this; cases this
            simp [State.withByte, this]

/-- Iterations in a row. -/
theorem iterations_add (a b : Nat) (s : State) : iterations (a + b) s = andThen (iterations a s) (iterations b) := by
  induction a generalizing s with
  | zero => simp [iterations]
  | succ a ih =>
    rw [show a + 1 + b = (a + b) + 1 by omega, iterations, iterations]
    cases hen : s.enabled
    · simp [iterations_of_not_enabled hen]
    · simp only [if_true]
      cases execIter s with
      | next t => simp only [andThen_of_next]; exact ih t
      | fault e => rfl
      | refused e => rfl

end Sys2Proof.Machine
end

