-- ==== Sys2Proof/Laws/Copy.lean ====
section
/-! SUPPORT. A record's copy whose source bytes are all there, and the oracle's copies byte by byte. -/

namespace Sys2Proof.Machine

/-- The written entries of OUT are a list of bytes (R199). -/
def OutIs (s : State) (out : List Byte) : Prop := s.i = out.length ∧ ∀ k, s.out.read k = out[k]?

theorem Rep_withByte {s : State} {out b adv r} (h : OutIs s out) : OutIs (s.withByte b adv r) (out ++ [b]) := by
  refine ⟨by simp [State.withByte, h.1], fun k => ?_⟩
  simp only [State.withByte]
  rw [Memory.read_write, h.1]
  by_cases hk : k = out.length
  · simp [hk]
  · rw [if_neg hk, h.2 k]
    by_cases hl : k < out.length
    · rw [List.getElem?_append_left hl]
    · rw [List.getElem?_eq_none (by omega), List.getElem?_eq_none (by simp; omega)]

/-- What the oracle's correspondence says of OUT. -/
theorem outIs_of_represents {s : State} {o} (hM : s.MemInv) (h : Represents s o) : OutIs s o.out := by
  refine ⟨h.length.symm, fun k => ?_⟩
  by_cases hk : k < s.i
  · exact h.bytes k hk
  · have := hM.written k
    rw [decide_eq_false hk] at this
    rw [List.getElem?_eq_none (by have := h.length; omega)]
    simpa using this

/-- A record's copy all of whose source bytes are there: it appends them and passes the record with the last. -/
theorem copyLoop_appends {isW isD : Int} {key : State → Nat → Int} {len : Nat} :
    ∀ m (s : State) (bs : List Byte) out, s.MemInv →
      (m ≠ 0 → s.phase = .run ∧ s.eof = false ∧ s.cur ≠ s.clen) → s.fault = false → OutIs s out →
      out.length + m ≤ s.cfg.outMax → bs.length = m →
      (∀ j (u : State), j < m → SameInputs s u → u.byp = s.byp → OutIs u (out ++ bs.take j) → u.MemInv → u.phase = .run →
        srcLookup u isW isD (key u (m - j)) = bs[j]?) →
      ∃ t, copyLoop isW isD key len m s = .next t ∧ OutIs t (out ++ bs) ∧ t.MemInv ∧ t.fault = false ∧ SameInputs s t ∧
        t.byp = s.byp ∧ t.olen = s.olen + m ∧ t.level = s.level ∧
        (t.phase = if m = 0 then s.phase else if out.length + m = s.cfg.outMax then .done else .run) ∧
       t.rem = (if m = 0 then s.rem else 0) ∧ t.cur = (if m = 0 then s.cur else s.cur + len) ∧ t.eof = (if m = 0 then s.eof else decide (s.cur + len = s.clen)) := by
  intro m
  induction m with
  | zero =>
    intro s bs out hM hp hf hr hl hb hk
    have : bs = [] := List.length_eq_zero_iff.mp hb
    subst this
    exact ⟨s, rfl, by simpa using hr, hM, hf, by simp [SameInputs], rfl, rfl, rfl, rfl, rfl, rfl, rfl⟩
  | succ m ih =>
    intro s bs out hM hp hf hr hl hb hk
    obtain ⟨hp, he, hc⟩ := hp (Nat.succ_ne_zero m)
    have hen : s.enabled = true := by simp [State.enabled, hp, hf]
    obtain ⟨b, bs', rfl⟩ : ∃ b bs', bs = b :: bs' := by
      cases bs with
      | nil => simp at hb
      | cons b bs' => exact ⟨b, bs', rfl⟩
    have hb' : bs'.length = m := by simpa using hb
    have h0 := hk 0 s (by omega) (by simp [SameInputs]) rfl (by simpa using hr) hM hp
    simp only [Nat.sub_zero, List.getElem?_cons_zero] at h0
    have hi := hM.running hp
    rw [copyLoop, if_pos hen, h0]
    simp only
    rw [emit_eq _ _ _ hM hi, andThen_of_next]
    set u := s.withByte b (if m = 0 then len else 0) m with hu
    have hMu := memInv_withByte hM hp he b (if m = 0 then len else 0) m
    have hRu := Rep_withByte (b := b) (adv := if m = 0 then len else 0) (r := m) hr
    have hph : m ≠ 0 → u.phase = .run ∧ u.eof = false ∧ u.cur ≠ u.clen := by
      intro hm
      refine ⟨?_, by simp [hu, State.withByte, hm, hc], by simpa [hu, State.withByte, hm] using hc⟩
      simp only [hu, State.withByte, hp]; rw [if_neg]; rw [hr.1]; omega
    obtain ⟨t, e1, e2, e3, e4, e5, e6, e7, e8, e9, e10, e11, e12⟩ := ih u bs' (out ++ [b]) hMu hph hf hRu (by simp only [hu, State.withByte, List.length_append, List.length_singleton]; omega) hb' (by
      intro j w hj hs hby hrw hMw hpw
      have := hk (j+1) w (by omega) hs hby (by simpa using hrw) hMw hpw
      simpa using this)
    refine ⟨t, e1, by simpa using e2, e3, e4, ?_, e6, ?_, e8, ?_, ?_, ?_, ?_⟩
    · exact e5
    · rw [e7]; simp only [hu, State.withByte]; omega
    · rw [e9]
      simp only [hu, State.withByte, hp, List.length_append, List.length_singleton]
      rw [hr.1]
      by_cases hm : m = 0
      · subst hm; simp
      · rw [if_neg hm, if_neg (Nat.succ_ne_zero m), show out.length + 1 + m = out.length + (m+1) by omega]
    · rw [e10]; simp only [hu, State.withByte]; split <;> simp_all
    · rw [e11]; simp only [hu, State.withByte]; by_cases hm : m = 0 <;> simp [hm]
    · rw [e12]; simp only [hu, State.withByte]; by_cases hm : m = 0 <;> simp [hm]

/-- The oracle's window copy, byte by byte (R164). -/
theorem copyBack_some : ∀ m dist out out', copyBack m dist out = some out' → 1 ≤ dist → ∃ bs, bs.length = m ∧ out' = out ++ bs ∧ (m = 0 ∨ dist ≤ out.length) ∧ ∀ j, j < m → bs[j]? = (out ++ bs.take j)[out.length + j - dist]? := by
  intro m
  induction m with
  | zero => intro dist out out' h _; cases h; exact ⟨[], rfl, by simp, .inl rfl, by simp⟩
  | succ m ih =>
    intro dist out out' h hd
    rw [copyBack] at h
    split at h
    · rename_i hle
      split at h
      · rename_i b hb
        obtain ⟨bs, h1, h2, h3, h4⟩ := ih _ _ _ h hd
        refine ⟨b :: bs, by simp [h1], by simp [h2], .inr hle, ?_⟩
        intro j hj
        cases j with
        | zero => simp [hb]
        | succ j =>
          have := h4 j (by omega)
          simp only [List.length_append, List.length_singleton] at this
          rw [List.getElem?_cons_succ, this, List.take_succ_cons]
          rw [show out.length + 1 + j - dist = out.length + (j + 1) - dist by omega]
          simp
      · cases h
    · cases h

/-- The oracle's dictionary copy, byte by byte (R165). -/
theorem copyDict_some {s : State} : ∀ m addr out out', copyDict s m addr out = some out' → ∃ bs, bs.length = m ∧ out' = out ++ bs ∧ ∀ j, j < m → dictRead s ((addr + j : Nat) : Int) = bs[j]? := by
  intro m
  induction m with
  | zero => intro addr out out' h; cases h; exact ⟨[], rfl, by simp, by simp⟩
  | succ m ih =>
    intro addr out out' h
    rw [copyDict] at h
    split at h
    · rename_i b hb
      obtain ⟨bs, h1, h2, h4⟩ := ih _ _ _ h
      refine ⟨b :: bs, by simp [h1], by simp [h2], ?_⟩
      intro j hj
      cases j with
      | zero => simpa using hb
      | succ j =>
        have := h4 j (by omega)
        rw [List.getElem?_cons_succ, ← this, show addr + 1 + j = addr + (j+1) by omega]
    · cases h

end Sys2Proof.Machine
end

