-- ==== Sys2Proof/Laws/Encoding.lean ====
section
/-! SUPPORT. Words and their decoding: a symbol's bits in place, a byte's bits, and the bits a field decode consumed. -/

namespace Sys2Proof.Machine

/-- A symbol has a code when its length is not 0 (R93). -/
theorem used_iff {t : Lengths} {s : Nat} : used t s = true ↔ 0 < codeLen t s := by simp [used]

/-- Two boolean arrays in a row. -/
theorem booleanArray_append {c d : List Int} (hc : BooleanArray c) (hd : BooleanArray d) : BooleanArray (c ++ d) := by
  rw [booleanArray_iff] at hc hd ⊢
  intro a ha
  rcases List.mem_append.mp ha with h | h
  · exact hc a h
  · exact hd a h

/-- The bits of a symbol are bits. -/
theorem symBits_boolean (t s) : BooleanArray (symBits t s) := bitsOf_boolean _ _

/-- A field decode does not see the bits before it. -/
theorem fieldAt_append (t : Lengths) (w : Nat) (pre post : List Int) (k : Nat) : fieldAt t w (pre ++ post) (pre.length + k) = fieldAt t w post k := by
  rw [fieldAt, fieldAt, win_append_right]

/-- A symbol's bits, with anything after them, decode to the symbol (R133, R136). -/
theorem fieldAt_symBits {n : Nat} {t : Lengths} (h : CompleteTable n t) {s : Nat} (hu : 0 < codeLen t s) (pre post : List Int)
    (hb : BooleanArray post) :
    fieldAt t (maxLen t) (pre ++ (symBits t s ++ post)) pre.length = some (s, codeLen t s) := by
  have := fieldAt_append t (maxLen t) pre (symBits t s ++ post) 0
  rw [Nat.add_zero] at this
  rw [this]
  obtain ⟨e, he, h1, h2⟩ := exists_code hu
  subst h1
  have hl := mem_codes h.1 he
  have hlt := code_lt h he
  have hc : codeOf t e.sym = e.code := codeOf_eq h.1 he
  have hw : win (symBits t e.sym ++ post) 0 e.len = e.code := by
    rw [symBits, hc, ← h2]
    exact win_bitsOf hlt [] post
  have := covers_win (booleanArray_append (symBits_boolean t e.sym) hb) hl.2.2.1 hw
  rw [fieldAt, lutAt_of_covers h.1 he this, ← h2]

/-- A symbol has as many bits as its code length. -/
theorem symBits_length (t s) : (symBits t s).length = codeLen t s := bitsOf_length _ _

/-- A byte's bits read as the byte (R51, R83). -/
theorem byteAt_byteBits (b : Byte) (pre post : List Int) : byteAt (pre ++ byteBits b ++ post) pre.length = some b := by
  have : win (pre ++ byteBits b ++ post) pre.length 8 = (b.toNat : Int) := win_bitsOf b.isLt pre post
  rw [byteAt, this, if_pos ⟨by omega, by have := b.isLt; omega⟩]
  congr 1
  exact toByte_ofByte b

/-- The two fields after a delimiter read back (R85, R86). -/
theorem decodeMatch_append {t : Tables} (ht : TablesOk t) (pre d post : List Int) {ls lv av : Nat} (hd : d.length = ls)
    (h1 : 0 < codeLen t.lnLen lv) (h2 : 0 < codeLen t.adLen av) (hb : BooleanArray post) :
    decodeMatch t (pre ++ (d ++ (symBits t.lnLen lv ++ (symBits t.adLen av ++ post)))) pre.length ls =
      .ok (lv, av, ls + codeLen t.lnLen lv + codeLen t.adLen av) := by
  obtain ⟨-, hl, ha, -, e1, e2, -⟩ := ht
  have f1 := fieldAt_symBits hl h1 (pre ++ d) (symBits t.adLen av ++ post) (booleanArray_append (symBits_boolean _ _) hb)
  have f2 := fieldAt_symBits ha h2 (pre ++ d ++ symBits t.lnLen lv) post hb
  rw [← e1] at f1; rw [← e2] at f2
  simp only [List.length_append, hd, symBits_length, List.append_assoc] at f1 f2
  rw [decodeMatch, f1]; simp only
  rw [← Nat.add_assoc] at f2
  rw [f2]

/-- Equal windows of boolean arrays have equal bits. -/
theorem bitAt_eq_of_win_eq {c d : List Int} (hc : BooleanArray c) (hd : BooleanArray d) {p q l : Nat} (h : win c p l = win d q l) :
    ∀ j, j < l → bitAt c (p + j) = bitAt d (q + j) := by
  induction l generalizing p q with
  | zero => intro j hj; omega
  | succ l ih =>
    rw [win_succ, win_succ] at h
    have h1 := win_range hc (p+1) l
    have h2 := win_range hd (q+1) l
    have hp : (0:Int) < 2^l := by positivity
    have hh : bitAt c p = bitAt d q := by
      rcases bitAt_boolean hc p with a | a <;> rcases bitAt_boolean hd q with b | b <;> rw [a, b] at h ⊢ <;> omega
    rw [hh] at h
    have h3 : win c (p+1) l = win d (q+1) l := by omega
    intro j hj
    cases j with
    | zero => simpa using hh
    | succ j => 
      have := ih h3 j (by omega)
      rw [show p + (j+1) = p + 1 + j by omega, show q + (j+1) = q+1+j by omega]; exact this

/-- A bit of the first of two arrays. -/
theorem bitAt_append_left (a b : List Int) (k : Nat) (h : k < a.length) : bitAt (a ++ b) k = bitAt a k := by
  simp [bitAt, List.getD, List.getElem?_append_left h]

/-- The bits a field decode consumes are its symbol's code (R133, R136). -/
theorem bits_of_fieldAt {n : Nat} {t : Lengths} (h : CompleteTable n t) {c : List Int} (hb : BooleanArray c) {p s l : Nat}
    (hf : fieldAt t (maxLen t) c p = some (s, l)) : ∀ j, j < l → bitAt c (p + j) = bitAt (symBits t s) j := by
  obtain ⟨e, he, rfl, rfl, hcov⟩ := lutAt_some hf
  have hl := mem_codes h.1 he
  have hw := win_of_covers hb hl.2.2.1 hcov
  have hc : codeOf t e.sym = e.code := codeOf_eq h.1 he
  have h2 : win (symBits t e.sym) 0 e.len = e.code := by
    rw [symBits, hc, hl.2.2.2]
    simpa using win_bitsOf (code_lt h he) [] []
  have := bitAt_eq_of_win_eq hb (symBits_boolean t e.sym) (hw.trans h2.symm)
  simpa using this

/-- Every position of a boolean array reads as a byte (R92). -/
theorem exists_byteAt {c : List Int} (hb : BooleanArray c) (p : Nat) : ∃ b, byteAt c p = some b ∧ ∀ j, j < 8 → bitAt c (p + j) = bitAt (byteBits b) j := by
  have hr := win_range hb p 8
  refine ⟨toByte (win c p 8), ?_, ?_⟩
  · rw [byteAt, if_pos ⟨hr.1, by simpa using hr.2⟩]
  · have h1 := ofByte_toByte hr.1 (by simpa using hr.2)
    have h2 : win (byteBits (toByte (win c p 8))) 0 8 = ofByte (toByte (win c p 8)) := by
        have := win_bitsOf (toByte (win c p 8)).isLt [] []; rw [List.append_nil] at this; exact this
    have := bitAt_eq_of_win_eq hb (bitsOf_boolean 8 _) ((h2.trans h1).symm)
    intro j hj; have := this j hj; rw [Nat.zero_add] at this; exact this

/-- Three runs of bits, one after another. -/
theorem bitAt_append3 {c : List Int} {p : Nat} {x y z : List Int} (h1 : ∀ j, j < x.length → bitAt c (p + j) = bitAt x j)
   (h2 : ∀ j, j < y.length → bitAt c (p + x.length + j) = bitAt y j) 
   (h3 : ∀ j, j < z.length → bitAt c (p + x.length + y.length + j) = bitAt z j) :
   ∀ j, j < x.length + y.length + z.length → bitAt c (p + j) = bitAt (x ++ y ++ z) j := by
  intro j hj
  by_cases a : j < x.length
  · rw [List.append_assoc, bitAt_append_left _ _ _ a]; exact h1 j a
  · obtain ⟨k, rfl⟩ := Nat.exists_eq_add_of_le (Nat.le_of_not_lt a)
    rw [List.append_assoc, bitAt_append_right]
    by_cases b : k < y.length
    · rw [bitAt_append_left _ _ _ b, ← h2 k b, Nat.add_assoc]
    · obtain ⟨m, rfl⟩ := Nat.exists_eq_add_of_le (Nat.le_of_not_lt b)
      rw [bitAt_append_right, ← h3 m (by omega)]; congr 1; omega

end Sys2Proof.Machine
end

