-- ==== Sys2Proof/Laws/PerInstr.lean ====
section
/-! SUPPORT. A law of every instruction's syntax, a lemma a constructor. -/

namespace Sys2Proof.Laws.BitLength

open Sys2Proof.Machine

/-- The bits of an instruction are boolean and as many as its bit length says, under any tables; an instruction without
a mode of the stream has none (R50, R89, R99, R100). -/
def Statement (i : Instr) : Prop :=
  ∀ t : Tables, BooleanArray (encode t i) ∧ (encode t i).length = i.bitLen t ∧ (i.mode? = none → encode t i = [])

/-- Two boolean lists in a row. -/
theorem boolean_append {c d : List Int} (hc : BooleanArray c) (hd : BooleanArray d) : BooleanArray (c ++ d) := by
  rw [booleanArray_iff] at hc hd ⊢
  intro a ha
  rcases List.mem_append.mp ha with h | h
  · exact hc a h
  · exact hd a h

/-- The bits of a symbol. -/
theorem symBits_boolean (t : Lengths) (s : Nat) : BooleanArray (symBits t s) := bitsOf_boolean _ _

theorem symBits_length (t : Lengths) (s : Nat) : (symBits t s).length = codeLen t s := bitsOf_length _ _

theorem none_boolean : BooleanArray [] := rfl

theorem add (a b : Int) : Statement (.add a b) := fun _ => ⟨none_boolean, rfl, fun _ => rfl⟩

theorem mul (a b : Int) : Statement (.mul a b) := fun _ => ⟨none_boolean, rfl, fun _ => rfl⟩

theorem mac (acc a b : Int) : Statement (.mac acc a b) := fun _ => ⟨none_boolean, rfl, fun _ => rfl⟩

theorem assertEq (a b : Int) : Statement (.assertEq a b) := fun _ => ⟨none_boolean, rfl, fun _ => rfl⟩

theorem assertBool (a : Int) : Statement (.assertBool a) := fun _ => ⟨none_boolean, rfl, fun _ => rfl⟩

theorem select (c a b : Int) : Statement (.select c a b) := fun _ => ⟨none_boolean, rfl, fun _ => rfl⟩

theorem lookup (space : Space) (key : Int) : Statement (.lookup space key) := fun _ => ⟨none_boolean, rfl, fun _ => rfl⟩

theorem insert (key : Int) (v : Byte) : Statement (.insert key v) := fun _ => ⟨none_boolean, rfl, fun _ => rfl⟩

theorem sub (a b : Int) : Statement (.sub a b) := fun _ => ⟨none_boolean, rfl, fun _ => rfl⟩

theorem isZero (x : Int) : Statement (.isZero x) := fun _ => ⟨none_boolean, rfl, fun _ => rfl⟩

theorem eq (a b : Int) : Statement (.eq a b) := fun _ => ⟨none_boolean, rfl, fun _ => rfl⟩

theorem win (p w : Nat) : Statement (.win p w) := fun _ => ⟨none_boolean, rfl, fun _ => rfl⟩

theorem decChars (p : Nat) : Statement (.decChars p) := fun _ => ⟨none_boolean, rfl, fun _ => rfl⟩

theorem decLen (p : Nat) : Statement (.decLen p) := fun _ => ⟨none_boolean, rfl, fun _ => rfl⟩

theorem decAddr (p : Nat) : Statement (.decAddr p) := fun _ => ⟨none_boolean, rfl, fun _ => rfl⟩

theorem hdrNocomp : Statement .hdrNocomp := fun _ => ⟨bitsOf_boolean _ _, bitsOf_length _ _, fun h => nomatch h⟩

theorem hdrComp (level : Byte) : Statement (.hdrComp level) := fun _ => ⟨bitsOf_boolean _ _, bitsOf_length _ _, fun h => nomatch h⟩

theorem raw (b : Byte) : Statement (.raw b) := fun _ => ⟨bitsOf_boolean _ _, bitsOf_length _ _, fun h => nomatch h⟩

theorem lit (s : Byte) : Statement (.lit s) := fun _ => ⟨symBits_boolean _ _, symBits_length _ _, fun h => nomatch h⟩

theorem wmatch (len dist : Nat) : Statement (.wmatch len dist) := fun _ =>
  ⟨boolean_append (boolean_append (symBits_boolean _ _) (symBits_boolean _ _)) (symBits_boolean _ _),
    by simp only [encode, Instr.bitLen, List.length_append, symBits_length], fun h => nomatch h⟩

theorem dmatch (len addr : Nat) : Statement (.dmatch len addr) := fun _ =>
  ⟨boolean_append (boolean_append (symBits_boolean _ _) (symBits_boolean _ _)) (symBits_boolean _ _),
    by simp only [encode, Instr.bitLen, List.length_append, symBits_length], fun h => nomatch h⟩

theorem start : Statement .start := fun _ => ⟨none_boolean, rfl, fun _ => rfl⟩

theorem iter : Statement .iter := fun _ => ⟨none_boolean, rfl, fun _ => rfl⟩

end Sys2Proof.Laws.BitLength
end

