-- ==== Sys2Proof/Tests/Slice0.lean ====
section
/-! SUPPORT. Tests against the vectors of spec/95_test_vectors.md (the section is named at each), smoke tests of
WellFormed, and a witness for the hypotheses of every obligation. -/

namespace Sys2Proof.Tests

set_option Elab.async false -- one thread: the kernel evaluations below each take a large stack


open Sys2Proof.Machine

/-! Small states under EX1 (section 2.1). -/

/-- The dictionary of EX1. -/
def exDict : List Byte := [0x61, 0x62, 0x00, 0xFF, 0xFE]

/-- EX1 loaded, PHASE = IDLE, the bits filled with zeros to NBITS = 64. (EX1 names no MAX_INPUT and no MAX_DICT.) -/
def ex1 (c : List Int) (clen : Nat) : State :=
  { State.reset with
    cfg := { outMax := 12, nbits := 64, wmax := 3, maxInput := 0, maxDict := 3, awWin := 2, awDict := 2, augOrder := .dictFirst }
    tab := ex1Tables, dictLen := 5, dict := Memory.ofBytes exDict
    loaded := c ++ List.replicate (64 - c.length) 0, clen := clen }

/-- EX1 in a run: bytes `out` written, cursor, bytes to go. The stream is well-formed up to here, so OLEN = I, EOF tells
whether the cursor stands on CLEN. -/
def ex1Run (c : List Int) (clen cur rem : Nat) (out : List Byte) : State :=
  { ex1 c clen with
    phase := .run, level := toByte (win c 0 8), byp := toByte (win c 0 8) == 0, cur := cur, rem := rem
    eof := decide (cur = clen), i := out.length, olen := out.length, out := Memory.ofBytes out }

/-- The bits of P1 (section 3), CLEN = 29. -/
def p1 : List Int := [0,0,0,0,0,0,0,1, 0,0, 0,1, 1,0,1,1,1,0,1, 1,1,1,1,0,0,1, 1,1,0]

/-- The bits of P2 (section 3), CLEN = 24. -/
def p2 : List Int := [0,0,0,0,0,0,0,0, 0,1,1,0,1,0,0,0, 0,1,1,0,1,0,0,1]

/-- The bits of M1, CLEN = 13. -/
def m1 : List Int := [0,0,0,0,0,0,0,1, 1,0,0,0,0]

/-- The bits of M3, CLEN = 16. -/
def m3 : List Int := [0,0,0,0,0,0,0,1, 1,1,1,1,1,0,1,1]

/-- A header alone: P4a, CLEN = 8. -/
def p4 : List Int := [0,0,0,0,0,0,0,1]

/-- P1 at iteration 0, 1, 2 (a window match), 4 (in the middle of its copy), 6 (a dictionary match), 7, 8, 9 (dead). -/
def p1I0 : State := ex1Run p1 29 8 0 []
def p1I2 : State := ex1Run p1 29 12 0 [0x61, 0x62]
def p1I4 : State := ex1Run p1 29 12 2 [0x61, 0x62, 0x61, 0x62]
def p1I5 : State := ex1Run p1 29 12 1 [0x61, 0x62, 0x61, 0x62, 0x61]
def p1I6 : State := ex1Run p1 29 19 0 [0x61, 0x62, 0x61, 0x62, 0x61, 0x62]
def p1I7 : State := ex1Run p1 29 19 1 [0x61, 0x62, 0x61, 0x62, 0x61, 0x62, 0x62]
def p1I8 : State := ex1Run p1 29 26 0 [0x61, 0x62, 0x61, 0x62, 0x61, 0x62, 0x62, 0x00]
def p1I9 : State := ex1Run p1 29 29 0 [0x61, 0x62, 0x61, 0x62, 0x61, 0x62, 0x62, 0x00, 0x00]

/-- P2 at iteration 0. -/
def p2I0 : State := ex1Run p2 24 8 0 []

/-- M1 at iteration 0 and M3 at iteration 2. -/
def m1I0 : State := ex1Run m1 13 8 0 []
def m3I2 : State := ex1Run m3 16 8 1 [0xFF, 0xFE]

/-- The state of an outcome, for reading one field of it. -/
def stateAfter (r : Result) : State :=
  match r with
  | .next t => t
  | .fault _ => State.reset
  | .refused _ => State.reset

/-- An outcome is the given next state, fault or refusal. -/
def same (r r' : Result) : Bool :=
  match r, r' with
  | .next s, .next t => decide (s = t)
  | .fault e, .fault f => decide (e = f)
  | .refused e, .refused f => decide (e = f)
  | .next _, .fault _ | .next _, .refused _ | .fault _, .next _ => false
  | .fault _, .refused _ | .refused _, .next _ | .refused _, .fault _ => false

/-! ## WellFormed refuses ill-formed terms -/

theorem test_wf_insert_negative_key : (Instr.insert (-1) 0).wf ex1Tables = false := by decide
theorem test_wf_hdrComp_level_zero : (Instr.hdrComp 0).wf ex1Tables = false := by decide
theorem test_wf_lit_delimW : (Instr.lit 0xFE).wf ex1Tables = false := by decide
theorem test_wf_lit_delimD : (Instr.lit 0xFF).wf ex1Tables = false := by decide
theorem test_wf_lit_unused_symbol : (Instr.lit 0x63).wf ex1Tables = false := by decide
theorem test_wf_wmatch_length_zero : (Instr.wmatch 0 1).wf ex1Tables = false := by decide
theorem test_wf_wmatch_length_257 : (Instr.wmatch 257 1).wf { ex1Tables with lnLen := [(256, 1)] } = false := by decide
theorem test_wf_wmatch_distance_zero : (Instr.wmatch 1 0).wf ex1Tables = false := by decide
theorem test_wf_wmatch_distance_beyond :
    (Instr.wmatch 1 5).wf { ex1Tables with adLen := [(4, 2)] } = false := by decide
theorem test_wf_wmatch_unused_delimiter : (Instr.wmatch 1 1).wf { ex1Tables with delimW := 0x63 } = false := by decide
theorem test_wf_wmatch_unused_length : (Instr.wmatch 5 1).wf ex1Tables = false := by decide
theorem test_wf_wmatch_unused_address : (Instr.wmatch 1 4).wf { ex1Tables with adLen := [(0, 1)] } = false := by decide
theorem test_wf_dmatch_length_zero : (Instr.dmatch 0 0).wf ex1Tables = false := by decide
theorem test_wf_dmatch_length_257 : (Instr.dmatch 257 0).wf { ex1Tables with lnLen := [(256, 1)] } = false := by decide
theorem test_wf_dmatch_address_beyond :
    (Instr.dmatch 1 4).wf { ex1Tables with adLen := [(4, 2)] } = false := by decide
theorem test_wf_dmatch_unused_delimiter : (Instr.dmatch 1 0).wf { ex1Tables with delimD := 0x63 } = false := by decide
theorem test_wf_dmatch_unused_length : (Instr.dmatch 5 0).wf ex1Tables = false := by decide
theorem test_wf_dmatch_unused_address : (Instr.dmatch 1 3).wf { ex1Tables with adLen := [(0, 1)] } = false := by decide

/-! ## Words of section 2.6, bit by bit -/

theorem test_decode_hdr_nocomp : (decode ex1Tables .header [0,0,0,0,0,0,0,0] 0).toOption = some (.hdrNocomp, 8) := by decide
theorem test_decode_hdr_comp : (decode ex1Tables .header [0,0,0,0,0,0,0,1] 0).toOption = some (.hdrComp 1, 8) := by decide
theorem test_decode_raw : (decode ex1Tables .raw [1,1,1,1,1,1,1,0] 0).toOption = some (.raw 0xFE, 8) := by decide
theorem test_decode_lit_2bits : (decode ex1Tables .coded [0,0] 0).toOption = some (.lit 0x61, 2) := by decide
theorem test_decode_lit_3bits : (decode ex1Tables .coded [1,1,0] 0).toOption = some (.lit 0x00, 3) := by decide
theorem test_decode_wm_4_2 : (decode ex1Tables .coded [1,0,1,1,1,0,1] 0).toOption = some (.wmatch 4 2, 7) := by decide
theorem test_decode_wm_1_1 : (decode ex1Tables .coded [1,0,0,0,0] 0).toOption = some (.wmatch 1 1, 5) := by decide
theorem test_decode_dm_2_1 : (decode ex1Tables .coded [1,1,1,1,0,0,1] 0).toOption = some (.dmatch 2 1, 7) := by decide
theorem test_decode_dm_1_3 : (decode ex1Tables .coded [1,1,1,0,1,1] 0).toOption = some (.dmatch 1 3, 6) := by decide
theorem test_decode_rejects_nonboolean :
    (decode ex1Tables .header [9,0,0,0,0,0,0,0] 0).toOption = none := by decide
theorem test_decode_rejects_incomplete_chars :
    (decode { ex1Tables with wc := 2, chLen := [(0, 1), (1, 2)] } .coded [1,1] 0).toOption = none := by decide
theorem test_decode_rejects_incomplete_lengths :
    (decode { ex1Tables with wl := 2, lnLen := [(0, 1), (1, 2)] } .coded [1,0,1,1] 0).toOption = none := by decide
theorem test_decode_rejects_incomplete_addresses :
    (decode { ex1Tables with wa := 2, adLen := [(0, 1), (1, 2)] } .coded [1,0,0,1,1] 0).toOption = none := by decide
theorem test_assemble_p1 :
    assemble ex1Tables [.hdrComp 1, .lit 0x61, .lit 0x62, .wmatch 4 2, .dmatch 2 1, .lit 0x00] = p1 := by decide
theorem test_unpack_p1 : (unpack [0x01, 0x1B, 0xBE, 0x70]).take 29 = p1 := by decide
theorem test_table_word_header : decodeTableWord 8 0x01 = some (.hdrComp 1) := by decide
theorem test_table_word_raw : decodeTableWord 16 0xFE00 = some (.raw 0xFE) := by decide

/-! ## Primitive operations (section 2.3) -/

theorem test_add_negative : (stateAfter (exec (.add 3 (-5)) p1I0)).yielded = .value (-2) := by decide
theorem test_mul_negative : (stateAfter (exec (.mul (-1) 4) p1I0)).yielded = .value (-4) := by decide
theorem test_mac_bit : (stateAfter (exec (.mac 1 2 3) p1I0)).yielded = .value 7 := by decide
theorem test_sub : (stateAfter (exec (.sub 26 29) p1I0)).yielded = .value (-3) := by decide
theorem test_select_one : (stateAfter (exec (.select 1 0x68 0x61) p1I0)).yielded = .value 0x68 := by decide
theorem test_select_two : (stateAfter (exec (.select 2 8 3) p1I0)).yielded = .value 13 := by decide
theorem test_isZero_negative : (stateAfter (exec (.isZero (-3)) p1I0)).yielded = .value 0 := by decide
theorem test_eq_same : (stateAfter (exec (.eq 29 29) p1I0)).yielded = .value 1 := by decide
theorem test_eq_other : (stateAfter (exec (.eq 0xFE 0xFF) p1I0)).yielded = .value 0 := by decide
theorem test_assertEq_passes : same (exec (.assertEq 3 3) p1I0) (.next p1I0) = true := by decide
theorem test_assertEq_fails :
    (stateAfter (exec (.assertEq 3 4) p1I0)).status =
      ⟨0, false, true, 2, .run, false, 0, 8, 0, 1, false⟩ := by decide
theorem test_assertBool_fails : (stateAfter (exec (.assertBool (-1)) p1I0)).fcode.number = 2 := by decide
theorem test_lookup_table : (stateAfter (exec (.lookup .lutCh 5) p1I0)).yielded = .entry 0xFE 2 := by decide +kernel
theorem test_lookup_src_own_output : (stateAfter (exec (.lookup .src 5) p1I2)).yielded = .value 0x61 := by decide +kernel
theorem test_lookup_src_misses : (stateAfter (exec (.lookup .src 7) p1I2)).finfo = .miss 2 7 := by decide +kernel
theorem test_lookup_bits_beyond : (stateAfter (exec (.lookup .bits 64) p1I0)).yielded = .value 0 := by decide +kernel
theorem test_insert :
    (stateAfter (exec (.insert 2 0x62) p1I2)).out = [(0, 0x61), (1, 0x62), (2, 0x62)] := by decide +kernel
theorem test_insert_elsewhere : same (exec (.insert 3 0x62) p1I2) (.refused .insertOutOfOrder) = true := by decide +kernel

/-! ## Bit reader and field decoders (section 2.5) -/

theorem test_win_header : (stateAfter (exec (.win 0 8) p1I0)).yielded = .value 1 := by decide +kernel
theorem test_win_across_the_end : (stateAfter (exec (.win 62 3) p1I0)).yielded = .value 0 := by decide +kernel
theorem test_dec_chars : (stateAfter (exec (.decChars 19) p1I0)).yielded = .entry 0xFF 3 := by decide +kernel
theorem test_dec_len : (stateAfter (exec (.decLen 22) p1I0)).yielded = .entry 1 2 := by decide +kernel
theorem test_dec_addr : (stateAfter (exec (.decAddr 24) p1I0)).yielded = .entry 1 2 := by decide +kernel

/-! ## Codes, tables, builder, payload (sections 2.1, 2.2, 2.4) -/

theorem test_codes_row1 :
    codes [(0,3),(1,3),(2,3),(3,3),(4,3),(5,2),(6,4),(7,4)] =
      [⟨5,2,0⟩, ⟨0,3,2⟩, ⟨1,3,3⟩, ⟨2,3,4⟩, ⟨3,3,5⟩, ⟨4,3,6⟩, ⟨6,4,14⟩, ⟨7,4,15⟩] := by decide
theorem test_complete_row1 : complete [(0,3),(1,3),(2,3),(3,3),(4,3),(5,2),(6,4),(7,4)] = true := by decide
theorem test_incomplete : complete [(0, 1), (1, 2)] = false := by decide
theorem test_oversubscribed : complete [(0, 1), (1, 1), (2, 1)] = false := by decide
theorem test_single_symbol : complete [(0, 1)] = false := by decide
theorem test_no_symbol : complete [] = false := by decide
theorem test_lut_ex1_chars :
    (List.range 8).map (fun k => lutAt ex1Tables.chLen 3 k) =
      [some (0x61,2), some (0x61,2), some (0x62,2), some (0x62,2), some (0xFE,2), some (0xFE,2), some (0x00,3),
        some (0xFF,3)] := by decide
theorem test_lut_ex2_addresses :
    (List.range 8).map (fun k => lutAt [(0,1),(1,2),(2,3),(3,3)] 3 k) =
      [some (0,1), some (0,1), some (0,1), some (0,1), some (1,2), some (1,2), some (2,3), some (3,3)] := by decide
theorem test_builder : buildLengths (fun _ _ => true) false (fun _ => []) [5, 2, 1, 1] = [(0,1),(1,2),(2,3),(3,3)] := by decide
theorem test_builder_shallow : buildLengths (fun _ _ => true) false (fun _ => []) [1, 1, 2, 2] = [(0,2),(1,2),(2,2),(3,2)] := by decide
theorem test_builder_shallow_other_tie :
    buildLengths (fun _ _ => false) false (fun _ => []) [1, 1, 2, 2] = [(0,2),(1,2),(2,2),(3,2)] := by decide
theorem test_payload_size :
    (serializeTables 2 ex1Tables.chLen ex1Tables.lnLen ex1Tables.adLen).map List.length = some 517 := by decide +kernel
theorem test_payload_tail :
    (serializeTables 2 ex1Tables.chLen ex1Tables.lnLen ex1Tables.adLen).map (List.drop 513) = some [2, 2, 2, 2] := by
  decide +kernel
theorem test_payload_code_too_long : serializeTables 2 [(0, 256)] [] [] = none := by decide +kernel
theorem test_augment_ex1 : augment .dictFirst 0xFE 0xFF [0x61, 0x62, 0x00] = exDict := by decide
theorem test_augment_present : augment .dictFirst 0xFE 0xFF [0xFE, 0xFF] = [0xFE, 0xFF] := by decide
theorem test_oracle_p1 :
    refDecompress (ex1 p1 29) = some [0x61,0x62,0x61,0x62,0x61,0x62,0x62,0x00,0x00] := by decide +kernel

/-! ## Header and records (sections 2.6 and 3) -/

theorem test_hdr_nocomp_bypass : (stateAfter (exec .hdrNocomp (ex1 p2 24))).byp = true := by decide +kernel
theorem test_hdr_comp_level : (stateAfter (exec (.hdrComp 1) (ex1 p1 29))).level = 1 := by decide +kernel
theorem test_raw_delimiter_value : (stateAfter (exec (.raw 0xFE) p2I0)).out = [(0, 0xFE)] := by decide +kernel
theorem test_lit_cursor : (stateAfter (exec (.lit 0x00) p1I8)).cur = 29 := by decide +kernel
theorem test_lit_end_of_stream : (stateAfter (exec (.lit 0x00) p1I8)).eof = true := by decide +kernel
theorem test_wmatch_overlap :
    (stateAfter (exec (.wmatch 4 2) p1I2)).out = Memory.ofBytes [0x61,0x62,0x61,0x62,0x61,0x62] := by decide +kernel
theorem test_wmatch_misses : (stateAfter (exec (.wmatch 1 1) m1I0)).finfo = .miss 0 4 := by decide +kernel
theorem test_dmatch :
    (stateAfter (exec (.dmatch 2 1) p1I6)).out = Memory.ofBytes [0x61,0x62,0x61,0x62,0x61,0x62,0x62,0x00] := by
  decide +kernel
theorem test_dmatch_cut_by_miss :
    (stateAfter (exec (.dmatch 3 3) (ex1Run m3 16 8 0 []))).finfo = .miss 2 5 := by decide +kernel

/-! ## Start step, iterations, host actions (sections 2.7 and 3) -/

theorem test_start_p1 : same (exec .start (ex1 p1 29)) (.next (ex1Run p1 29 8 0 [])) = true := by decide +kernel
theorem test_start_no_output :
    (stateAfter (exec .start { ex1 p1 29 with cfg := { (ex1 p1 29).cfg with outMax := 0 } })).phase = .done := by
  decide +kernel
theorem test_start_incomplete_lengths :
    (stateAfter (exec .start { ex1 p1 29 with tab := { ex1Tables with lnLen := [(0, 1), (1, 2)] } })).finfo =
      .config .lengthsIncomplete := by decide +kernel
theorem test_start_equal_delimiters :
    (stateAfter (exec .start { ex1 p1 29 with tab := { ex1Tables with delimD := 0xFE } })).fcode = .configInvalid := by
  decide +kernel
theorem test_start_max_input_above_out_max :
    (stateAfter (exec .start { ex1 p1 29 with cfg := { (ex1 p1 29).cfg with maxInput := 13 } })).finfo =
      .config .outMaxTooSmall := by decide +kernel
theorem test_start_nonboolean :
    (stateAfter (exec .start { ex1 p1 29 with loaded := (ex1 p1 29).loaded.set 9 2 })).finfo = .assertBool 2 := by
  decide +kernel
theorem test_iter_p1_window : (stateAfter (exec .iter p1I2)).rem = 3 := by decide +kernel
theorem test_iter_p1_window_last : (stateAfter (exec .iter p1I5)).cur = 19 := by decide +kernel
theorem test_iter_p1_dictionary : same (exec .iter p1I7) (.next p1I8) = true := by decide +kernel
theorem test_iter_p1_end : same (exec .iter p1I8) (.next p1I9) = true := by decide +kernel
theorem test_iter_p1_dead : (stateAfter (exec .iter p1I9)).out.read 9 = some 0 := by decide +kernel
theorem test_iter_m1 : same (exec .iter m1I0) (.next (takeFault m1I0 .lookupMiss (.miss 0 4))) = true := by decide +kernel
theorem test_iter_m3 : (stateAfter (exec .iter m3I2)).finfo = .miss 2 5 := by decide +kernel
theorem test_step_start_request :
    same (step { ex1 p1 29 with req := [.start] }) (.next p1I0) = true := by decide +kernel
theorem test_step_done : same (step { p1I0 with phase := .done }) (.fault .runOver) = true := by decide +kernel
theorem test_step_write_during_run :
    same (step { p1I0 with req := [.writeClen 3] }) (.refused .hostWriteDuringRun) = true := by decide +kernel
theorem test_step_configure_when_done :
    (stateAfter (step { p1I9 with phase := .done, req := [.configure { p1I9.cfg with outMax := 4 }] })).cfg.outMax = 4 := by
  decide +kernel
theorem test_step_load_keeps_the_entries_beyond :
    (stateAfter (step { ex1 p1 29 with req := [.writeDict [7]] })).dict = Memory.ofBytes [7, 0x62, 0x00, 0xFF, 0xFE] := by
  decide +kernel
theorem test_fetch_word_header :
    same (step (State.reset.withFetchWord 8 0x01)) (exec (.hdrComp 1) (State.reset.withFetchWord 8 0x01)) = true := by decide +kernel
theorem test_fetch_word_raw : (stateAfter (step (State.reset.withFetchWord 16 0xFE00))).out = [(0, 0xFE)] := by
  decide +kernel

/-! ## Witnesses: for every obligation with hypotheses, states and operands that meet them, at the ends of ranges -/

theorem ex1_memInv (c : List Int) (clen : Nat) : (ex1 c clen).MemInv where
  outWf := rfl
  dictWf := Memory.wf_ofBytes exDict
  written k := by simp [ex1, State.reset]
  olenLive _ := rfl
  olenBound := le_refl _
  faultCode := by simp [ex1, State.reset]
  idle _ := ⟨rfl, rfl, rfl, rfl, rfl⟩
  running h := by simp [ex1, State.reset] at h

theorem ex1Run_memInv (c : List Int) (clen cur rem : Nat) (out : List Byte) (h : out.length < 12) :
    (ex1Run c clen cur rem out).MemInv where
  outWf := Memory.wf_ofBytes out
  dictWf := Memory.wf_ofBytes exDict
  written k := by
    show ((Memory.ofBytes out).read k).isSome = decide (k < out.length)
    rw [Memory.read_ofBytes]
    by_cases hk : k < out.length <;> simp [hk]
  olenLive _ := rfl
  olenBound := le_refl _
  faultCode := by simp [ex1Run, ex1, State.reset]
  idle hp := by simp [ex1Run] at hp
  running _ := h

/-- The copy clause of RunInv, as a test. -/
def copyOk (s : State) : Bool :=
  match fieldsAt s with
  | .ok f => decide ((wires s f).isM = 1 ∧ (s.rem : Int) < (wires s f).mlen)
  | .error _ => false

theorem copy_of_copyOk {s : State} (h : copyOk s = true) :
    ∃ f, fieldsAt s = .ok f ∧ (wires s f).isM = 1 ∧ (s.rem : Int) < (wires s f).mlen := by
  unfold copyOk at h
  split at h
  · rename_i f hf
    exact ⟨f, hf, by simpa using h⟩
  · cases h

/-- RunInv by evaluation. -/
theorem runInv_of {s : State} (hv : s.Valid)
    (h : (s.level = toByte (s.win 0 8) ∧ s.byp = (s.level == 0)) ∧ (s.eof = true → s.rem = 0) ∧
      (s.eof = true ↔ s.cur = s.clen) ∧ s.rem ≤ 255 ∧ 8 ≤ s.cur ∧
      s.cur ≤ 8 + s.i * max 8 (s.tab.wc + s.tab.wl + s.tab.wa)) (hc : s.rem = 0 ∨ copyOk s = true) : s.RunInv :=
  ⟨hv, h.1, h.2.1, h.2.2.1, h.2.2.2.1, h.2.2.2.2.1, h.2.2.2.2.2,
    fun hr => hc.elim (fun h0 => absurd h0 (Nat.pos_iff_ne_zero.mp hr)) copy_of_copyOk⟩

theorem valid_p1 : (ex1 p1 29).Valid := by decide +kernel

/-- Inv of a state in the middle of a run, from evaluation. -/
theorem inv_of_run {c : List Int} {clen cur rem : Nat} {out : List Byte} (hl : out.length < 12)
    (h : (ex1Run c clen cur rem out).RunInv) : (ex1Run c clen cur rem out).Inv :=
  ⟨rfl, ex1Run_memInv _ _ _ _ _ hl, fun _ => h⟩

theorem inv_p1I0 : p1I0.Inv := inv_of_run (by decide) (runInv_of (by decide +kernel) (by decide +kernel) (.inl rfl))
theorem inv_p1I2 : p1I2.Inv := inv_of_run (by decide) (runInv_of (by decide +kernel) (by decide +kernel) (.inl rfl))
theorem inv_p1I4 : p1I4.Inv := inv_of_run (by decide) (runInv_of (by decide +kernel) (by decide +kernel) (.inr (by decide +kernel)))
theorem inv_p1I5 : p1I5.Inv := inv_of_run (by decide) (runInv_of (by decide +kernel) (by decide +kernel) (.inr (by decide +kernel)))
theorem inv_p1I6 : p1I6.Inv := inv_of_run (by decide) (runInv_of (by decide +kernel) (by decide +kernel) (.inl rfl))
theorem inv_p1I7 : p1I7.Inv := inv_of_run (by decide) (runInv_of (by decide +kernel) (by decide +kernel) (.inr (by decide +kernel)))
theorem inv_p1I8 : p1I8.Inv := inv_of_run (by decide) (runInv_of (by decide +kernel) (by decide +kernel) (.inl rfl))
theorem inv_p1I9 : p1I9.Inv := inv_of_run (by decide) (runInv_of (by decide +kernel) (by decide +kernel) (.inl rfl))
theorem inv_p2I0 : p2I0.Inv := inv_of_run (by decide) (runInv_of (by decide +kernel) (by decide +kernel) (.inl rfl))
theorem inv_m1I0 : m1I0.Inv := inv_of_run (by decide) (runInv_of (by decide +kernel) (by decide +kernel) (.inl rfl))
theorem inv_m3I2 : m3I2.Inv := inv_of_run (by decide) (runInv_of (by decide +kernel) (by decide +kernel) (.inr (by decide +kernel)))

/-- What the decoder reads at CUR. -/
def here (s : State) : Option (Instr × Nat) := (decode s.tab (recordMode s.byp) s.bits s.cur).toOption

theorem decode_of_here {s : State} {i : Instr} {n : Nat} (h : here s = some (i, n)) :
    decode s.tab (recordMode s.byp) s.bits s.cur = .ok (i, n) := by
  unfold here at h
  cases hd : decode s.tab (recordMode s.byp) s.bits s.cur with
  | error e => rw [hd] at h; simp [Except.toOption] at h
  | ok x => rw [hd] at h; simp [Except.toOption] at h; rw [h]

/-- In a live run with no fault. -/
def live (s : State) : Bool := decide (s.phase = .run) && !s.fault && !s.eof

/-- A record may be executed: live, no copy in progress, cursor not at CLEN. -/
def fresh (s : State) : Bool := live s && decide (s.rem = 0) && decide (s.cur ≠ s.clen)

/-- A state that has taken a fault. -/
def faulted : State := takeFault p1I2 .lookupMiss (.miss 2 7)

theorem hyps_AssertionsPassOrTakeAssertFail :
    (3 : Int) = 3 ∧ (3 : Int) ≠ 4 ∧ p1I0.fault = false ∧ ((0 : Int) = 0 ∨ (0 : Int) = 1) ∧ (-1 : Int) ≠ 0 ∧ (-1 : Int) ≠ 1 ∧
      (2 : Int) ≠ 0 ∧ (2 : Int) ≠ 1 := by decide

theorem hyps_FirstFaultIsKept : faulted.fault = true ∧ exec (.assertEq 3 4) faulted = .next faulted := ⟨rfl, rfl⟩

theorem hyps_LookupYieldsTheEntryHeld :
    (p1I2.bits[0]? = some 0 ∧ p1I2.bits[63]? = some 0 ∧ p1I2.nbits ≤ 64) ∧ (7 < p1I2.nbits ∧ p1I2.loaded[7]? = some 1) ∧
      (let s : State := { p1I2 with loaded := p1 }; 29 < s.nbits ∧ s.loaded.length ≤ 29) ∧
      (0 < p1I2.dictLen ∧ p1I2.dict.read 0 = some 0x61) ∧ (4 < p1I2.dictLen ∧ p1I2.dict.read 4 = some 0xFE) ∧
      (0 < p1I2.i ∧ p1I2.i ≤ p1I2.cfg.outMax ∧ p1I2.out.read 0 = some 0x61) ∧ (1 < p1I2.i ∧ p1I2.out.read 1 = some 0x62) ∧
      lutAt p1I2.tab.chLen p1I2.tab.wc 0 = some (0x61, 2) ∧ lutAt p1I2.tab.chLen p1I2.tab.wc 7 = some (0xFF, 3) ∧
      lutAt p1I2.tab.lnLen p1I2.tab.wl 7 = some (3, 3) ∧ lutAt p1I2.tab.adLen p1I2.tab.wa 3 = some (3, 2) := by
  decide +kernel

theorem hyps_LookupOfNoValueTakesLookupMiss :
    p1I2.fault = false ∧ (-1 : Int) < 0 ∧ (p1I2.dictLen : Int) + p1I2.i ≤ 7 ∧ (p1I2.dictLen : Int) ≤ 5 ∧
      p1I2.out.read (Int.toNat 2) = none ∧ (p1I2.cfg.outMax : Int) ≤ 12 ∧ lutAt p1I2.tab.chLen p1I2.tab.wc 8 = none ∧
      lutAt p1I2.tab.lnLen p1I2.tab.wl (-1) = none ∧ lutAt p1I2.tab.adLen p1I2.tab.wa 4 = none := by decide +kernel

theorem hyps_SourceKeysHeldAreDictionaryAndWritten : p1I2.MemInv ∧ p1I2.i ≤ p1I2.cfg.outMax := ⟨inv_p1I2.mem, by decide⟩

theorem hyps_InsertWritesEntryI :
    (p1I0.phase = .run ∧ p1I0.fault = false ∧ p1I0.i < p1I0.cfg.outMax ∧ p1I0.out.read p1I0.i = none) ∧
      (p1I2.phase = .run ∧ p1I2.fault = false ∧ p1I2.i < p1I2.cfg.outMax ∧ p1I2.out.read p1I2.i = none) := by decide +kernel

theorem hyps_InsertElsewhereIsRefused :
    p1I2.phase = .run ∧ p1I2.fault = false ∧ (3 : Int) ≠ p1I2.i ∧ (1 : Int) ≠ p1I2.i ∧
      { p1I2 with i := 1 }.out.read { p1I2 with i := 1 }.i ≠ none := by decide +kernel

theorem hyps_FieldDecodersYieldUsedSymbols : p1I2.Valid := (inv_p1I2.run rfl).valid

theorem complete_ex1 :
    CompleteTable 256 ex1Tables.chLen ∧ CompleteTable 256 ex1Tables.lnLen ∧ CompleteTable (2 ^ 2) ex1Tables.adLen := by
  decide +kernel

theorem hyps_EveryKeyHasExactlyOneEntry :
    CompleteTable 256 ex1Tables.chLen ∧ (0 : Int) ≤ 0 ∧ (7 : Int) < 2 ^ maxLen ex1Tables.chLen := by decide +kernel

theorem hyps_CanonicalCodesFillTheCodeSpace :
    CompleteTable 8 [(0,3),(1,3),(2,3),(3,3),(4,3),(5,2),(6,4),(7,4)] ∧ CompleteTable 2 [(0, 1), (1, 1)] ∧
      (codes [(0, 1), (1, 1)])[0]? = some ⟨0, 1, 0⟩ ∧ (codes [(0, 1), (1, 1)])[0 + 1]? = some ⟨1, 1, 1⟩ := by decide

theorem hyps_FieldDecodeAgreesWithReferenceReader :
    CompleteTable 256 ex1Tables.chLen ∧ BooleanArray (ex1 p1 29).bits := by decide +kernel

theorem hyps_DecodeTreeIsBuiltAndWalksAlike : CompleteTable 256 ex1Tables.lnLen ∧ BooleanArray p1 := by decide +kernel

theorem hyps_BuilderGivesCompleteTables :
    2 ≤ weighted [5, 2, 1, 1] ∧ 2 ≤ weighted [0, 7, 1] ∧ weighted [0, 7] < 2 ∧ weighted [] < 2 := by decide

theorem tablesOk_ex1 : TablesOk ex1Tables := by decide +kernel

theorem hyps_DecodeOfEncodeIsTheInstruction :
    TablesOk ex1Tables ∧ (Instr.wmatch 4 4).wf ex1Tables = true ∧ (Instr.wmatch 4 4).mode? = some .coded ∧
      (Instr.dmatch 1 0).wf ex1Tables = true ∧ (Instr.lit 0).wf ex1Tables = true ∧ Instr.hdrNocomp.wf ex1Tables = true ∧
      (Instr.hdrComp 255).wf ex1Tables = true ∧ (Instr.raw 0xFE).mode? = some .raw ∧ BooleanArray p1 := by decide +kernel

theorem hyps_EveryPositionDecodesToItsEncoding : TablesOk ex1Tables ∧ BooleanArray p1 := by decide +kernel

theorem hyps_PayloadReadsBack :
    shaped 256 ex1Tables.chLen = true ∧ shaped 256 ex1Tables.lnLen = true ∧ shaped (2 ^ 2) ex1Tables.adLen = true ∧
      (serializeTables 2 ex1Tables.chLen ex1Tables.lnLen ex1Tables.adLen).isSome = true := by decide +kernel

theorem hyps_HeaderBeginsTheRun : (ex1 p1 29).phase = .idle ∧ (ex1 p1 29).fault = false ∧ (1 : Byte) ≠ 0 := by decide

theorem hyps_RawAndLiteralAppendTheirByte :
    (p2I0.MemInv ∧ fresh p2I0 = true ∧ p2I0.byp = true) ∧
      (p1I8.MemInv ∧ fresh p1I8 = true ∧ p1I8.byp = false ∧ (0 : Byte) ≠ p1I8.tab.delimW ∧ (0 : Byte) ≠ p1I8.tab.delimD ∧
        0 < codeLen p1I8.tab.chLen 0) :=
  ⟨⟨inv_p2I0.mem, by decide +kernel⟩, inv_p1I8.mem, by decide +kernel⟩

theorem hyps_WindowMatchAppendsEarlierOutput :
    p1I2.MemInv ∧ fresh p1I2 = true ∧ p1I2.byp = false ∧ (Instr.wmatch 4 2).wf p1I2.tab = true ∧ 2 ≤ p1I2.i ∧
      p1I2.i + 4 ≤ p1I2.cfg.outMax := ⟨inv_p1I2.mem, by decide +kernel⟩

theorem hyps_DictionaryMatchAppendsDictionaryBytes :
    p1I6.MemInv ∧ fresh p1I6 = true ∧ p1I6.byp = false ∧ (Instr.dmatch 2 3).wf p1I6.tab = true ∧ 3 + 2 ≤ p1I6.dictLen ∧
      p1I6.i + 2 ≤ p1I6.cfg.outMax := ⟨inv_p1I6.mem, by decide +kernel⟩

theorem hyps_MatchOfNoValueTakesLookupMiss :
    fresh m1I0 = true ∧ m1I0.byp = false ∧ (Instr.wmatch 1 1).wf m1I0.tab = true ∧ m1I0.i < 1 ∧
      (let s : State := { m1I0 with dictLen := 3 }
       fresh s = true ∧ (Instr.dmatch 1 3).wf s.tab = true ∧ s.dictLen ≤ 3) := by decide +kernel

theorem hyps_RecordExecutionRefinesTheOracle :
    p1I2.MemInv ∧ TablesOk p1I2.tab ∧ p1I2.recordReady p1I2.byp = true ∧
      Represents p1I2 { cur := 12, out := [0x61, 0x62], byp := false } ∧
      decode p1I2.tab (recordMode p1I2.byp) p1I2.bits p1I2.cur = .ok (.wmatch 4 2, 7) ∧
      applyRecord p1I2 (.wmatch 4 2) 7 { cur := 12, out := [0x61, 0x62], byp := false } =
        some { cur := 19, out := [0x61, 0x62, 0x61, 0x62, 0x61, 0x62], byp := false } ∧ 6 ≤ p1I2.cfg.outMax :=
  ⟨inv_p1I2.mem, by decide +kernel, by decide +kernel,
    ⟨rfl, by decide +kernel, rfl, fun k _ => by show (Memory.ofBytes [0x61, 0x62]).read k = _; rw [Memory.read_ofBytes]⟩,
    decode_of_here (by decide +kernel), by decide +kernel, by decide +kernel⟩

theorem hyps_StartBeginsTheRun : (ex1 p1 29).phase = .idle ∧ (ex1 p1 29).fault = false ∧ (ex1 p1 29).Valid :=
  ⟨rfl, rfl, valid_p1⟩

/-- EX1 with other tables. -/
def ex1With (t : Tables) : State := { ex1 p1 29 with tab := t }

theorem hyps_InvalidConfigurationTakesConfigInvalid :
    (ex1 p1 29).phase = .idle ∧ (ex1 p1 29).fault = false ∧
      ¬ CompleteTable 256 (ex1With { ex1Tables with chLen := [] }).tab.chLen ∧
      ¬ CompleteTable 256 (ex1With { ex1Tables with lnLen := [(0, 1), (1, 2)] }).tab.lnLen ∧
      ¬ CompleteTable (2 ^ 2) (ex1With { ex1Tables with adLen := [(0, 1)] }).tab.adLen ∧
      2 < maxLen (ex1 p1 29).tab.chLen ∧ 2 < maxLen (ex1 p1 29).tab.lnLen ∧ 1 < maxLen (ex1 p1 29).tab.adLen ∧
      (ex1With { ex1Tables with delimD := 0xFE }).tab.delimW = (ex1With { ex1Tables with delimD := 0xFE }).tab.delimD ∧
      { ex1 p1 29 with dictLen := 1 }.dictLen < 2 ∧
      (let c : Config := { (ex1 p1 29).cfg with nbits := 7, maxInput := 13 }
       c.nbits < 8 ∧ c.nbits % 8 ≠ 0 ∧ c.outMax < c.maxInput) ∧
      255 < (ex1With { ex1Tables with alog2 := 256 }).tab.alog2 ∧
      (ex1With { ex1Tables with wc := 4 }).tab.wc ≠ maxLen ex1Tables.chLen ∧
      (ex1With { ex1Tables with wl := 2 }).tab.wl ≠ maxLen ex1Tables.lnLen ∧
      (ex1With { ex1Tables with wa := 3 }).tab.wa ≠ maxLen ex1Tables.adLen ∧
      (ex1 p1 29).tab.alog2 < { (ex1 p1 29).cfg with awWin := 3 }.awWin ∧
      (ex1 p1 29).tab.alog2 < { (ex1 p1 29).cfg with awDict := 3 }.awDict ∧
      (let s : State := { ex1 p1 29 with dict := Memory.ofBytes [0x61, 0x62, 0x00, 0xFF, 0x61] }
       ∀ k, k < s.dictLen → s.dictByte k ≠ s.tab.delimW) ∧
      (let s : State := { ex1 p1 29 with dictLen := 3 }; ∀ k, k < s.dictLen → s.dictByte k ≠ s.tab.delimD) := by
  decide +kernel

theorem hyps_InvalidConfigurationTakesConfigInvalid_valid :
    let s := ex1 p1 29
    TablesOk s.tab ∧ maxLen s.tab.chLen ≤ min s.cfg.wmax 255 ∧ maxLen s.tab.lnLen ≤ min s.cfg.wmax 255 ∧
      maxLen s.tab.adLen ≤ min s.cfg.wmax 255 ∧ 2 ≤ s.dictLen ∧ 8 ≤ s.cfg.nbits ∧ s.cfg.nbits % 8 = 0 ∧ s.tab.alog2 ≤ 255 ∧
      s.cfg.awWin ≤ s.tab.alog2 ∧ s.cfg.awDict ≤ s.tab.alog2 ∧ s.cfg.maxInput ≤ s.cfg.outMax ∧
      (4 < s.dictLen ∧ s.dictByte 4 = s.tab.delimW) ∧ (3 < s.dictLen ∧ s.dictByte 3 = s.tab.delimD) := by decide +kernel

theorem hyps_FirstNonBooleanEntryTakesAssertFail :
    let s := { ex1 p1 29 with loaded := (ex1 p1 29).loaded.set 0 (-1) }
    s.phase = .idle ∧ s.fault = false ∧ configCheck s = none ∧ s.bits[0]? = some (-1) ∧ (-1 : Int) ≠ 0 ∧ (-1 : Int) ≠ 1 ∧
      (∀ j a, j < 0 → s.bits[j]? = some a → a = 0 ∨ a = 1) :=
  ⟨rfl, rfl, by decide +kernel, by decide +kernel, by decide, by decide, fun _ _ h => absurd h (Nat.not_lt_zero _)⟩

theorem hyps_StartExecutesTheHeader :
    (ex1 p1 29).MemInv ∧ (ex1 p1 29).phase = .idle ∧ (ex1 p1 29).fault = false ∧ (ex1 p1 29).Valid :=
  ⟨ex1_memInv _ _, rfl, rfl, valid_p1⟩

theorem hyps_IterationOfOneByteRecord :
    (p2I0.Inv ∧ live p2I0 = true ∧ decode p2I0.tab (recordMode p2I0.byp) p2I0.bits p2I0.cur = .ok (.raw 0x68, 8)) ∧
      (p1I8.Inv ∧ live p1I8 = true ∧ decode p1I8.tab (recordMode p1I8.byp) p1I8.bits p1I8.cur = .ok (.lit 0x00, 3)) :=
  ⟨⟨inv_p2I0, by decide +kernel, decode_of_here (by decide +kernel)⟩,
    inv_p1I8, by decide +kernel, decode_of_here (by decide +kernel)⟩

theorem hyps_IterationOfMatchCopiesOneByte :
    (p1I2.Inv ∧ live p1I2 = true ∧ decode p1I2.tab (recordMode p1I2.byp) p1I2.bits p1I2.cur = .ok (.wmatch 4 2, 7) ∧
      2 ≤ p1I2.i ∧ p1I2.out.read (p1I2.i - 2) = some 0x61) ∧
    (p1I5.Inv ∧ live p1I5 = true ∧ decode p1I5.tab (recordMode p1I5.byp) p1I5.bits p1I5.cur = .ok (.wmatch 4 2, 7) ∧
      p1I5.toGo 4 = 1 ∧ p1I5.out.read (p1I5.i - 2) = some 0x62) ∧
    (p1I6.Inv ∧ live p1I6 = true ∧ decode p1I6.tab (recordMode p1I6.byp) p1I6.bits p1I6.cur = .ok (.dmatch 2 1, 7) ∧
      1 + (2 - p1I6.toGo 2) < p1I6.dictLen) ∧
    (p1I7.Inv ∧ live p1I7 = true ∧ decode p1I7.tab (recordMode p1I7.byp) p1I7.bits p1I7.cur = .ok (.dmatch 2 1, 7) ∧
      1 + (2 - p1I7.toGo 2) < p1I7.dictLen) :=
  ⟨⟨inv_p1I2, by decide +kernel, decode_of_here (by decide +kernel), by decide +kernel⟩,
    ⟨inv_p1I5, by decide +kernel, decode_of_here (by decide +kernel), by decide +kernel⟩,
    ⟨inv_p1I6, by decide +kernel, decode_of_here (by decide +kernel), by decide +kernel⟩,
    ⟨inv_p1I7, by decide +kernel, decode_of_here (by decide +kernel), by decide +kernel⟩⟩

theorem hyps_DeadIterationWritesZero : p1I9.Inv ∧ p1I9.phase = .run ∧ p1I9.fault = false ∧ p1I9.eof = true :=
  ⟨inv_p1I9, rfl, rfl, rfl⟩

theorem hyps_IterationMissTakesLookupMiss :
    (m1I0.Inv ∧ live m1I0 = true ∧ decode m1I0.tab (recordMode m1I0.byp) m1I0.bits m1I0.cur = .ok (.wmatch 1 1, 5) ∧
      m1I0.i < 1) ∧
    (m3I2.Inv ∧ live m3I2 = true ∧ decode m3I2.tab (recordMode m3I2.byp) m3I2.bits m3I2.cur = .ok (.dmatch 3 3, 8) ∧
      m3I2.dictLen ≤ 3 + (3 - m3I2.toGo 3)) :=
  ⟨⟨inv_m1I0, by decide +kernel, decode_of_here (by decide +kernel), by decide +kernel⟩,
    ⟨inv_m3I2, by decide +kernel, decode_of_here (by decide +kernel), by decide +kernel⟩⟩

theorem hyps_RecordIsItsIterations :
    p1I2.Inv ∧ live p1I2 = true ∧ p1I2.rem = 0 ∧
      decode p1I2.tab (recordMode p1I2.byp) p1I2.bits p1I2.cur = .ok (.wmatch 4 2, 7) :=
  ⟨inv_p1I2, by decide +kernel, rfl, decode_of_here (by decide +kernel)⟩

/-- An iteration that completes, from an enabled state. -/
theorem next_of_isNext {r : Result} {t : State} (h : same r (.next t) = true) : r = .next t := by
  unfold same at h
  split at h <;> simp_all

theorem hyps_IterationWiresFollowTheRules :
    fieldsAt p1I2 = .ok { s := 0xFE, ls := 2, lv := 3, ll := 3, av := 1, la := 2 } ∧
      fieldsAt p2I0 = .ok { s := 0x68, ls := 8, lv := 0, ll := 1, av := 3, la := 2 } ∧ p1I2.tab.delimW ≠ p1I2.tab.delimD :=
  ⟨rfl, rfl, by decide⟩

theorem hyps_IterationUpdatesTheRegisters :
    p1I8.fault = false ∧ exec .iter p1I8 = .next p1I9 ∧ p1I9.fault = false :=
  ⟨rfl, next_of_isNext test_iter_p1_end, rfl⟩

theorem hyps_CursorNeverDecreasesAndEofStays :
    exec .iter p1I8 = .next p1I9 ∧ ∃ t, exec .iter p1I9 = .next t ∧ p1I9.eof = true :=
  ⟨next_of_isNext test_iter_p1_end, _, rfl, rfl⟩

theorem hyps_WiresStayInTheirBounds : p1I4.Inv ∧ p1I4.phase = .run := ⟨inv_p1I4, rfl⟩

theorem hyps_IndicatorPolynomialsAreComparisons : (0xFE : Int) ≠ 0xFF := by decide

theorem hyps_IterationOperationCounts : (iterTrace p1I2).isSome = true := by decide +kernel

theorem hyps_IterationSequenceIsDataIndependent :
    p1I0.tab.wc = p1I9.tab.wc ∧ p1I0.tab.wl = p1I9.tab.wl ∧ p1I0.tab.wa = p1I9.tab.wa ∧
      (iterTrace p1I0).isSome = true ∧ (iterTrace p1I9).isSome = true := by decide +kernel

theorem hyps_IterationWritesWhatItsSequenceInserts :
    p1I8.fault = false ∧ exec .iter p1I8 = .next p1I9 ∧ p1I9.fault = false :=
  ⟨rfl, next_of_isNext test_iter_p1_end, rfl⟩

/-- P1 at record level. -/
def p1Record : State := { ex1 p1 29 with view := .record }
def p1RecordI2 : State := { p1I2 with view := .record }

theorem hyps_StepRunsTheDecodedInstruction :
    (p1Record.req = [] ∧ p1Record.view = .record ∧ p1Record.fault = false ∧ p1Record.phase = .idle ∧
      (decode p1Record.tab .header p1Record.bits 0).toOption = some (.hdrComp 1, 8)) ∧
    (p1RecordI2.req = [] ∧ p1RecordI2.view = .record ∧ p1RecordI2.fault = false ∧ p1RecordI2.phase = .run ∧
      p1RecordI2.eof = false ∧ here p1RecordI2 = some (.wmatch 4 2, 7)) := by decide +kernel

theorem hyps_SequencerStepsByPhase :
    { ex1 p1 29 with req := [.start] }.req = .start :: [] ∧ (p1I0.view = .hardware ∧ p1I0.req = [] ∧ p1I0.fault = false ∧
      p1I0.phase = .run) ∧ ((ex1 p1 29).req = [] ∧ (ex1 p1 29).fault = false ∧ (ex1 p1 29).phase = .idle) ∧
      ({ p1I0 with phase := .done }.req = [] ∧ { p1I0 with phase := .done }.phase = .done) ∧
      (faulted.req = [] ∧ faulted.fault = true ∧ faulted.view = .hardware) := by decide +kernel

theorem hyps_StepRowsNeedTheirPhase : p1I0.phase ≠ .idle ∧ (ex1 p1 29).phase ≠ .run ∧ faulted.fault = true := by
  decide +kernel

theorem hyps_StepRowsNeedTheirPhase_others :
    p1I0.phase ≠ .idle ∧ faulted.fault = true ∧ ((ex1 p1 29).phase = .idle ∧ (ex1 p1 29).fault = false) ∧
      p1I9.eof = true ∧ p1I4.rem ≠ 0 ∧ p1I9.cur = p1I9.clen ∧ p1I0.byp = false ∧ p2I0.byp = true ∧
      (fresh p1I0 = true ∧ p1I0.byp = false ∧ (Instr.wmatch 5 1).mode? = some .coded ∧
        (Instr.wmatch 5 1).wf p1I0.tab = false) ∧
      (0xFE : Byte) = p1I0.tab.delimW ∧ (0xFF : Byte) = p1I0.tab.delimD ∧ codeLen p1I0.tab.chLen 0x63 = 0 := by
  decide +kernel

theorem hyps_ResetRestoresTheWorkingRegisters : { faulted with req := [.reset] }.req = .reset :: [] := rfl

theorem hyps_HostWritesAreRefusedDuringRun :
    { p1I0 with req := [.writeClen 3] }.req = .writeClen 3 :: [] ∧ p1I0.phase = .run ∧
      HostReq.writeClen 3 ≠ .reset ∧ HostReq.writeClen 3 ≠ .start := by decide

theorem hyps_HostWritesComeInAnyOrder :
    (ex1 p1 29).phase ≠ .run ∧ (HostReq.writeBits p1).writes ≠ none ∧ (HostReq.configure (ex1 p1 29).cfg).writes ≠ none ∧
      (HostReq.writeBits p1).writes ≠ (HostReq.configure (ex1 p1 29).cfg).writes := by decide

theorem hyps_NoInstructionChangesTheInputs : exec .iter p1I8 = .next p1I9 := next_of_isNext test_iter_p1_end

theorem hyps_OutputIsAppendOnly : p1I8.MemInv ∧ p1I8.req = [] ∧ step p1I8 = .next p1I9 :=
  ⟨inv_p1I8.mem, rfl, next_of_isNext test_iter_p1_end⟩

theorem hyps_StepKeepsMemoryInvariant : p1I8.MemInv ∧ step p1I8 = .next p1I9 :=
  ⟨inv_p1I8.mem, next_of_isNext test_iter_p1_end⟩

theorem hyps_StepKeepsRunInvariant : p1I8.Inv ∧ step p1I8 = .next p1I9 :=
  ⟨inv_p1I8, next_of_isNext test_iter_p1_end⟩

theorem hyps_StepKeepsRunInvariant_done :
    p1I8.Inv ∧ p1I8.DoneInv ∧ (∀ c rest, p1I8.req ≠ .configure c :: rest) ∧ step p1I8 = .next p1I9 :=
  ⟨inv_p1I8, ⟨(fun h => nomatch h), (fun h => nomatch h)⟩, (fun _ _ h => nomatch h), next_of_isNext test_iter_p1_end⟩

theorem hyps_RunEndsAfterOutMaxIterations : p1I0.Inv ∧ p1I0.phase = .run ∧ p1I0.fault = false := ⟨inv_p1I0, rfl, rfl⟩

/-- The end of P4a under EX1/0: PHASE = DONE at once (section 2.7). -/
def doneEmpty : State :=
  { ex1 p4 8 with cfg := { (ex1 p4 8).cfg with outMax := 0 }, phase := .done, eof := true, level := 1 }

theorem hyps_ResultIsReadAtACompleteEnd :
    doneEmpty.MemInv ∧ doneEmpty.phase = .done ∧ doneEmpty.fault = false ∧ doneEmpty.eof = true ∧ p1I2.MemInv ∧
      p1I2.phase ≠ .done ∧ faulted.fault = true ∧ 1 < p1I2.cfg.outMax ∧ p1I2.out.read 1 = some 0x62 ∧ p1I2.i ≤ 2 :=
  let h := ex1_memInv p4 8
  ⟨⟨h.outWf, h.dictWf, h.written, (fun h => nomatch h), h.olenBound, h.faultCode, (fun h => nomatch h),
    (fun h => nomatch h)⟩,
    rfl, rfl, rfl, inv_p1I2.mem, by decide, rfl, by decide, by decide +kernel, by decide⟩

/-- The payload of EX1 (section 2.1). -/
def ex1Payload : List Byte := 2 :: (lengthBytes 256 ex1Tables.chLen ++ lengthBytes 256 ex1Tables.lnLen ++ [2, 2, 2, 2])

theorem hyps_BootActionsLoadTheConfiguration :
    State.reset.phase ≠ .run ∧ doneEmpty.phase ≠ .run ∧ State.reset.needsReset = false ∧ doneEmpty.needsReset = true ∧
      parseTables ex1Payload = some (2, ex1Tables.chLen, ex1Tables.lnLen, ex1Tables.adLen) ∧
      8 * [0x01, 0x1B, 0xBE, 0x70].length ≤ 64 ∧
      (ex1 p1 29).cfg.nbits = 64 ∧
      (bootRequests doneEmpty (ex1 p1 29).cfg 0xFE 0xFF [0x61, 0x62, 0x00] ex1Payload [0x01, 0x1B, 0xBE, 0x70] 29).isSome =
        true := by
  decide +kernel

/-- P1 with the start request pending. -/
def p1Requested : State := { ex1 p1 29 with req := [.start] }

theorem p1Requested_memInv : p1Requested.MemInv :=
  let h := ex1_memInv p1 29
  ⟨h.outWf, h.dictWf, h.written, h.olenLive, h.olenBound, h.faultCode, h.idle, h.running⟩

theorem hyps_RunAgreesWithTheOracle :
    p1Requested.MemInv ∧ p1Requested.view = .hardware ∧ p1Requested.req = [.start] ∧ p1Requested.phase = .idle ∧
      p1Requested.fault = false ∧ p1Requested.Valid ∧ wellFormedStream p1Requested = true :=
  ⟨p1Requested_memInv, rfl, rfl, rfl, rfl, valid_p1, by decide +kernel⟩

/-- The bits of P1 with ones as padding. -/
def p1Padded : List Int := p1 ++ List.replicate 35 1

theorem padded_ok :
    BooleanArray { p1Requested with loaded := p1Padded }.bits ∧
      ∀ k, k < p1Requested.clen → bitAt { p1Requested with loaded := p1Padded }.bits k = bitAt p1Requested.bits k := by
  decide +kernel

theorem hyps_OracleResultOfWellFormedPairs :
    wellFormedStream p1Requested = true ∧ ¬ { p1Requested with tab := { ex1Tables with chLen := [(0x61, 1)] } }.Valid := by
  decide +kernel

theorem hyps_WellFormedRunStaysInBounds :
    p1Requested.MemInv ∧ p1Requested.Valid ∧ wellFormedStream p1Requested = true ∧
      Host.Core.run core 1 p1Requested = .next p1I0 ∧ p1I0.phase = .run :=
  ⟨p1Requested_memInv, valid_p1, by decide +kernel,
    next_of_isNext (r := Host.Core.run core 1 p1Requested) (by decide +kernel), rfl⟩

theorem hyps_PaddingDoesNotMatter :
    p1Requested.MemInv ∧ p1Requested.Valid ∧ wellFormedStream p1Requested = true ∧
      BooleanArray { p1Requested with loaded := p1Padded }.bits ∧ Host.Core.run core 1 p1Requested = .next p1I0 :=
  ⟨p1Requested_memInv, valid_p1, by decide +kernel, padded_ok.1,
    next_of_isNext (r := Host.Core.run core 1 p1Requested) (by decide +kernel)⟩

end Sys2Proof.Tests
end

/-! PROOFS of spec/00_scope.md: an iteration and its sequence of primitive operations (O42). -/

namespace Sys2Proof.Machine

/-- ITER answers next exactly as one pass of the datapath does, while it is enabled (R180). -/
theorem exec_iter_next {s t : State} : exec .iter s = .next t ↔ s.enabled = true ∧ iterate s = .next t := by
  cases h : s.enabled <;> simp [exec, execIter, h]

/-- The fields need the chars field at CUR, from which the length field's position comes (R182, R183). -/
theorem exists_decChars_of_fieldsAt {s : State} {f : Fields} (hf : fieldsAt s = .ok f) :
    ∃ sh lsh, decChars s s.cur = some (sh, lsh) := by
  cases hc : decChars s s.cur with
  | none => simp [fieldsAt, hc] at hf
  | some e => exact ⟨e.1, e.2, rfl⟩

/-- An iteration that takes no fault found its fields and its source byte, and wrote the multiplexed byte at I
(R189 to R191). -/
theorem iterate_next_noFault {s t : State} (h : iterate s = .next t) (ht : t.fault = false) :
    ∃ f v, fieldsAt s = .ok f ∧ srcLookup s (wires s f).isW (wires s f).isD (wires s f).key = some v ∧
      t.out = s.out.write s.i (toByte (byteMux (wires s f).copying (ofByte v) (wires s f).live f.s)) := by
  rcases iterate_next.mp h with ⟨key, -, rfl⟩ | ⟨f, hf, ⟨-, rfl⟩ | ⟨v, hv, -, -, rfl⟩⟩
  · simp at ht
  · simp at ht
  · exact ⟨f, v, hf, hv, rfl⟩

/-- The operation list exists exactly where the fields and the source byte do; it is then the decode, the control and
the write operations in a row. -/
theorem iterTrace_eq_some {s : State} {ops : List Instr} :
    iterTrace s = some ops ↔
      ∃ sh lsh f v, decChars s s.cur = some (sh, lsh) ∧ fieldsAt s = .ok f ∧
        srcLookup s (wires s f).isW (wires s f).isD (wires s f).key = some v ∧
        ops = decodeOps s sh lsh f ++ controlOps s f ++ writeOps s f v := by
  unfold iterTrace
  constructor
  · intro h
    split at h
    · rename_i sh lsh f hc hf
      split at h
      · rename_i v hv
        exact ⟨sh, lsh, f, v, hc, hf, hv, (Option.some.inj h).symm⟩
      · cases h
    · cases h
  · rintro ⟨sh, lsh, f, v, hc, hf, hv, rfl⟩
    simp only [hc, hf, hv]

/-- The write operations insert the multiplexed byte at I (R190, R191). -/
theorem insert_mem_writeOps (s : State) (f : Fields) (v : Byte) :
    .insert s.i (toByte (byteMux (wires s f).copying (ofByte v) (wires s f).live f.s)) ∈ writeOps s f v := by
  simp [writeOps]

/-- Settles O42: without a fault the iteration found its fields and its source byte, which is when the sequence exists;
both the sequence's insert and the iteration's write carry the multiplexed byte. -/
theorem iterationWritesWhatItsSequenceInserts : Obligations.IterationWritesWhatItsSequenceInserts := by
  intro s t _ hstep ht
  obtain ⟨f, v, hf, hv, hout⟩ := iterate_next_noFault (exec_iter_next.mp hstep).2 ht
  obtain ⟨sh, lsh, hc⟩ := exists_decChars_of_fieldsAt hf
  refine ⟨_, _, iterTrace_eq_some.mpr ⟨sh, lsh, f, v, hc, hf, hv, rfl⟩,
    List.mem_append_right _ (insert_mem_writeOps s f v), ?_⟩
  rw [hout, Memory.read_write_same]

end Sys2Proof.Machine

/-! PROOFS of spec/10_state.md: what an instruction can change, and the invariants of memories and runs. -/

namespace Sys2Proof.Machine

/-! Every instruction is made of the shared operations' register writes. -/

/-- One of the shared register writes of the model: every instruction that goes on is a chain of these
(`updates_of_exec`). -/
inductive Update (s : State) : State → Prop
  | yield (y : Yield) : Update s (setYield s y)
  | fault (c : FaultCode) (x : FaultInfo) : Update s (takeFault s c x)
  | clear : Update s (clearOut s)
  | start (l : Byte) : Update s (beginRun s l)
  | write (v : Byte) : Update s (writeOut s v)
  | commit (c e o r : Int) : Update s (commitRegs s c e o r)

/-- A chain of register writes. -/
abbrev Updates : State → State → Prop := Relation.ReflTransGen Update

/-- An outcome behind a guard goes on only where the guard holds. -/
theorem ite_fault_next {c : Prop} [Decidable c] {r : Result} {e : Fault} {t : State} :
    (if c then r else .fault e) = .next t ↔ c ∧ r = .next t := by
  by_cases h : c <;> simp [h]

theorem ite_refused_next {c : Prop} [Decidable c] {r : Result} {e : Refusal} {t : State} :
    (if c then r else .refused e) = .next t ↔ c ∧ r = .next t := by
  by_cases h : c <;> simp [h]

theorem updates_of_yieldOrMiss {s t : State} {key : Int} {y : Option Yield} (h : yieldOrMiss s key y = .next t) :
    Updates s t := by
  rcases yieldOrMiss_next.mp h with ⟨v, -, rfl⟩ | ⟨-, rfl⟩
  · exact .single (.yield v)
  · exact .single (.fault _ _)

theorem updates_of_insertOut {s t : State} {key : Int} {v : Byte} (h : insertOut s key v = .next t) : Updates s t := by
  obtain ⟨-, -, -, rfl⟩ := insertOut_next.mp h
  exact .single (.write v)

theorem updates_of_commit {s t : State} {b c e o r : Int} (h : commit s b c e o r = .next t) : Updates s t := by
  obtain ⟨-, -, rfl⟩ := commit_next.mp h
  exact .tail (.single (.write _)) (.commit c e o r)

theorem updates_of_copyLoop {isW isD : Int} {key : State → Nat → Int} {len n : Nat} {s t : State}
    (h : copyLoop isW isD key len n s = .next t) : Updates s t := by
  induction n generalizing s with
  | zero => cases h; exact .refl
  | succ n ih =>
    rcases copyLoop_succ_next.mp h with ⟨-, rfl⟩ | ⟨-, -, rfl⟩ | ⟨-, b, u, -, hu, ht⟩
    · exact .refl
    · exact .single (.fault _ _)
    · exact (updates_of_commit hu).trans (ih ht)

theorem updates_runHeader (s : State) (l : Byte) : Updates s (runHeader s l) :=
  .tail (.single .clear) (.start l)

theorem updates_of_execStart {s t : State} (h : execStart s = .next t) : Updates s t := by
  obtain ⟨-, ⟨c, -, rfl⟩ | ⟨-, ⟨v, -, rfl⟩ | ⟨-, rfl⟩⟩⟩ := execStart_next.mp h
  · exact .single (.fault _ _)
  · exact .single (.fault _ _)
  · exact .single (.start _)

theorem updates_of_iterate {s t : State} (h : iterate s = .next t) : Updates s t := by
  rcases iterate_next.mp h with ⟨key, -, rfl⟩ | ⟨f, -, ⟨-, rfl⟩ | ⟨v, -, -, -, rfl⟩⟩
  · exact .single (.fault _ _)
  · exact .single (.fault _ _)
  · exact .tail (.single (.write _)) (.commit _ _ _ _)

/-- An instruction that goes on is a chain of the shared register writes, in every state. -/
theorem updates_of_exec {i : Instr} {s t : State} (h : exec i s = .next t) : Updates s t := by
  cases i <;> simp only [exec] at h
  case add | mul | mac | select | sub | isZero | eq | win => cases h; exact .single (.yield _)
  case assertEq a b =>
    unfold execAssertEq at h
    split at h <;> cases h
    · exact .refl
    · exact .single (.fault _ _)
  case assertBool a =>
    unfold execAssertBool at h
    split at h <;> cases h
    · exact .refl
    · exact .single (.fault _ _)
  case lookup | decChars | decLen | decAddr => exact updates_of_yieldOrMiss h
  case insert => exact updates_of_insertOut (ite_fault_next.mp h).2
  case hdrNocomp => cases (ite_fault_next.mp h).2; exact updates_runHeader s 0
  case hdrComp l => cases (ite_refused_next.mp (ite_fault_next.mp h).2).2; exact updates_runHeader s l
  case raw => exact updates_of_commit (ite_fault_next.mp h).2
  case lit => exact updates_of_commit (ite_refused_next.mp (ite_fault_next.mp h).2).2
  case wmatch | dmatch => exact updates_of_copyLoop (ite_refused_next.mp (ite_fault_next.mp h).2).2
  case start => exact updates_of_execStart h
  case iter => exact updates_of_iterate (ite_fault_next.mp h).2

/-- A register write leaves alone the inputs (R40), and the model's pending actions, level and counter of resets. -/
theorem sameInputs_of_update {s t : State} (h : Update s t) :
    SameInputs s t ∧ t.req = s.req ∧ t.view = s.view ∧ t.fresh = s.fresh := by
  cases h <;> simp [SameInputs]

theorem SameInputs.trans {s t u : State} (h : SameInputs s t) (h' : SameInputs t u) : SameInputs s u := by
  obtain ⟨a1, a2, a3, a4, a5, a6⟩ := h
  obtain ⟨b1, b2, b3, b4, b5, b6⟩ := h'
  exact ⟨b1.trans a1, b2.trans a2, b3.trans a3, b4.trans a4, b5.trans a5, b6.trans a6⟩

theorem sameInputs_of_updates {s t : State} (h : Updates s t) :
    SameInputs s t ∧ t.req = s.req ∧ t.view = s.view ∧ t.fresh = s.fresh := by
  induction h with
  | refl => simp [SameInputs]
  | tail _ hu ih =>
    obtain ⟨hin, hreq, hview, hfresh⟩ := ih
    obtain ⟨hin', hreq', hview', hfresh'⟩ := sameInputs_of_update hu
    exact ⟨SameInputs.trans hin hin', hreq'.trans hreq, hview'.trans hview, hfresh'.trans hfresh⟩

/-- Settles O49: every instruction is a chain of register writes, and none of them writes an input. -/
theorem noInstructionChangesTheInputs : Obligations.NoInstructionChangesTheInputs :=
  fun _ _ _ h => sameInputs_of_updates (updates_of_exec h)

/-- A register write leaves the fault registers of a machine that holds a fault as they are (R27). -/
theorem sameFault_of_update {s t : State} (hf : s.fault = true) (h : Update s t) : SameFault s t := by
  cases h with
  | fault c x => simp [SameFault, takeFault_of_fault hf]
  | yield | clear | start | write | commit => simp [SameFault]

theorem sameFault_of_updates {s t : State} (hf : s.fault = true) (h : Updates s t) : SameFault s t := by
  induction h with
  | refl => simp [SameFault]
  | tail _ hu ih =>
    obtain ⟨hfault, hcode, hinfo⟩ := ih
    obtain ⟨hfault', hcode', hinfo'⟩ := sameFault_of_update (hfault.trans hf) hu
    exact ⟨hfault'.trans hfault, hcode'.trans hcode, hinfo'.trans hinfo⟩

/-- Settles O3: the one register write that touches the fault registers, taking a fault, is without effect once
FAULT = 1. -/
theorem firstFaultIsKept : Obligations.FirstFaultIsKept := by
  intro i s t hf h
  obtain ⟨hfault, hcode, hinfo⟩ := sameFault_of_updates hf (updates_of_exec h)
  exact ⟨hfault.trans hf, hcode, hinfo⟩

/-! Host writes. -/

/-- A host action other than reset and the start request is a host write. -/
theorem hostAct_eq_hostWrite {r : HostReq} (h1 : r ≠ .reset) (h2 : r ≠ .start) (s : State) :
    ∃ u, hostAct r s = hostWrite s u := by
  cases r with
  | reset => exact absurd rfl h1
  | start => exact absurd rfl h2
  | _ => exact ⟨_, rfl⟩

/-- A step with a host action pending takes the first one. -/
theorem nextStep_of_req {s : State} {r : HostReq} {rest : List HostReq} (h : s.req = r :: rest) :
    nextStep s = hostAct r { s with req := rest } := by
  simp [nextStep, h]

/-- Settles O47: the pending action is a host write, which PHASE = RUN refuses. -/
theorem hostWritesAreRefusedDuringRun : Obligations.HostWritesAreRefusedDuringRun := by
  intro s r rest hreq hp h1 h2
  obtain ⟨u, hu⟩ := hostAct_eq_hostWrite h1 h2 { s with req := rest }
  have hrefused : hostWrite { s with req := rest } u = .refuse .hostWriteDuringRun := if_pos hp
  rw [step, nextStep_of_req hreq, hu, hrefused]

/-! The invariants. -/

theorem memInv_reset : State.reset.MemInv where
  outWf := rfl
  dictWf := rfl
  written _ := by simp [State.reset]
  olenLive _ := rfl
  olenBound := le_refl _
  faultCode := by simp [State.reset]
  idle _ := ⟨rfl, rfl, rfl, rfl, rfl⟩
  running h := by cases h

/-- Settles O53: after reset PHASE is IDLE, so only the memories and counters say anything. -/
theorem resetMeetsTheInvariant : Obligations.ResetMeetsTheInvariant :=
  ⟨⟨rfl, memInv_reset, (nomatch ·)⟩, ⟨(nomatch ·), (nomatch ·)⟩⟩

/-- Taking an action off the host's list keeps the memory invariant. -/
theorem memInv_withReq {s : State} (hm : s.MemInv) (rest : List HostReq) : { s with req := rest }.MemInv :=
  memInv_frame hm rfl (.inl rfl) rfl (.inl rfl) rfl rfl rfl rfl rfl rfl rfl

/-- Settles O51: a step is an executed instruction, which is no INSERT row, or a host action, and both keep the
invariant. -/
theorem stepKeepsMemoryInvariant : Obligations.StepKeepsMemoryInvariant := by
  intro s t hm h
  rcases step_cases h with ⟨i, rest, hi, -, hexec⟩ | ⟨r, rest, -, hact⟩
  · exact memInv_exec (memInv_withReq hm rest) hi hexec
  · exact memInv_hostAct (memInv_withReq hm rest) hact

/-- The block itself executes nothing but START and ITER (R180, R242). -/
theorem nextStep_exec_of_hardware {s u : State} {i : Instr} (hv : s.view = .hardware) (h : nextStep s = .exec i u) :
    i = .start ∨ i = .iter := by
  cases hreq : s.req with
  | cons r rest =>
    rw [nextStep_of_req hreq] at h
    exact .inl (hostAct_exec h).2.1
  | nil =>
    simp only [nextStep, hreq, hv, hardwareNext] at h
    split at h
    · cases h
    · split at h <;> cases h
      exact .inr rfl

/-- A completed host action resets the machine, or writes inputs only, outside a run; only `configure` writes the
parameters. -/
theorem hostAct_host {s t : State} {r : HostReq} (h : hostAct r s = .host t) :
    t = hostReset s ∨ (s.phase ≠ .run ∧ SameWork s t ∧ SameModel s t ∧ ((∀ c, r ≠ .configure c) → t.cfg = s.cfg)) := by
  cases r <;> simp only [hostAct] at h
  case reset => cases h; exact .inl rfl
  case start => cases h
  all_goals
    unfold hostWrite at h
    split at h <;> cases h
    rename_i hp
    exact .inr ⟨hp, by simp [SameWork], by simp [SameModel], by simp⟩

/-! The invariants of a run and of a run that is over. -/

/-- A start step that leaves PHASE = RUN has checked the configuration (R242). -/
theorem runInv_of_start {s t : State} (h : exec .start s = .next t) (hp : t.phase = .run) : t.RunInv := by
  obtain ⟨hready, ⟨c, -, rfl⟩ | ⟨hc, ⟨v, -, rfl⟩ | ⟨hb, rfl⟩⟩⟩ := execStart_next.mp h
  · simp [idle_of_headerReady hready] at hp
  · simp [idle_of_headerReady hready] at hp
  · exact runInv_beginRun ⟨hc, hb⟩

/-- A start step ends in DONE only where OUT has no entry (R242). -/
theorem iterated_of_start {s t : State} (h : exec .start s = .next t) (hp : t.phase = .done) : t.i = t.cfg.outMax := by
  obtain ⟨hready, ⟨c, -, rfl⟩ | ⟨-, ⟨v, -, rfl⟩ | ⟨-, rfl⟩⟩⟩ := execStart_next.mp h
  · simp [idle_of_headerReady hready] at hp
  · simp [idle_of_headerReady hready] at hp
  · simp only [beginRun_phase, beginRun_i, beginRun_cfg] at hp ⊢
    split at hp
    · cases hp
    · omega

/-- An iteration ends in DONE only as the OUT_MAX-th (R197). -/
theorem iterated_of_iter {s t : State} (h : exec .iter s = .next t) (hp : t.phase = .done) : t.i = t.cfg.outMax := by
  obtain ⟨hen, hit⟩ := exec_iter_next.mp h
  have hrun := (enabled_iff_run hen).1
  rcases iterate_next.mp hit with ⟨key, -, rfl⟩ | ⟨f, -, ⟨-, rfl⟩ | ⟨v, -, -, -, rfl⟩⟩
  · simp [hrun] at hp
  · simp [hrun] at hp
  · simp only [commitRegs_phase, writeOut_i, writeOut_cfg, writeOut_phase, hrun] at hp
    split at hp
    · assumption
    · cases hp

/-- Of a run that is over, I = OUT_MAX is all: OLEN = I while EOF = 0 (R24). -/
theorem doneInv_of_iterated {s : State} (hm : s.MemInv) (h : s.phase = .done → s.i = s.cfg.outMax) : s.DoneInv :=
  ⟨h, fun hp he => (hm.olenLive he).trans (h hp)⟩

/-- The invariant does not read the host's list. -/
theorem State.Inv.withReq {s : State} (h : s.Inv) (rest : List HostReq) : { s with req := rest }.Inv :=
  ⟨h.level, memInv_withReq h.mem rest,
    fun hp => runInv_frame (h.run hp) rfl rfl rfl rfl rfl rfl rfl rfl rfl rfl rfl rfl rfl⟩

/-- START and ITER keep the invariant. -/
theorem inv_exec {s t : State} {i : Instr} (h : s.Inv) (hi : i = .start ∨ i = .iter) (ht : exec i s = .next t) :
    t.Inv := by
  obtain ⟨-, -, hview, -⟩ := sameInputs_of_updates (updates_of_exec ht)
  refine ⟨hview.trans h.level, memInv_exec h.mem (by rintro k v rfl; simp at hi) ht, fun hp => ?_⟩
  rcases hi with rfl | rfl
  · exact runInv_of_start ht hp
  · obtain ⟨hen, hit⟩ := exec_iter_next.mp ht
    have hrun := (enabled_iff_run hen).1
    exact runInv_iterate h.mem (h.run hrun) hrun hit

/-- No host action leaves PHASE = RUN: reset ends in IDLE, and a write is taken outside a run only. -/
theorem inv_hostAct {s t : State} {r : HostReq} (h : s.Inv) (ht : hostAct r s = .host t) : t.Inv := by
  have hm := memInv_hostAct h.mem ht
  rcases hostAct_host ht with rfl | ⟨hnr, hwork, hmodel, -⟩
  · exact ⟨h.level, hm, (nomatch ·)⟩
  · obtain ⟨-, -, -, -, -, -, -, hphase, -⟩ := hwork
    obtain ⟨-, -, hview, -⟩ := hmodel
    exact ⟨hview.trans h.level, hm, fun hp => absurd (hphase.symm.trans hp) hnr⟩

/-- A step of the block is START, ITER or a host action, on the state with that action taken off the list. -/
theorem step_cases_of_hardware {s t : State} (hv : s.view = .hardware) (h : step s = .next t) :
    (∃ i rest, (i = .start ∨ i = .iter) ∧ exec i { s with req := rest } = .next t) ∨
    (∃ r rest, s.req = r :: rest ∧ hostAct r { s with req := rest } = .host t) := by
  rcases step_cases h with ⟨i, rest, -, hnext, hexec⟩ | hact
  · exact .inl ⟨i, rest, nextStep_exec_of_hardware hv hnext, hexec⟩
  · exact .inr hact

/-- Every step of the block and every host action keeps the invariant. -/
theorem inv_step {s t : State} (h : s.Inv) (ht : step s = .next t) : t.Inv := by
  rcases step_cases_of_hardware h.level ht with ⟨i, rest, hi, hexec⟩ | ⟨r, rest, -, hact⟩
  · exact inv_exec (h.withReq rest) hi hexec
  · exact inv_hostAct (h.withReq rest) hact

/-- A run that is over stays so, until the host chooses another OUT_MAX. -/
theorem iterated_step {s t : State} (h : s.Inv) (hd : s.DoneInv) (hc : ∀ c rest, s.req ≠ .configure c :: rest)
    (ht : step s = .next t) (hp : t.phase = .done) : t.i = t.cfg.outMax := by
  rcases step_cases_of_hardware h.level ht with ⟨i, rest, rfl | rfl, hexec⟩ | ⟨r, rest, hreq, hact⟩
  · exact iterated_of_start hexec hp
  · exact iterated_of_iter hexec hp
  · rcases hostAct_host hact with rfl | ⟨-, hwork, -, hcfg⟩
    · cases hp
    · obtain ⟨hi, -, -, -, -, -, -, hphase, -⟩ := hwork
      rw [hi, hcfg (by rintro c rfl; exact hc c rest hreq)]
      exact hd.iterated (hphase.symm.trans hp)

/-- Settles O52: START begins a run with the invariant, ITER keeps it, and no host action leaves PHASE = RUN; DONE is
entered at I = OUT_MAX, and only another OUT_MAX could part the two again. -/
theorem stepKeepsRunInvariant : Obligations.StepKeepsRunInvariant := by
  intro s t h ht
  have hinv := inv_step h ht
  exact ⟨hinv, fun hd hc => doneInv_of_iterated hinv.mem (iterated_step h hd hc ht)⟩

/-! The fields and wires of an iteration. -/

/-- Symbols, stored values and code lengths are natural numbers, in every state (R182, R183). -/
theorem fieldsAt_nonneg {s : State} {f : Fields} (h : fieldsAt s = .ok f) : 0 ≤ f.ls ∧ 0 ≤ f.ll ∧ 0 ≤ f.la := by
  unfold fieldsAt at h
  split at h
  · cases h
  · rename_i sh lsh _
    dsimp only at h
    split at h
    · cases h
    · split at h
      · cases h
      · cases h
        refine ⟨?_, Int.natCast_nonneg _, Int.natCast_nonneg _⟩
        cases s.byp <;> simp

theorem wires_isW_nonneg (s : State) (f : Fields) : 0 ≤ (wires s f).isW := by
  rw [wires_isW]; split <;> decide

theorem wires_isD_nonneg (s : State) (f : Fields) : 0 ≤ (wires s f).isD := by
  rw [wires_isD]; split <;> decide

theorem wires_isM_nonneg (s : State) (f : Fields) : 0 ≤ (wires s f).isM :=
  add_nonneg (wires_isW_nonneg s f) (wires_isD_nonneg s f)

theorem wires_last_cases (s : State) (f : Fields) : (wires s f).last = 0 ∨ (wires s f).last = 1 := by
  rw [wires_last]; split <;> simp

/-- The cursor's step is not negative (R192). -/
theorem wires_delta_nonneg {s : State} {f : Fields} (h : fieldsAt s = .ok f) : 0 ≤ (wires s f).delta := by
  obtain ⟨hls, hll, hla⟩ := fieldsAt_nonneg h
  have hmatch := mul_nonneg (wires_isM_nonneg s f) (add_nonneg hll hla)
  rw [wires_delta]
  rcases wires_last_cases s f with h0 | h0 <;> rw [h0] <;> omega

/-- Settles O37: the cursor moves by `live * delta`, OLEN by `live`, neither negative, and `live` is 0 once EOF = 1. -/
theorem cursorNeverDecreasesAndEofStays : Obligations.CursorNeverDecreasesAndEofStays := by
  intro s t h
  rcases iterate_next.mp (exec_iter_next.mp h).2 with ⟨key, -, rfl⟩ | ⟨f, hf, ⟨-, rfl⟩ | ⟨v, -, -, -, rfl⟩⟩
  · simp
  · simp
  · have hdelta := wires_delta_nonneg hf
    have hcur := wires_curNext s f
    have hlive := wires_live s f
    simp only [commitRegs_cur, commitRegs_olen, commitRegs_eof, olenNext, opAdd_eq, hcur, hlive]
    cases he : s.eof
    · simp; omega
    · simp

/-- The delimiters of a valid configuration differ (R8). -/
theorem State.Valid.delims_ne {s : State} (h : s.Valid) : s.tab.delimW ≠ s.tab.delimD := by
  obtain ⟨-, -, -, -, -, -, hd⟩ := h.tables
  exact hd

/-- With different delimiters a record starts at most one kind of match (R184). -/
theorem wires_isM_cases {s : State} (f : Fields) (hd : s.tab.delimW ≠ s.tab.delimD) :
    (wires s f).isM = 0 ∨ (wires s f).isM = 1 := by
  have hne : ofByte s.tab.delimW ≠ ofByte s.tab.delimD := fun h => hd (ofByte_inj.mp h)
  rw [wires_isM, wires_isW, wires_isD]
  split
  · rename_i hw
    rw [if_neg (by rintro ⟨-, -, h⟩; exact hne (hw.2.2.symm.trans h))]
    simp
  · split <;> simp

/-- In a run at most the match's length is to go (R41, R186). -/
theorem wires_n_bounds {s : State} (h : s.RunInv) {f : Fields} (hf : fieldsAt s = .ok f) (hlv : 0 ≤ f.lv) :
    0 ≤ (wires s f).n ∧ (wires s f).n ≤ f.lv + 1 := by
  rw [wires_n]
  split
  · rcases wires_isM_cases f h.valid.delims_ne with h0 | h0 <;> rw [h0] <;> omega
  · obtain ⟨f', hf', -, hlen⟩ := h.copy (by omega)
    cases hf.symm.trans hf'
    rw [wires_mlen] at hlen
    omega

/-- Only a coded record is a match (R184). -/
theorem byp_false_of_isM {s : State} {f : Fields} (h : (wires s f).isM = 1) : s.byp = false := by
  cases hb : s.byp
  · rfl
  · simp [(wires_not_match f (.inl hb)).2.2] at h

/-- The bounds of R38 on the fields of an iteration. -/
structure FieldBounds (s : State) (f : Fields) : Prop where
  sym : 0 ≤ f.s ∧ f.s ≤ 255
  ls : 1 ≤ f.ls ∧ f.ls ≤ max 8 (s.tab.wc : Int)
  lsCoded : s.byp = false → f.ls ≤ s.tab.wc
  lv : 0 ≤ f.lv ∧ f.lv ≤ 255
  ll : 1 ≤ f.ll ∧ f.ll ≤ s.tab.wl
  av : 0 ≤ f.av ∧ f.av < 2 ^ s.tab.alog2
  la : 1 ≤ f.la ∧ f.la ≤ s.tab.wa

/-- On a valid configuration the fields decode within their bounds (R38, R141). -/
theorem exists_fieldBounds {s : State} (h : s.Valid) : ∃ f, fieldsAt s = .ok f ∧ FieldBounds s f := by
  obtain ⟨sym, ls, lv, ll, av, la, hf, -, -, -, hsym, hls1, hls8, hlsw, hlv, hll1, hll, hav, hla1, hla⟩ :=
    exists_fieldsAt h
  have hav' : (av : Int) < 2 ^ s.tab.alog2 := by exact_mod_cast hav
  exact ⟨_, hf,
    { sym := by dsimp only; omega
      ls := by dsimp only; omega
      lsCoded := fun hbyp => Int.ofNat_le.mpr (hlsw hbyp)
      lv := by dsimp only; omega
      ll := by dsimp only; omega
      av := ⟨Int.natCast_nonneg _, hav'⟩
      la := by dsimp only; omega }⟩

/-- The cursor moves by at most one record (R38, R192). -/
theorem wires_delta_le {s : State} {f : Fields} (hd : s.tab.delimW ≠ s.tab.delimD) (hb : FieldBounds s f) :
    (wires s f).delta ≤ max 8 ((s.tab.wc : Int) + s.tab.wl + s.tab.wa) := by
  obtain ⟨-, hls, hcoded, -, hll, -, hla⟩ := hb
  rw [wires_delta]
  rcases wires_last_cases s f with hl | hl
  · rw [hl]; omega
  · rcases wires_isM_cases f hd with hM | hM
    · rw [hl, hM]; omega
    · have := hcoded (byp_false_of_isM hM)
      rw [hl, hM]; omega

theorem wires_kW (s : State) (f : Fields) : (wires s f).kW = (s.dictLen : Int) + s.i - 1 - f.av := by
  simp [wires, windowKey]

theorem wires_kD (s : State) (f : Fields) : (wires s f).kD = f.av + (f.lv + 1 - (wires s f).n) := by
  simp [wires, dictKey]

theorem wires_copying_cases (s : State) (f : Fields) : (wires s f).copying = 0 ∨ (wires s f).copying = 1 := by
  rw [wires_copying]; split <;> simp

/-- Settles O38: the field decoders answer within their alphabets; the wires' bounds follow from those, from REM staying
below the match's length, and from I < OUT_MAX. -/
theorem wiresStayInTheirBounds : Obligations.WiresStayInTheirBounds := by
  intro s h hp
  have hrun := h.run hp
  have hi := h.mem.running hp
  have hd := hrun.valid.delims_ne
  obtain ⟨f, hf, hb⟩ := exists_fieldBounds hrun.valid
  have hdelta := wires_delta_le hd hb
  obtain ⟨⟨hs0, hs⟩, ⟨hls0, hls⟩, -, ⟨hlv0, hlv⟩, ⟨hll0, hll⟩, ⟨hav0, hav⟩, ⟨hla0, hla⟩⟩ := hb
  obtain ⟨hn0, hn⟩ := wires_n_bounds hrun hf hlv0
  have hmlen : 1 ≤ (wires s f).mlen ∧ (wires s f).mlen ≤ 256 := by rw [wires_mlen]; omega
  have hkW := wires_kW s f
  have hkD := wires_kD s f
  exact ⟨f, hf, hs0, hs, hls0, hls, hlv0, hlv, hll0, hll, hav0, hav, hla0, hla, hmlen.1, hmlen.2,
    wires_isM_cases f hd, wires_copying_cases s f, wires_last_cases s f, hn0, by omega, by omega, by omega, by omega,
    by omega, wires_delta_nonneg hf, hdelta⟩

/-! A run on a well-formed pair. -/

/-- A run's first step. -/
theorem run_succ_next {n : Nat} {s t : State} :
    Host.Core.run core (n + 1) s = .next t ↔ ∃ u, step s = .next u ∧ Host.Core.run core n u = .next t := by
  cases hu : step s <;> simp [Host.Core.run, core, hu]

/-- What one step keeps, a run keeps. -/
theorem run_keeps {P : State → Prop} (hstep : ∀ s t, P s → step s = .next t → P t) {n : Nat} {s t : State} (hs : P s)
    (h : Host.Core.run core n s = .next t) : P t := by
  induction n generalizing s with
  | zero => cases h; exact hs
  | succ n ih =>
    obtain ⟨u, hu, h⟩ := run_succ_next.mp h
    exact ih (hstep s u hs hu) h

theorem sameInputs_bits {s t : State} (h : SameInputs s t) : t.bits = s.bits := by
  obtain ⟨hcfg, -, -, -, hloaded, -⟩ := h
  simp [State.bits, State.nbits, hcfg, hloaded]

/-- A window copy appends its length (R164). -/
theorem copyBack_length {n dist : Nat} {out out' : List Byte} (h : copyBack n dist out = some out') :
    out'.length = out.length + n := by
  induction n generalizing out with
  | zero => cases h; rfl
  | succ n ih =>
    rw [copyBack] at h
    split at h
    · split at h
      · rw [ih h, List.length_append, List.length_singleton]; omega
      · cases h
    · cases h

/-- A dictionary copy appends its length (R165). -/
theorem copyDict_length {s : State} {n addr : Nat} {out out' : List Byte} (h : copyDict s n addr out = some out') :
    out'.length = out.length + n := by
  obtain ⟨bs, hn, rfl, -⟩ := copyDict_some n addr out out' h
  rw [List.length_append, hn]

/-- A record moves the oracle past its bits and appends its bytes (R162 to R165). -/
theorem applyRecord_some {s : State} {i : Instr} {n : Nat} {o o' : OracleState} (h : applyRecord s i n o = some o') :
    o'.cur = o.cur + n ∧ o'.byp = o.byp ∧ o'.out.length = o.out.length + recordBytes i := by
  cases i with
  | raw b | lit b => cases h; simp [recordBytes]
  | wmatch len dist =>
    obtain ⟨out, hout, rfl⟩ := Option.map_eq_some_iff.mp h
    exact ⟨rfl, rfl, copyBack_length hout⟩
  | dmatch len addr =>
    obtain ⟨out, hout, rfl⟩ := Option.map_eq_some_iff.mp h
    exact ⟨rfl, rfl, copyDict_length hout⟩
  | _ => cases h

/-- Short of CLEN a parse goes on with a record that fits (R167). -/
theorem parses_next {s : State} {fuel : Nat} {o : OracleState} (h : parses s fuel o = true) (hc : o.cur ≠ s.clen) :
    ∃ i n o' fuel', decode s.tab (recordMode o.byp) s.bits o.cur = .ok (i, n) ∧ recordFits s o.out.length i = true ∧
      applyRecord s i n o = some o' ∧ parses s fuel' o' = true ∧ fuel = fuel' + 1 := by
  cases fuel with
  | zero => simp [parses, hc] at h
  | succ fuel =>
    rw [parses, if_neg hc] at h
    split at h
    · cases h
    · rename_i i n hd
      obtain ⟨hfit, h⟩ := Bool.and_eq_true_iff.mp h
      split at h
      · cases h
      · rename_i o' ho
        exact ⟨i, n, o', fuel, hd, hfit, ho, h, rfl⟩

/-- A parse ends at CLEN, so it starts at or before it. -/
theorem cur_le_of_parses {s : State} {fuel : Nat} {o : OracleState} (h : parses s fuel o = true) : o.cur ≤ s.clen := by
  induction fuel generalizing o with
  | zero =>
    by_contra hc
    simp [parses, show o.cur ≠ s.clen by omega] at h
  | succ fuel ih =>
    by_contra hc
    obtain ⟨i, n, o', fuel', -, -, ho, h', hfuel⟩ := parses_next h (by omega)
    cases hfuel
    have := ih h'
    have := (applyRecord_some ho).1
    omega

/-- While REM is short of a record's length, at least one of its bytes is to go, and at most all of them (R186). -/
theorem one_le_toGo {s : State} {len : Nat} (h : s.rem < len) : 1 ≤ s.toGo len := by
  unfold State.toGo; split <;> omega

theorem toGo_le {s : State} {len : Nat} (h : s.rem < len) : s.toGo len ≤ len := by
  unfold State.toGo; split <;> omega

/-- The state t of a run stands on a record of a parse of s's stream: the oracle is at the record's start with `o`, and
the bytes of the record that t has already copied are those t is ahead of it. -/
structure OnRecord (s t : State) (fuel : Nat) (o : OracleState) : Prop where
  parse : parses s fuel o = true
  cur : o.cur = t.cur
  byp : o.byp = t.byp
  ahead : ∀ i n, decode t.tab (recordMode t.byp) t.bits t.cur = .ok (i, n) →
    o.out.length + recordBytes i = t.i + t.toGo (recordBytes i)

/-- Short of CLEN the record at the cursor fits, and the oracle executes it. -/
theorem OnRecord.next {s t : State} {fuel : Nat} {o : OracleState} (h : OnRecord s t fuel o) (hs : SameInputs s t)
    (hc : t.cur ≠ t.clen) :
    ∃ i n o' fuel', decode t.tab (recordMode t.byp) t.bits t.cur = .ok (i, n) ∧
      recordFits s o.out.length i = true ∧ applyRecord s i n o = some o' ∧ parses s fuel' o' = true := by
  obtain ⟨hcfg, htab, hdictLen, -, hloaded, hclen⟩ := id hs
  obtain ⟨i, n, o', fuel', hdec, hfit, ho, hparse, -⟩ := parses_next h.parse (by rwa [h.cur, ← hclen])
  rw [h.cur, h.byp, ← htab, ← sameInputs_bits hs] at hdec
  exact ⟨i, n, o', fuel', hdec, hfit, ho, hparse⟩

/-- What holds at every iteration start of the run of a well-formed pair given by s. -/
structure OnCourse (s t : State) : Prop where
  inv : t.Inv
  run : t.RunInv
  noRequest : t.req = []
  started : t.phase ≠ .idle
  noFault : t.fault = false
  inputs : SameInputs s t
  live : t.eof = false → ∃ fuel o, OnRecord s t fuel o

theorem State.Valid.dictLen_ge {s : State} (h : s.Valid) : 2 ≤ s.dictLen := by
  obtain ⟨-, -, -, -, hd, -⟩ := configCheck_none h.1
  exact hd

/-- While EOF = 0 the cursor is off the end of the stream (R41 (e), R194). -/
theorem State.RunInv.cur_ne {s : State} (h : s.RunInv) (he : s.eof = false) : s.cur ≠ s.clen := fun hc => by
  simp [h.eofCur.mpr hc] at he

/-- What is no match is neither kind of match (R184). -/
theorem indicators_zero_of_isM {s : State} {f : Fields} (h : (wires s f).isM = 0) :
    (wires s f).isW = 0 ∧ (wires s f).isD = 0 := by
  have hW := wires_isW_nonneg s f
  have hD := wires_isD_nonneg s f
  rw [wires_isM] at h
  omega

/-- A record that fits finds its source byte: a window match reaches no further back than the output, a dictionary match
ends within the dictionary (R167, R189). -/
theorem exists_srcLookup_of_fits {s t : State} (hm : t.MemInv) (h : t.RunInv) (hp : t.phase = .run)
    (he : t.eof = false) (hd : t.dictLen = s.dictLen) {f : Fields} (hf : fieldsAt t = .ok f) {i : Instr} {n k : Nat}
    (ha : At t f i n) (hfit : recordFits s k i = true) (hk : k ≤ t.i) :
    ∃ v, srcLookup t (wires t f).isW (wires t f).isD (wires t f).key = some v := by
  have hrem := rem_lt h hf ha he
  rcases indicators_of_at h.valid he ha with ⟨-, hM, -⟩ | ⟨lv, ls, ll, av, la, -, -, -, -, -, -, hmatch⟩
  · obtain ⟨hW, hD⟩ := indicators_zero_of_isM hM
    rw [wires_key, hW, hD]
    simpa using srcLookup_idle h.valid.dictLen_ge
  · rcases hmatch with ⟨rfl, hW, hD, hkey⟩ | ⟨rfl, hW, hD, hkey⟩
    · have hdist : av + 1 ≤ k := by
        simp only [recordFits, Bool.and_eq_true, decide_eq_true_eq] at hfit
        exact hfit.1.1
      obtain ⟨b, hb⟩ := Option.isSome_iff_exists.mp
        ((hm.written (t.i - (av + 1))).trans (decide_eq_true (by omega)))
      rw [hW, hD, hkey]
      exact ⟨b, srcLookup_window (by omega) (by omega) (hm.running hp).le hb⟩
    · have hend : av + (lv + 1) ≤ s.dictLen := by
        simp only [recordFits, Bool.and_eq_true, decide_eq_true_eq] at hfit
        exact hfit.1.1
      have hgo : 1 ≤ t.toGo (lv + 1) := one_le_toGo hrem
      rw [hW, hD, hkey hrem]
      exact ⟨_, srcLookup_dict (by omega)⟩

/-- On course every iteration has its fields and its source byte. -/
theorem OnCourse.exists_lookup {s t : State} (h : OnCourse s t) (hp : t.phase = .run) :
    ∃ f v, fieldsAt t = .ok f ∧ srcLookup t (wires t f).isW (wires t f).isD (wires t f).key = some v := by
  obtain ⟨f, i, n, hf, hdec, ha⟩ := exists_at h.run.valid
  refine ⟨f, ?_⟩
  cases he : t.eof with
  | true =>
    obtain ⟨hW, hD, -, -⟩ := wires_dead f he
    obtain ⟨v, hv⟩ := srcLookup_idle h.run.valid.dictLen_ge
    exact ⟨v, hf, by rw [wires_key, hW, hD]; simpa using hv⟩
  | false =>
    obtain ⟨fuel, o, hrec⟩ := h.live he
    obtain ⟨i', n', o', fuel', hdec', hfit, -⟩ := hrec.next h.inputs (h.run.cur_ne he)
    cases hdec.symm.trans hdec'
    have hgo := toGo_le (rem_lt h.run hf ha he)
    have hahead := hrec.ahead i n hdec
    obtain ⟨-, -, hdictLen, -⟩ := h.inputs
    obtain ⟨v, hv⟩ := exists_srcLookup_of_fits h.inv.mem h.run hp he hdictLen hf ha hfit (by omega)
    exact ⟨v, hf, hv⟩

/-- A byte of the record leaves the oracle at the record's start, the last one at the next record. -/
theorem OnRecord.withByte {s t : State} {fuel : Nat} {o : OracleState} (h : OnRecord s t fuel o) (hs : SameInputs s t)
    (hc : t.cur ≠ t.clen) {i : Instr} {n : Nat} (hdec : decode t.tab (recordMode t.byp) t.bits t.cur = .ok (i, n))
    (b : Byte) (hgo : 1 ≤ t.toGo (recordBytes i)) :
    ∃ fuel' o', OnRecord s
      (t.withByte b (if t.toGo (recordBytes i) = 1 then n else 0) (t.toGo (recordBytes i) - 1)) fuel' o' := by
  have hahead := h.ahead i n hdec
  by_cases hlast : t.toGo (recordBytes i) = 1
  · obtain ⟨i', n', o', fuel', hdec', -, ho, hparse⟩ := h.next hs hc
    cases hdec.symm.trans hdec'
    obtain ⟨hcur, hbyp, hlen⟩ := applyRecord_some ho
    rw [hlast] at hahead ⊢
    refine ⟨fuel', o', hparse, by simp [State.withByte, hcur, h.cur], hbyp.trans h.byp, fun i' n' _ => ?_⟩
    simp only [State.withByte, State.toGo, Nat.sub_self, if_true]
    omega
  · rw [if_neg hlast]
    refine ⟨fuel, o, h.parse, h.cur, h.byp, fun i' n' hdec' => ?_⟩
    cases hdec.symm.trans hdec'
    have hrem : t.toGo (recordBytes i) - 1 ≠ 0 := by omega
    have hgo' (adv : Nat) : (t.withByte b adv (t.toGo (recordBytes i) - 1)).toGo (recordBytes i) =
      t.toGo (recordBytes i) - 1 := if_neg hrem
    rw [hgo']
    simp only [State.withByte]
    omega

/-- On course a step is an iteration. -/
theorem OnCourse.iterate_of_step {s t u : State} (h : OnCourse s t) (hu : step t = .next u) :
    t.phase = .run ∧ iterate t = .next u := by
  have hp : t.phase = .run := by
    cases hphase : t.phase with
    | run => rfl
    | idle => exact absurd hphase h.started
    | done => simp [step, nextStep, h.noRequest, h.inv.level, hardwareNext, h.noFault, hphase] at hu
  refine ⟨hp, ?_⟩
  rw [← exec_iter_eq hp h.noFault]
  simpa [step, nextStep, h.noRequest, h.inv.level, hardwareNext, h.noFault, hp] using hu

/-- A step stays on course: the lookup does not miss, so the iteration writes one byte. -/
theorem OnCourse.of_step {s t u : State} (h : OnCourse s t) (hu : step t = .next u) : OnCourse s u := by
  obtain ⟨hp, hit⟩ := h.iterate_of_step hu
  obtain ⟨f, v, hf, hv⟩ := h.exists_lookup hp
  have hcommit := iterate_of_lookup hf hv (h.inv.mem.running hp) h.inv.mem.unwritten
  obtain ⟨hin, hreq, -, -⟩ := sameInputs_of_updates (updates_of_iterate hit)
  have hnoFault : u.fault = false := by
    cases hit.symm.trans hcommit
    exact h.noFault
  refine ⟨inv_step h.inv hu, runInv_iterate h.inv.mem h.run hp hit, hreq.trans h.noRequest, ?_, hnoFault,
    SameInputs.trans h.inputs hin, fun he => ?_⟩
  · cases hit.symm.trans hcommit
    simp only [commitRegs_phase, writeOut_phase, hp]
    split <;> simp
  · rcases iterate_forms h.inv.mem h.run hp with
      ⟨hdead, e⟩ | ⟨hlive, f', i, n, -, hdec, -, -, -, -, -, hrem, ⟨key, e⟩ | ⟨b, e, -⟩⟩
    · cases hit.symm.trans e
      exact absurd (hdead.symm.trans he) (by simp)
    · cases hit.symm.trans e
      simp at hnoFault
    · cases hit.symm.trans e
      obtain ⟨fuel, o, hrec⟩ := h.live hlive
      exact hrec.withByte h.inputs (h.run.cur_ne hlive) hdec b (one_le_toGo hrem)

/-- The parse that makes a pair well-formed begins after the header (R161, R167). -/
theorem parses_of_wellFormedStream {s : State} (h : wellFormedStream s = true) :
    s.clen ≤ s.nbits ∧ parses s s.clen (oracleInit s) = true := by
  simp only [wellFormedStream, Bool.and_eq_true, decide_eq_true_eq] at h
  exact ⟨h.1.2, h.2⟩

/-- The mode read from the header's window is the mode the start step writes (R81, R242). -/
theorem oracleInit_byp {s : State} (h : BooleanArray s.bits) :
    (oracleInit s).byp = (beginRun s (toByte (s.win 0 8))).byp := by
  obtain ⟨h0, h1⟩ := win_range h 0 8
  have hbyte : ofByte (toByte (s.win 0 8)) = s.win 0 8 := ofByte_toByte h0 h1
  rw [oracleInit, beginRun_byp, hbyte]

/-- The start step on a valid configuration (R242). -/
theorem step_start {s t : State} (hreq : s.req = [.start]) (hv : s.Valid) (ht : step s = .next t) :
    t = beginRun { s with req := [] } (toByte (s.win 0 8)) := by
  have hexec : execStart { s with req := [] } = .next t := by
    simpa [step, nextStep_of_req hreq, hostAct, exec] using ht
  obtain ⟨-, ⟨c, hc, -⟩ | ⟨-, ⟨v, hb, -⟩ | ⟨-, rfl⟩⟩⟩ := execStart_next.mp hexec
  · cases hc.symm.trans hv.1
  · cases hb.symm.trans hv.2
  · rfl

/-- The start step on a well-formed pair sets the course: the oracle has read the header. -/
theorem onCourse_of_start {s t : State} (hm : s.MemInv) (hview : s.view = .hardware) (hreq : s.req = [.start])
    (hidle : s.phase = .idle) (hf : s.fault = false) (hv : s.Valid) (hwf : wellFormedStream s = true)
    (ht : step s = .next t) : OnCourse s t := by
  have hinv : t.Inv := inv_step ⟨hview, hm, fun hp => by cases hidle.symm.trans hp⟩ ht
  obtain rfl := step_start hreq hv ht
  refine ⟨hinv, runInv_beginRun (s := { s with req := [] }) hv, rfl, ?_, hf, ⟨rfl, rfl, rfl, rfl, rfl, rfl⟩, fun _ =>
    ⟨s.clen, oracleInit s, (parses_of_wellFormedStream hwf).2, rfl, oracleInit_byp hv.2, fun i n _ => ?_⟩⟩
  · rw [beginRun_phase]
    split <;> simp
  · simp [oracleInit, State.toGo]

/-- On course the cursor has not passed the end of the stream (R38). -/
theorem OnCourse.cur_le {s t : State} (h : OnCourse s t) : t.cur ≤ t.clen := by
  cases he : t.eof with
  | true => exact (h.run.eofCur.mp he).le
  | false =>
    obtain ⟨fuel, o, hrec⟩ := h.live he
    obtain ⟨-, -, -, -, -, hclen⟩ := h.inputs
    rw [← hrec.cur, hclen]
    exact cur_le_of_parses hrec.parse

/-- Settles O59: the run of a well-formed pair stays on course, where the cursor stands in the parse and the source
lookup finds its byte. -/
theorem wellFormedRunStaysInBounds : Obligations.WellFormedRunStaysInBounds := by
  intro s n t hm hview hreq hidle hf hv hwf hrun
  obtain ⟨hclen, hparse⟩ := parses_of_wellFormedStream hwf
  cases n with
  | zero =>
    cases hrun
    obtain ⟨-, -, hcur, -⟩ := hm.idle hidle
    exact ⟨hcur.ge, hcur ▸ cur_le_of_parses hparse, hclen, fun hp => by cases hidle.symm.trans hp⟩
  | succ n =>
    obtain ⟨u, hu, hrun⟩ := run_succ_next.mp hrun
    have h : OnCourse s t :=
      run_keeps (fun _ _ => OnCourse.of_step) (onCourse_of_start hm hview hreq hidle hf hv hwf hu) hrun
    obtain ⟨hcfg, -, -, -, -, hclen'⟩ := h.inputs
    refine ⟨h.run.curLow, h.cur_le, ?_, fun hp => ?_⟩
    · rwa [State.nbits, hcfg, hclen']
    · obtain ⟨f, v, hfields, hlookup⟩ := h.exists_lookup hp
      obtain ⟨hkey0, hkey, -⟩ := srcLookup_some.mp hlookup
      exact ⟨f, hfields, hkey0, hkey⟩

end Sys2Proof.Machine

/-! PROOFS of spec/20_memory.md: the keys of SRC that hold a value, the refused inserts, and that OUT is append-only. -/

namespace Sys2Proof.Machine

/-! The source memory. -/

/-- A byte in SRC lies at a key from 0 on and below DICT_LEN + I, in every state (R59). -/
theorem srcRead_some_bounds {s : State} {key : Int} {b : Byte} (h : srcRead s key = some b) :
    0 ≤ key ∧ key < (s.dictLen : Int) + s.i := by
  rcases srcRead_some.mp h with ⟨hkey, hdict⟩ | ⟨hdict, hkey, -⟩
  · have := (dictRead_some.mp hdict).1
    omega
  · omega

/-- Every key of the dictionary, and of the written output after it, holds a byte of SRC (R58, R59). -/
theorem srcRead_isSome {s : State} (hm : s.MemInv) (hi : s.i ≤ s.cfg.outMax) {k : Nat} (hk : k < s.dictLen + s.i) :
    (srcRead s k).isSome = true := by
  by_cases hd : k < s.dictLen
  · rw [srcRead_dict hd, Option.isSome_some]
  · obtain ⟨j, rfl⟩ := Nat.exists_eq_add_of_le (Nat.le_of_not_lt hd)
    have hj : j < s.i := by omega
    rw [Nat.cast_add, srcRead_out hj hi, hm.written, decide_eq_true hj]

/-- Settles O6: the dictionary's keys hold a byte always, and the output's keys exactly where an entry is written, which
is below I. -/
theorem sourceKeysHeldAreDictionaryAndWritten : Obligations.SourceKeysHeldAreDictionaryAndWritten := by
  intro s key hm hi
  constructor
  · intro h
    obtain ⟨b, hb⟩ := Option.isSome_iff_exists.mp h
    exact srcRead_some_bounds hb
  · rintro ⟨h0, hkey⟩
    lift key to Nat using h0
    exact srcRead_isSome hm hi (by exact_mod_cast hkey)

/-! INSERT. -/

/-- The insert's guard fails at a key other than I and at a written entry (R57). -/
theorem insertOut_refused {s : State} {key : Int} (v : Byte) (h : key ≠ s.i ∨ s.out.read s.i ≠ none) :
    insertOut s key v = .refused .insertOutOfOrder := by
  refine if_neg ?_
  rintro ⟨hkey, -, hunwritten⟩
  exact h.elim (· hkey) (· hunwritten)

/-- While an iteration is enabled INSERT is the insert operation (R117). -/
theorem exec_insert_of_enabled {s : State} (hp : s.phase = .run) (hf : s.fault = false) (key : Int) (v : Byte) :
    exec (.insert key v) s = insertOut s key v := by
  simp [exec, execInsert, State.enabled, hp, hf]

/-- Settles O8: an enabled INSERT reaches the insert operation, whose guard fails. -/
theorem insertElsewhereIsRefused : Obligations.InsertElsewhereIsRefused := by
  intro s key v hp hf h
  rw [exec_insert_of_enabled hp hf, insertOut_refused v h]

/-! OUT is append-only. -/

/-- Every entry that holds a value in `m` holds the same value in `m'`. -/
def Memory.Extends (m m' : Memory) : Prop := ∀ k b, m.read k = some b → m'.read k = some b

theorem Memory.Extends.of_eq {m m' : Memory} (h : m' = m) : m.Extends m' := fun _ _ hk => h ▸ hk

theorem Memory.Extends.trans {m m' m'' : Memory} (h : m.Extends m') (h' : m'.Extends m'') : m.Extends m'' :=
  fun k b hk => h' k b (h k b hk)

/-- A write at an unwritten entry overwrites nothing. -/
theorem Memory.extends_write {m : Memory} {a : Nat} (h : m.read a = none) (v : Byte) : m.Extends (m.write a v) := by
  intro k b hk
  have hne : k ≠ a := by rintro rfl; simp [h] at hk
  rw [Memory.read_write_ne m v hne, hk]

theorem out_extends_of_insertOut {s t : State} {key : Int} {v : Byte} (h : insertOut s key v = .next t) :
    s.out.Extends t.out := by
  obtain ⟨-, -, hunwritten, rfl⟩ := insertOut_next.mp h
  exact Memory.extends_write hunwritten v

theorem out_extends_of_commit {s t : State} {b c e o r : Int} (h : commit s b c e o r = .next t) :
    s.out.Extends t.out := by
  obtain ⟨-, hunwritten, rfl⟩ := commit_next.mp h
  exact Memory.extends_write hunwritten _

theorem out_extends_of_copyLoop {isW isD : Int} {key : State → Nat → Int} {len n : Nat} {s t : State}
    (h : copyLoop isW isD key len n s = .next t) : s.out.Extends t.out := by
  induction n generalizing s with
  | zero => cases h; exact .of_eq rfl
  | succ n ih =>
    rcases copyLoop_succ_next.mp h with ⟨-, rfl⟩ | ⟨-, -, rfl⟩ | ⟨-, b, u, -, hu, ht⟩
    · exact .of_eq rfl
    · exact .of_eq (takeFault_out ..)
    · exact (out_extends_of_commit hu).trans (ih ht)

theorem out_extends_of_iterate {s t : State} (h : iterate s = .next t) : s.out.Extends t.out := by
  rcases iterate_next.mp h with ⟨key, -, rfl⟩ | ⟨f, -, ⟨-, rfl⟩ | ⟨v, -, -, hunwritten, rfl⟩⟩
  · exact .of_eq (takeFault_out ..)
  · exact .of_eq (takeFault_out ..)
  · exact Memory.extends_write hunwritten _

theorem out_of_yieldOrMiss {s t : State} {key : Int} {y : Option Yield} (h : yieldOrMiss s key y = .next t) :
    t.out = s.out := by
  rcases yieldOrMiss_next.mp h with ⟨v, -, rfl⟩ | ⟨-, rfl⟩
  · rfl
  · exact takeFault_out ..

/-- The start step does not write OUT (R242). -/
theorem out_of_execStart {s t : State} (h : execStart s = .next t) : t.out = s.out := by
  obtain ⟨-, ⟨c, -, rfl⟩ | ⟨-, ⟨v, -, rfl⟩ | ⟨-, rfl⟩⟩⟩ := execStart_next.mp h
  · exact takeFault_out ..
  · exact takeFault_out ..
  · rfl

/-- The header empties an OUT in which nothing is written yet (R161, R39). -/
theorem out_of_runHeader {s : State} (hm : s.MemInv) (hr : s.headerReady = true) (l : Byte) :
    (runHeader s l).out = s.out := by
  have hi : s.i = 0 := (hm.idle (idle_of_headerReady hr).1).1
  rw [runHeader, clearOut_eq hm hi, beginRun_out]

/-- No instruction overwrites or erases a written entry of OUT (R57). -/
theorem out_extends_of_exec {i : Instr} {s t : State} (hm : s.MemInv) (h : exec i s = .next t) :
    s.out.Extends t.out := by
  cases i <;> simp only [exec] at h
  case add | mul | mac | select | sub | isZero | eq | win => cases h; exact .of_eq rfl
  case assertEq a b =>
    unfold execAssertEq at h
    split at h <;> cases h
    · exact .of_eq rfl
    · exact .of_eq (takeFault_out ..)
  case assertBool a =>
    unfold execAssertBool at h
    split at h <;> cases h
    · exact .of_eq rfl
    · exact .of_eq (takeFault_out ..)
  case lookup | decChars | decLen | decAddr => exact .of_eq (out_of_yieldOrMiss h)
  case insert => exact out_extends_of_insertOut (ite_fault_next.mp h).2
  case hdrNocomp =>
    obtain ⟨hr, ht⟩ := ite_fault_next.mp h
    cases ht
    exact .of_eq (out_of_runHeader hm hr 0)
  case hdrComp l =>
    obtain ⟨hr, hwf⟩ := ite_fault_next.mp h
    cases (ite_refused_next.mp hwf).2
    exact .of_eq (out_of_runHeader hm hr l)
  case raw => exact out_extends_of_commit (ite_fault_next.mp h).2
  case lit => exact out_extends_of_commit (ite_refused_next.mp (ite_fault_next.mp h).2).2
  case wmatch | dmatch => exact out_extends_of_copyLoop (ite_refused_next.mp (ite_fault_next.mp h).2).2
  case start => exact .of_eq (out_of_execStart h)
  case iter => exact out_extends_of_iterate (ite_fault_next.mp h).2

/-- A step without a host action pending executes an instruction, so it keeps every written entry of OUT. -/
theorem out_extends_of_step {s t : State} (hm : s.MemInv) (hreq : s.req = []) (h : step s = .next t) :
    s.out.Extends t.out := by
  rcases step_cases h with ⟨i, rest, -, -, hexec⟩ | ⟨r, rest, hpending, -⟩
  · exact out_extends_of_exec (s := { s with req := rest }) (memInv_withReq hm rest) hexec
  · cases hreq.symm.trans hpending

/-- Where OUT only grew, so did I: the written entries are those below it (R57, R59). -/
theorem i_le_of_out_extends {s t : State} (hs : s.MemInv) (ht : t.MemInv) (h : s.out.Extends t.out) : s.i ≤ t.i := by
  by_contra hlt
  have hwritten : (s.out.read t.i).isSome = true := by rw [hs.written]; exact decide_eq_true (Nat.lt_of_not_le hlt)
  obtain ⟨b, hb⟩ := Option.isSome_iff_exists.mp hwritten
  exact Option.some_ne_none b ((h t.i b hb).symm.trans ht.unwritten)

/-- Settles O50: every byte is written at an unwritten entry, and the memory invariant, kept by the step, says that the
written entries are those below I. -/
theorem outputIsAppendOnly : Obligations.OutputIsAppendOnly := by
  intro s t hs hreq h
  have ht : t.MemInv := stepKeepsMemoryInvariant s t hs h
  have hext : s.out.Extends t.out := out_extends_of_step hs hreq h
  exact ⟨hext, i_le_of_out_extends hs ht hext, ht.written⟩

end Sys2Proof.Machine

/-! PROOFS of spec/30_encoding.md: decode and encode are inverse on bit arrays, and so are writing and reading the table
payload. -/

namespace Sys2Proof.Machine

/-! The decoder, an equation for each outcome. -/

theorem decode_header {t : Tables} {c : List Int} {p : Nat} {b : Byte} (h : byteAt c p = some b) :
    decode t .header c p = .ok (if b = 0 then .hdrNocomp else .hdrComp b, 8) := by
  simp only [decode, h]

theorem decode_raw {t : Tables} {c : List Int} {p : Nat} {b : Byte} (h : byteAt c p = some b) :
    decode t .raw c p = .ok (.raw b, 8) := by
  simp only [decode, h]

section
variable {t : Tables} {c : List Int} {p ls lv av n : Nat}

theorem decode_lit {b : Byte} (h : fieldAt t.chLen t.wc c p = some (b.toNat, ls)) (hW : b ≠ t.delimW)
    (hD : b ≠ t.delimD) : decode t .coded c p = .ok (.lit b, ls) := by
  have hW' : b.toNat ≠ t.delimW.toNat := BitVec.toNat_ne.mp hW
  have hD' : b.toNat ≠ t.delimD.toNat := BitVec.toNat_ne.mp hD
  simp only [decode, decodeCoded, h, if_neg hW', if_neg hD', BitVec.ofNat_toNat, BitVec.setWidth_eq]

theorem decode_wmatch (h : fieldAt t.chLen t.wc c p = some (t.delimW.toNat, ls))
    (hm : decodeMatch t c p ls = .ok (lv, av, n)) : decode t .coded c p = .ok (.wmatch (lv + 1) (av + 1), n) := by
  simp only [decode, decodeCoded, h, if_true, hm]

theorem decode_dmatch (hd : t.delimW ≠ t.delimD) (h : fieldAt t.chLen t.wc c p = some (t.delimD.toNat, ls))
    (hm : decodeMatch t c p ls = .ok (lv, av, n)) : decode t .coded c p = .ok (.dmatch (lv + 1) av, n) := by
  have hne : t.delimD.toNat ≠ t.delimW.toNat := BitVec.toNat_ne.mp hd.symm
  simp only [decode, decodeCoded, h, if_neg hne, if_true, hm]

end

/-! The two match rows have one format: a delimiter, a stored length, a stored address (R85 to R87). -/

/-- The bits of a match record with delimiter `d` and the stored fields `lv` and `av`. -/
def matchBits (t : Tables) (d : Byte) (lv av : Nat) : List Int :=
  symBits t.chLen d.toNat ++ symBits t.lnLen lv ++ symBits t.adLen av

/-- The stored fields of a match record are in range and each has a code (R88, R93). -/
structure MatchFields (t : Tables) (d : Byte) (lv av : Nat) : Prop where
  lenRange : lv < 256
  addrRange : av < 2 ^ t.alog2
  delimCoded : 0 < codeLen t.chLen d.toNat
  lenCoded : 0 < codeLen t.lnLen lv
  addrCoded : 0 < codeLen t.adLen av

theorem encode_wmatch (t : Tables) (lv av : Nat) : encode t (.wmatch (lv + 1) (av + 1)) = matchBits t t.delimW lv av := rfl

theorem encode_dmatch (t : Tables) (lv addr : Nat) : encode t (.dmatch (lv + 1) addr) = matchBits t t.delimD lv addr := rfl

theorem wf_lit {t : Tables} {b : Byte} :
    (Instr.lit b).wf t = true ↔ b ≠ t.delimW ∧ b ≠ t.delimD ∧ 0 < codeLen t.chLen b.toNat := by
  simp [Instr.wf, used_iff, and_assoc]

theorem wf_wmatch {t : Tables} {len dist : Nat} :
    (Instr.wmatch len dist).wf t = true ↔
      ∃ lv av, len = lv + 1 ∧ dist = av + 1 ∧ MatchFields t t.delimW lv av := by
  simp only [Instr.wf, Bool.and_eq_true, decide_eq_true_eq, used_iff]
  constructor
  · rintro ⟨⟨⟨⟨⟨⟨hlen, hlen'⟩, hdist⟩, hdist'⟩, hd⟩, hl⟩, ha⟩
    exact ⟨len - 1, dist - 1, by omega, by omega, by omega, by omega, hd, hl, ha⟩
  · rintro ⟨lv, av, rfl, rfl, hlen, haddr, hd, hl, ha⟩
    exact ⟨⟨⟨⟨⟨⟨by omega, by omega⟩, by omega⟩, by omega⟩, hd⟩, hl⟩, ha⟩

theorem wf_dmatch {t : Tables} {len addr : Nat} :
    (Instr.dmatch len addr).wf t = true ↔ ∃ lv, len = lv + 1 ∧ MatchFields t t.delimD lv addr := by
  simp only [Instr.wf, Bool.and_eq_true, decide_eq_true_eq, used_iff]
  constructor
  · rintro ⟨⟨⟨⟨⟨hlen, hlen'⟩, haddr⟩, hd⟩, hl⟩, ha⟩
    exact ⟨len - 1, by omega, by omega, haddr, hd, hl, ha⟩
  · rintro ⟨lv, rfl, hlen, haddr, hd, hl, ha⟩
    exact ⟨⟨⟨⟨⟨by omega, by omega⟩, haddr⟩, hd⟩, hl⟩, ha⟩

/-! Decoding an encoding. -/

/-- A coded symbol's bits, in place, read as the symbol in the chars field. -/
theorem charsField_symBits {t : Tables} (ht : TablesOk t) {s : Nat} (hs : 0 < codeLen t.chLen s) (pre : List Int)
    {post : List Int} (hb : BooleanArray post) :
    fieldAt t.chLen t.wc (pre ++ symBits t.chLen s ++ post) pre.length = some (s, codeLen t.chLen s) := by
  obtain ⟨hch, -, -, hwc, -⟩ := ht
  rw [hwc, List.append_assoc]
  exact fieldAt_symBits hch hs pre post hb

/-- The bits of a match record, in place, read as its delimiter in the chars field and its two stored fields after it. -/
theorem fields_of_matchBits {t : Tables} (ht : TablesOk t) {d : Byte} {lv av : Nat} (h : MatchFields t d lv av)
    (pre : List Int) {post : List Int} (hb : BooleanArray post) :
    fieldAt t.chLen t.wc (pre ++ matchBits t d lv av ++ post) pre.length = some (d.toNat, codeLen t.chLen d.toNat) ∧
    decodeMatch t (pre ++ matchBits t d lv av ++ post) pre.length (codeLen t.chLen d.toNat) =
      .ok (lv, av, codeLen t.chLen d.toNat + codeLen t.lnLen lv + codeLen t.adLen av) := by
  have hrest : BooleanArray (symBits t.lnLen lv ++ (symBits t.adLen av ++ post)) :=
    booleanArray_append (symBits_boolean _ _) (booleanArray_append (symBits_boolean _ _) hb)
  have hsplit : pre ++ matchBits t d lv av ++ post =
      pre ++ (symBits t.chLen d.toNat ++ (symBits t.lnLen lv ++ (symBits t.adLen av ++ post))) := by
    simp only [matchBits, List.append_assoc]
  rw [hsplit]
  constructor
  · rw [← List.append_assoc pre]
    exact charsField_symBits ht h.delimCoded pre hrest
  · exact decodeMatch_append ht pre _ post (symBits_length _ _) h.lenCoded h.addrCoded hb

/-- Settles O17: each format's fields read back at their places, and the fields of a record fix its row. -/
theorem decodeOfEncodeIsTheInstruction : Obligations.DecodeOfEncodeIsTheInstruction := by
  intro t i m pre post ht hwf hm hb
  cases i with
  | hdrNocomp =>
    cases hm
    exact decode_header (byteAt_byteBits 0 pre post)
  | hdrComp level =>
    cases hm
    have hne : level ≠ 0 := by simpa [Instr.wf] using hwf
    have hdec := decode_header (t := t) (byteAt_byteBits level pre post)
    rwa [if_neg hne] at hdec
  | raw b =>
    cases hm
    exact decode_raw (byteAt_byteBits b pre post)
  | lit b =>
    cases hm
    obtain ⟨hW, hD, hcode⟩ := wf_lit.mp hwf
    exact decode_lit (charsField_symBits ht hcode pre hb) hW hD
  | wmatch len dist =>
    cases hm
    obtain ⟨lv, av, rfl, rfl, hfields⟩ := wf_wmatch.mp hwf
    obtain ⟨hdelim, hmatch⟩ := fields_of_matchBits ht hfields pre hb
    rw [encode_wmatch]
    exact decode_wmatch hdelim hmatch
  | dmatch len addr =>
    cases hm
    obtain ⟨lv, rfl, hfields⟩ := wf_dmatch.mp hwf
    have ⟨_, _, _, _, _, _, hne⟩ := ht
    obtain ⟨hdelim, hmatch⟩ := fields_of_matchBits ht hfields pre hb
    rw [encode_dmatch]
    exact decode_dmatch hne hdelim hmatch
  | _ => cases hm

/-! Encoding what was decoded. -/

/-- After a delimiter, any bits are the stored fields of some match record, and the record's encoding. -/
theorem exists_match {t : Tables} (ht : TablesOk t) {c : List Int} (hb : BooleanArray c) {p ls : Nat} {d : Byte}
    (hd : fieldAt t.chLen t.wc c p = some (d.toNat, ls)) :
    ∃ lv av, MatchFields t d lv av ∧
      decodeMatch t c p ls = .ok (lv, av, codeLen t.chLen d.toNat + codeLen t.lnLen lv + codeLen t.adLen av) ∧
      ∀ j, j < codeLen t.chLen d.toNat + codeLen t.lnLen lv + codeLen t.adLen av →
        bitAt c (p + j) = bitAt (matchBits t d lv av) j := by
  obtain ⟨hch, hln, had, hwc, hwl, hwa, -⟩ := ht
  rw [hwc] at hd
  obtain ⟨-, hls, -, rfl⟩ := fieldAt_some hch.1 hd
  obtain ⟨lv, ll, hlen, hlv, hll, -, rfl⟩ := exists_fieldAt hln hb (p + codeLen t.chLen d.toNat)
  obtain ⟨av, la, haddr, hav, hla, -, rfl⟩ := exists_fieldAt had hb (p + codeLen t.chLen d.toNat + codeLen t.lnLen lv)
  refine ⟨lv, av, ⟨hlv, hav, hls, hll, hla⟩, ?_, ?_⟩
  · simp only [decodeMatch, hwl, hwa, hlen, haddr]
  · have hbits := bitAt_append3 (x := symBits t.chLen d.toNat) (y := symBits t.lnLen lv) (z := symBits t.adLen av)
      (c := c) (p := p)
    simp only [symBits_length] at hbits
    exact hbits (bits_of_fieldAt hch hb hd) (bits_of_fieldAt hln hb hlen) (bits_of_fieldAt had hb haddr)

/-- Settles O18: a byte is always read, and a complete table always answers a coded symbol, whose class fixes the row. -/
theorem everyPositionDecodesToItsEncoding : Obligations.EveryPositionDecodesToItsEncoding := by
  intro t m c p ht hb
  cases m with
  | header =>
    obtain ⟨b, hbyte, hbits⟩ := exists_byteAt hb p
    have hdec := decode_header (t := t) hbyte
    by_cases hzero : b = 0
    · subst hzero
      exact ⟨_, _, hdec, rfl, rfl, rfl, hbits⟩
    · rw [if_neg hzero] at hdec
      exact ⟨_, _, hdec, by simpa [Instr.wf] using hzero, rfl, rfl, hbits⟩
  | raw =>
    obtain ⟨b, hbyte, hbits⟩ := exists_byteAt hb p
    exact ⟨_, _, decode_raw hbyte, rfl, rfl, rfl, hbits⟩
  | coded =>
    have ⟨hch, _, _, hwc, _, _, hne⟩ := ht
    obtain ⟨s, ls, hfield, hs, hls, -, rfl⟩ := exists_fieldAt hch hb p
    have hbits := bits_of_fieldAt hch hb hfield
    obtain ⟨b, rfl⟩ : ∃ b : Byte, s = b.toNat := ⟨BitVec.ofNat 8 s, (Nat.mod_eq_of_lt hs).symm⟩
    rw [← hwc] at hfield
    by_cases hW : b = t.delimW
    · subst hW
      obtain ⟨lv, av, hfields, hmatch, hbits⟩ := exists_match ht hb hfield
      exact ⟨_, _, decode_wmatch hfield hmatch, wf_wmatch.mpr ⟨lv, av, rfl, rfl, hfields⟩, rfl, rfl,
        by rwa [encode_wmatch]⟩
    by_cases hD : b = t.delimD
    · subst hD
      obtain ⟨lv, av, hfields, hmatch, hbits⟩ := exists_match ht hb hfield
      exact ⟨_, _, decode_dmatch hne hfield hmatch, wf_dmatch.mpr ⟨lv, rfl, hfields⟩, rfl, rfl,
        by rwa [encode_dmatch]⟩
    · exact ⟨_, _, decode_lit hfield hW hD, wf_lit.mpr ⟨hW, hD, hls⟩, rfl, rfl, hbits⟩

/-! The table payload. -/

theorem codeLen_le_maxLen (t : Lengths) (s : Nat) : codeLen t s ≤ maxLen t := by
  rcases Nat.eq_zero_or_pos (codeLen t s) with h | h
  · omega
  · exact le_maxLen (mem_of_codeLen h)

theorem codeLen_eq_zero_of_lt {n lo s : Nat} {t : Lengths} (h : shapedFrom n lo t = true) (hs : s < lo) :
    codeLen t s = 0 := by
  by_contra hne
  obtain ⟨hlo, -, -⟩ := shapedFrom_mem h (mem_of_codeLen (Nat.pos_of_ne_zero hne))
  exact absurd hs (Nat.not_lt.mpr hlo)

theorem shapedFrom_cons {n lo k l : Nat} {rest : Lengths} :
    shapedFrom n lo ((k, l) :: rest) = true ↔ lo ≤ k ∧ k < n ∧ 1 ≤ l ∧ shapedFrom n (k + 1) rest = true := by
  simp [shapedFrom, and_assoc]

/-- A table from `lo` on leaves the symbol `lo` unused, or lists it before a table from `lo + 1` on. -/
theorem shapedFrom_cases {n lo : Nat} {t : Lengths} (h : shapedFrom n lo t = true) :
    (codeLen t lo = 0 ∧ shapedFrom n (lo + 1) t = true) ∨
    ∃ l rest, t = (lo, l) :: rest ∧ 1 ≤ l ∧ shapedFrom n (lo + 1) rest = true := by
  cases t with
  | nil => exact .inl ⟨rfl, rfl⟩
  | cons x rest =>
    obtain ⟨k, l⟩ := x
    obtain ⟨hlo, hk, hl, hrest⟩ := shapedFrom_cons.mp h
    rcases hlo.eq_or_lt with rfl | hlt
    · exact .inr ⟨l, rest, rfl, hl, hrest⟩
    · have hnext : shapedFrom n (lo + 1) ((k, l) :: rest) = true := shapedFrom_cons.mpr ⟨hlt, hk, hl, hrest⟩
      exact .inl ⟨codeLen_eq_zero_of_lt hnext (Nat.lt_succ_self lo), hnext⟩

/-- The length byte of one symbol (R94). -/
def lengthByte (t : Lengths) (s : Nat) : Byte := BitVec.ofNat 8 (codeLen t s)

theorem lengthByte_toNat {t : Lengths} (h : maxLen t ≤ 255) (s : Nat) : (lengthByte t s).toNat = codeLen t s :=
  Nat.mod_eq_of_lt (Nat.lt_succ_of_le ((codeLen_le_maxLen t s).trans h))

theorem lengthByte_cons_of_ne {k l s : Nat} (rest : Lengths) (h : k ≠ s) :
    lengthByte ((k, l) :: rest) s = lengthByte rest s := by
  rw [lengthByte, lengthByte, codeLen, if_neg h]

theorem lengthBytes_eq_map (n : Nat) (t : Lengths) : lengthBytes n t = (List.range' 0 n).map (lengthByte t) := by
  rw [← List.range_eq_range']; rfl

@[simp] theorem lengthBytes_length (n : Nat) (t : Lengths) : (lengthBytes n t).length = n := by
  rw [lengthBytes_eq_map, List.length_map, List.length_range']

/-- The length bytes of the symbols from `lo` on read back as the table, one symbol after another. -/
theorem lengthsFrom_lengthByte {lo m : Nat} {t : Lengths} (h : shapedFrom (lo + m) lo t = true) (hl : maxLen t ≤ 255) :
    lengthsFrom lo ((List.range' lo m).map (lengthByte t)) = t := by
  induction m generalizing lo t with
  | zero =>
    cases t with
    | nil => rfl
    | cons x rest =>
      obtain ⟨hlo, hlt, -⟩ := shapedFrom_mem h (List.mem_cons_self ..)
      omega
  | succ m ih =>
    rw [List.range'_succ, List.map_cons, lengthsFrom]
    rw [show lo + (m + 1) = lo + 1 + m from by omega] at h
    rcases shapedFrom_cases h with ⟨hzero, hnext⟩ | ⟨l, rest, rfl, hpos, hrest⟩
    · have hbyte : lengthByte t lo = 0 := by rw [lengthByte, hzero]; rfl
      rw [if_pos hbyte, ih hnext hl]
    · have hvalue : (lengthByte ((lo, l) :: rest) lo).toNat = l := by
        rw [lengthByte_toNat hl, codeLen, if_pos rfl]
      have hbyte : lengthByte ((lo, l) :: rest) lo ≠ 0 := fun h0 => by
        have hl0 : l = 0 := by simpa [h0] using hvalue.symm
        omega
      have htail : (List.range' (lo + 1) m).map (lengthByte ((lo, l) :: rest)) =
          (List.range' (lo + 1) m).map (lengthByte rest) :=
        List.map_congr_left fun s hs => lengthByte_cons_of_ne rest (by have := List.mem_range'_1.mp hs; omega)
      rw [if_neg hbyte, hvalue, htail, ih hrest ((le_max_right ..).trans hl)]

/-- A table's length bytes read back as the table (R94, R130). -/
theorem lengthsFrom_lengthBytes {n : Nat} {t : Lengths} (h : shaped n t = true) (hl : maxLen t ≤ 255) :
    lengthsFrom 0 (lengthBytes n t) = t := by
  rw [lengthBytes_eq_map]
  exact lengthsFrom_lengthByte (by rwa [Nat.zero_add]) hl

theorem serializeTables_some {alog2 : Nat} {ch ln ad : Lengths} {bytes : List Byte}
    (h : serializeTables alog2 ch ln ad = some bytes) :
    (alog2 ≤ 255 ∧ maxLen ch ≤ 255 ∧ maxLen ln ≤ 255 ∧ maxLen ad ≤ 255) ∧
      BitVec.ofNat 8 alog2 :: (lengthBytes 256 ch ++ (lengthBytes 256 ln ++ lengthBytes (2 ^ alog2) ad)) = bytes := by
  rw [serializeTables, Option.ite_none_right_eq_some, Option.some.injEq, List.append_assoc] at h
  exact h

/-- A payload cut at its fixed places (R94). -/
theorem parseTables_append {a : Byte} {x y z : List Byte} (hx : x.length = 256) (hy : y.length = 256)
    (hz : z.length = 2 ^ a.toNat) :
    parseTables (a :: (x ++ (y ++ z))) = some (a.toNat, lengthsFrom 0 x, lengthsFrom 0 y, lengthsFrom 0 z) := by
  have hlen : (x ++ (y ++ z)).length = 512 + 2 ^ a.toNat := by
    rw [List.length_append, List.length_append, hx, hy, hz, ← Nat.add_assoc]
  have hdrop : (x ++ (y ++ z)).drop 512 = z := by
    rw [show 512 = 256 + 256 from rfl, ← List.drop_drop, List.drop_left' hx, List.drop_left' hy]
  rw [parseTables, if_pos hlen, List.take_left' hx, List.drop_left' hx, List.take_left' hy, hdrop]

/-- Settles O19: a payload that exists has every length in a byte, so each of its parts reads back as its table. -/
theorem payloadReadsBack : Obligations.PayloadReadsBack := by
  intro alog2 ch ln ad bytes hch hln had h
  obtain ⟨⟨ha, hch', hln', had'⟩, rfl⟩ := serializeTables_some h
  have halog : (BitVec.ofNat 8 alog2).toNat = alog2 := Nat.mod_eq_of_lt (Nat.lt_succ_of_le ha)
  constructor
  · simp only [List.length_cons, List.length_append, lengthBytes_length]
    omega
  · rw [parseTables_append (lengthBytes_length ..) (lengthBytes_length ..) (by rw [lengthBytes_length, halog]), halog,
      lengthsFrom_lengthBytes hch hch', lengthsFrom_lengthBytes hln hln', lengthsFrom_lengthBytes had had']

end Sys2Proof.Machine

/-! PROOFS of spec/40_primitive_ops.md: the arithmetic primitives, the assertions, LOOKUP and INSERT, and that the
operations of an iteration do not depend on data. -/

namespace Sys2Proof.Machine

/-! The operations of an iteration, operand values left out. -/

/-- A window's operations are one lookup and one MAC for each bit, wherever it is read (R137). -/
theorem map_eraseValues_winOps (c : List Int) (p w : Nat) (acc : Int) :
    (winOps c p w acc).map eraseValues = (List.replicate w [Instr.lookup .bits 0, .mac 0 0 0]).flatten := by
  induction w generalizing p acc with
  | zero => rfl
  | succ w ih =>
    rw [winOps, List.map_cons, List.map_cons, ih, List.replicate_succ, List.flatten_cons]
    rfl

/-- The decode's operations depend on the window widths only (R182, R183). -/
theorem map_eraseValues_decodeOps {s t : State} (hwc : s.tab.wc = t.tab.wc) (hwl : s.tab.wl = t.tab.wl)
    (hwa : s.tab.wa = t.tab.wa) (sh lsh sh' lsh' : Nat) (f f' : Fields) :
    (decodeOps s sh lsh f).map eraseValues = (decodeOps t sh' lsh' f').map eraseValues := by
  simp only [decodeOps, List.map_append, map_eraseValues_winOps, hwc, hwl, hwa]
  rfl

/-- The control operations are the same in every iteration (R184, R186 to R188). -/
theorem map_eraseValues_controlOps (s t : State) (f f' : Fields) :
    (controlOps s f).map eraseValues = (controlOps t f').map eraseValues := rfl

/-- The write operations are the same in every iteration (R189 to R197). -/
theorem map_eraseValues_writeOps (s t : State) (f f' : Fields) (v v' : Byte) :
    (writeOps s f v).map eraseValues = (writeOps t f' v').map eraseValues := rfl

/-- Settles O41: an iteration's sequence is its decode, control and write operations, and with the values left out only
the decode's depend on the state, through the widths of its windows. -/
theorem iterationSequenceIsDataIndependent : Obligations.IterationSequenceIsDataIndependent := by
  intro s t ops ops' hwc hwl hwa hs ht
  obtain ⟨sh, lsh, f, v, -, -, -, rfl⟩ := iterTrace_eq_some.mp hs
  obtain ⟨sh', lsh', f', v', -, -, -, rfl⟩ := iterTrace_eq_some.mp ht
  simp only [List.map_append]
  rw [map_eraseValues_decodeOps hwc hwl hwa sh lsh sh' lsh' f f', map_eraseValues_controlOps s t f f',
    map_eraseValues_writeOps s t f f' v v']

/-! The arithmetic primitives and the assertions. -/

/-- An operation that computes `x` yields the integer that `x` is. -/
theorem next_setYield_value {s : State} {x v : Int} (h : x = v) :
    (.next (setYield s (.value x)) : Result) = .next { s with yielded := .value v } := by
  rw [h, setYield]

/-- Settles O1: each primitive yields what its operation computes, which is the integer stated. -/
theorem arithmeticYieldsExactIntegers : Obligations.ArithmeticYieldsExactIntegers := fun _ acc a b c =>
  ⟨next_setYield_value (opAdd_eq a b), next_setYield_value (opMul_eq a b), next_setYield_value (opMac_eq acc a b),
    next_setYield_value (opSelect_eq c a b), next_setYield_value (opSub_eq a b), next_setYield_value (opNeg_eq b),
    next_setYield_value (opIsZero_eq a), next_setYield_value (opEq_eq a b)⟩

theorem exec_assertEq (s : State) (a b : Int) :
    exec (.assertEq a b) s = if a = b then .next s else .next (takeFault s .assertFail (.assertEq a b)) := rfl

theorem exec_assertBool (s : State) (a : Int) :
    exec (.assertBool a) s = if isBoolean a then .next s else .next (takeFault s .assertFail (.assertBool a)) := rfl

/-- Settles O2: an assertion branches on its condition, and where FAULT = 0 the fault it takes is the one recorded. -/
theorem assertionsPassOrTakeAssertFail : Obligations.AssertionsPassOrTakeAssertFail := by
  intro s a b
  refine ⟨fun h => ?_, fun h hf => ?_, fun h => ?_, fun h0 h1 hf => ?_⟩
  · rw [exec_assertEq, if_pos h]
  · rw [exec_assertEq, if_neg h, takeFault_of_noFault hf]
  · rw [exec_assertBool, if_pos ((isBoolean_iff a).mpr h)]
  · rw [exec_assertBool, if_neg (mt (isBoolean_iff a).mp (not_or.mpr ⟨h0, h1⟩)), takeFault_of_noFault hf]

/-! LOOKUP: what it does with a read that holds a value or none, then what each space holds. -/

/-- A LOOKUP that finds a value yields it (R116). -/
theorem exec_lookup_of_some {s : State} {space : Space} {key : Int} {y : Yield} (h : lookupYield s space key = some y) :
    exec (.lookup space key) s = .next { s with yielded := y } :=
  yieldOrMiss_next.mpr (.inl ⟨y, h, rfl⟩)

/-- A LOOKUP that finds nothing takes LookupMiss with I and the key (R116, R224). -/
theorem exec_lookup_of_none {s : State} {space : Space} {key : Int} (hf : s.fault = false)
    (h : lookupYield s space key = none) :
    exec (.lookup space key) s = .next { s with fault := true, fcode := .lookupMiss, finfo := .miss s.i key } :=
  yieldOrMiss_next.mpr (.inr ⟨h, (takeFault_of_noFault hf _ _).symm⟩)

/-- Every key of BITS from 0 on holds a value (R67). -/
theorem bitsRead_natCast (s : State) (k : Nat) : bitsRead s k = some (bitAt s.bits k) := if_neg (by omega)

theorem bitAt_of_get {d : List Int} {k : Nat} {v : Int} (h : d[k]? = some v) : bitAt d k = v := by
  rw [bitAt, List.getD_eq_getElem?_getD, h, Option.getD_some]

/-- At and beyond NBITS a bit reads as 0 (R67). -/
theorem State.bitAt_beyond {s : State} {k : Nat} (h : s.nbits ≤ k) : bitAt s.bits k = 0 :=
  List.getD_eq_default _ _ (by rwa [State.bits_length])

/-- An entry of C that the host has loaded (R32). -/
theorem State.bits_get_loaded {s : State} {k : Nat} {v : Int} (hk : k < s.nbits) (h : s.loaded[k]? = some v) :
    s.bits[k]? = some v := by
  rw [s.bits_get hk, List.getD_eq_getElem?_getD, h, Option.getD_some]

theorem ofFlag_cases (b : Bool) : ofFlag b = 0 ∨ ofFlag b = 1 := by
  cases b
  · exact .inl rfl
  · exact .inr rfl

/-- An entry of C that the host has not loaded is some bit (R32). -/
theorem State.bits_get_free {s : State} {k : Nat} (hk : k < s.nbits) (h : s.loaded.length ≤ k) :
    s.bits[k]? = some 0 ∨ s.bits[k]? = some 1 := by
  rw [s.bits_get hk, List.getD_eq_default _ _ h, Option.some_inj, Option.some_inj]
  exact ofFlag_cases _

/-- Every key below DICT_LEN holds a byte of DICT (R33). -/
theorem dictRead_natCast {s : State} {k : Nat} (h : k < s.dictLen) : dictRead s k = some (s.dictByte k) :=
  dictRead_some.mpr ⟨by omega, by omega, rfl⟩

/-- A written entry of OUT holds its byte (R34). -/
theorem outRead_natCast {s : State} {k : Nat} {b : Byte} (hk : k < s.cfg.outMax) (h : s.out.read k = some b) :
    outRead s k = some b :=
  outRead_some.mpr ⟨by omega, by omega, h⟩

/-- Settles O4: in each space the key's read is some value, which LOOKUP yields. -/
theorem lookupYieldsTheEntryHeld : Obligations.LookupYieldsTheEntryHeld := by
  intro s k v b key sym len
  have hbits : exec (.lookup .bits k) s = .next { s with yielded := .value (bitAt s.bits k) } :=
    exec_lookup_of_some (Option.map_eq_some_iff.mpr ⟨_, bitsRead_natCast s k, rfl⟩)
  refine ⟨fun h => ?_, fun h => ?_, State.bits_get_loaded, State.bits_get_free, fun h => ⟨?_, ?_⟩,
    State.dictByte_of_read, fun hk hi h => ⟨?_, ?_⟩, fun h => ?_, fun h => ?_, fun h => ?_⟩
  · rw [hbits, bitAt_of_get h]
  · rw [hbits, State.bitAt_beyond h]
  · exact exec_lookup_of_some (Option.map_eq_some_iff.mpr ⟨_, dictRead_natCast h, rfl⟩)
  · exact exec_lookup_of_some (Option.map_eq_some_iff.mpr ⟨_, srcRead_dict h, rfl⟩)
  · exact exec_lookup_of_some (Option.map_eq_some_iff.mpr ⟨_, outRead_natCast (hk.trans_le hi) h, rfl⟩)
  · refine exec_lookup_of_some (Option.map_eq_some_iff.mpr ⟨b, ?_, rfl⟩)
    rw [Nat.cast_add, srcRead_out hk hi, h]
  · exact exec_lookup_of_some (Option.map_eq_some_iff.mpr ⟨_, h, rfl⟩)
  · exact exec_lookup_of_some (Option.map_eq_some_iff.mpr ⟨_, h, rfl⟩)
  · exact exec_lookup_of_some (Option.map_eq_some_iff.mpr ⟨_, h, rfl⟩)

/-- A key outside 0 .. DICT_LEN + I - 1 holds no byte of SRC (R59). -/
theorem srcRead_none {s : State} {key : Int} (h : key < 0 ∨ (s.dictLen : Int) + s.i ≤ key) : srcRead s key = none := by
  rw [Option.eq_none_iff_forall_ne_some]
  intro b hb
  have := srcRead_some_bounds hb
  omega

/-- A key outside 0 .. DICT_LEN - 1 holds no byte of DICT (R33). -/
theorem dictRead_none {s : State} {key : Int} (h : key < 0 ∨ (s.dictLen : Int) ≤ key) : dictRead s key = none :=
  if_neg (by omega)

/-- A key outside 0 .. OUT_MAX - 1, or of an unwritten entry, holds no byte of OUT (R34). -/
theorem outRead_none {s : State} {key : Int}
    (h : key < 0 ∨ (s.cfg.outMax : Int) ≤ key ∨ s.out.read key.toNat = none) : outRead s key = none := by
  rw [Option.eq_none_iff_forall_ne_some]
  intro b hb
  obtain ⟨h0, hmax, hread⟩ := outRead_some.mp hb
  rcases h with h | h | h
  · omega
  · omega
  · exact absurd (hread.symm.trans h) (Option.some_ne_none b)

/-- Settles O5: in each space the key's read is none, so LOOKUP misses. -/
theorem lookupOfNoValueTakesLookupMiss : Obligations.LookupOfNoValueTakesLookupMiss := by
  intro s key space hf h
  refine exec_lookup_of_none hf ?_
  rcases h with ⟨rfl, h⟩ | ⟨rfl, h⟩ | ⟨rfl, h⟩ | ⟨rfl, h⟩ | ⟨rfl, h⟩ | ⟨rfl, h⟩ | ⟨rfl, h⟩
  · exact Option.map_eq_none_iff.mpr (srcRead_none h)
  · exact Option.map_eq_none_iff.mpr (if_pos h)
  · exact Option.map_eq_none_iff.mpr (dictRead_none h)
  · exact Option.map_eq_none_iff.mpr (outRead_none h)
  · exact Option.map_eq_none_iff.mpr h
  · exact Option.map_eq_none_iff.mpr h
  · exact Option.map_eq_none_iff.mpr h

/-! INSERT. -/

/-- Settles O7: the enabled INSERT's guard holds, and its one write is OUT's write of entry I. -/
theorem insertWritesEntryI : Obligations.InsertWritesEntryI := by
  intro s v hp hf hi hunwritten
  refine ⟨s.out.write s.i v, ?_, fun k => Memory.read_write s.out s.i k v, Memory.wf_write s.i v⟩
  rw [exec_insert_of_enabled hp hf]
  exact insertOut_next.mpr ⟨rfl, hi, hunwritten, rfl⟩

end Sys2Proof.Machine

/-! PROOFS of spec/41_prefix_code.md: the bit reader, the canonical codes and their lookup tables, the reference reader
and the decode tree, and the code-length builder. -/

namespace Sys2Proof.Machine

/-! The bit reader and the field decoders (R137 to R140). -/

theorem bitAt_eq_dite (d : List Int) (k : Nat) : bitAt d k = if h : k < d.length then d[k] else 0 := by
  split
  · rename_i h
    exact List.getD_eq_getElem d 0 h
  · rename_i h
    exact List.getD_eq_default d 0 (Nat.le_of_not_lt h)

/-- A window is the sum of its bits' place values (R137). -/
theorem win_eq_sum (c : List Int) (p w : Nat) :
    win c p w = ∑ j ∈ Finset.range w, bitAt c (p + j) * 2 ^ (w - 1 - j) := by
  induction w generalizing p with
  | zero => rfl
  | succ w ih =>
    rw [win_succ, ih, Finset.sum_range_succ', add_comm]
    congr 1
    refine Finset.sum_congr rfl fun j _ => ?_
    rw [Nat.add_assoc, Nat.add_comm 1 j, Nat.add_sub_cancel, Nat.sub_sub, Nat.add_comm 1 j]

/-- Settles O9: WIN yields the state's window, which is the sum of its bits' place values. -/
theorem bitWindowIsItsBinaryNumeral : Obligations.BitWindowIsItsBinaryNumeral := by
  intro s p w
  refine next_setYield_value ((win_eq_sum s.bits p w).trans (Finset.sum_congr rfl fun j _ => ?_))
  rw [bitAt_eq_dite]

/-- A table lookup that answers yields the entry. -/
theorem yieldOrMiss_entry {s : State} {key : Int} {r : Option (Nat × Nat)} {sym len : Nat} (h : r = some (sym, len)) :
    yieldOrMiss s key (r.map fun e => .entry e.1 e.2) = .next { s with yielded := .entry sym len } := by
  rw [h]
  rfl

/-- Settles O10: a valid configuration's tables are complete and their registers the largest code lengths, so each field
decode answers. -/
theorem fieldDecodersYieldUsedSymbols : Obligations.FieldDecodersYieldUsedSymbols := by
  intro s p hv
  obtain ⟨hch, hln, had, hwc, hwl, hwa, -⟩ := hv.tables
  obtain ⟨c, lc, hc, hcn, hc1, hcw, hcl⟩ := exists_fieldAt hch hv.2 p
  obtain ⟨l, ll, hl, hln, hl1, hlw, hll⟩ := exists_fieldAt hln hv.2 p
  obtain ⟨a, la, ha, han, ha1, haw, hal⟩ := exists_fieldAt had hv.2 p
  rw [← hwc] at hc hcw
  rw [← hwl] at hl hlw
  rw [← hwa] at ha haw
  exact ⟨⟨c, lc, yieldOrMiss_entry hc, hc, Nat.le_of_lt_succ hcn, hc1, hcw, hcl⟩,
    ⟨l, ll, yieldOrMiss_entry hl, hl, Nat.le_of_lt_succ hln, hl1, hlw, hll⟩,
    ⟨a, la, yieldOrMiss_entry ha, ha, han, ha1, haw, hal⟩⟩

/-! The canonical codes (R132). -/

/-- The canonical form of a table: its symbols rise, lie in the alphabet and are used (R130). -/
theorem shapedFrom_iff {n lo : Nat} {t : Lengths} :
    shapedFrom n lo t = true ↔ t.Pairwise (fun x y => x.1 < y.1) ∧ ∀ x ∈ t, lo ≤ x.1 ∧ x.1 < n ∧ 1 ≤ x.2 := by
  induction t generalizing lo with
  | nil => simp [shapedFrom]
  | cons x rest ih =>
    simp only [shapedFrom, Bool.and_eq_true, decide_eq_true_eq, ih, List.pairwise_cons, List.forall_mem_cons]
    constructor
    · rintro ⟨⟨⟨hlo, hn⟩, hl⟩, hp, hrest⟩
      exact ⟨⟨fun y hy => (hrest y hy).1, hp⟩, ⟨hlo, hn, hl⟩,
        fun y hy => ⟨hlo.trans (Nat.le_of_lt (hrest y hy).1), (hrest y hy).2⟩⟩
    · rintro ⟨⟨hx, hp⟩, ⟨hlo, hn, hl⟩, hrest⟩
      exact ⟨⟨⟨hlo, hn⟩, hl⟩, hp, fun y hy => ⟨hx y hy, (hrest y hy).2⟩⟩

/-- The order of R132: by length, then by symbol. -/
def CodeEntry.Before (e e' : CodeEntry) : Prop := e.len < e'.len ∨ e.len = e'.len ∧ e.sym < e'.sym

/-- The step of R132's counter: increment, then shift left by the increase in length. -/
def CodeEntry.StepsTo (e e' : CodeEntry) : Prop := e'.code = (e.code + 1) * 2 ^ (e'.len - e.len)

theorem map_assignFrom (c lp : Nat) (t : Lengths) : (assignFrom c lp t).map (fun e => (e.sym, e.len)) = t := by
  induction t generalizing c lp with
  | nil => rfl
  | cons x rest ih => rw [assignFrom, List.map_cons, ih]

/-- The codes stand in the order of the sorted symbols. -/
theorem map_codes (t : Lengths) : (codes t).map (fun e => (e.sym, e.len)) = ordered t := by
  rw [codes]
  cases ordered t with
  | nil => rfl
  | cons x rest => rw [assign, List.map_cons, map_assignFrom]

theorem ordered_pairwise {n : Nat} {t : Lengths} (h : shaped n t = true) :
    (ordered t).Pairwise fun x y => x.2 < y.2 ∨ x.2 = y.2 ∧ x.1 < y.1 := by
  have hlen : ∀ {l : Nat} {x : Nat × Nat}, x ∈ t.filter (fun e => e.2 == l + 1) → x.2 = l + 1 :=
    fun hx => by simpa using (List.mem_filter.mp hx).2
  refine List.pairwise_flatMap.mpr ⟨fun l _ => ?_, List.pairwise_lt_range.imp fun hl x hx y hy => .inl ?_⟩
  · refine ((shapedFrom_iff.mp h).1.filter _).imp_of_mem fun hx hy hlt => .inr ⟨?_, hlt⟩
    rw [hlen hx, hlen hy]
  · rw [hlen hx, hlen hy]
    omega

/-- The codes are sorted by length, then by symbol (R132). -/
theorem codes_pairwise_before {n : Nat} {t : Lengths} (h : shaped n t = true) :
    (codes t).Pairwise CodeEntry.Before := by
  have := ordered_pairwise h
  rwa [← map_codes, List.pairwise_map] at this

/-- No code stands twice. -/
theorem codes_pairwise_ne {n : Nat} {t : Lengths} (h : shaped n t = true) : (codes t).Pairwise (· ≠ ·) :=
  (codes_pairwise_before h).imp fun hb he => by
    subst he
    rcases hb with hb | hb
    · exact Nat.lt_irrefl _ hb
    · exact Nat.lt_irrefl _ hb.2

/-- A symbol has one code, so no symbol stands twice. -/
theorem codes_sym_nodup {n : Nat} {t : Lengths} (h : shaped n t = true) : ((codes t).map CodeEntry.sym).Nodup :=
  List.Nodup.map_on (fun _ he _ he' hs => code_unique h he he' hs) (codes_pairwise_ne h)

theorem assignFrom_isChain (s lp c : Nat) (t : Lengths) :
    (⟨s, lp, c⟩ :: assignFrom c lp t).IsChain CodeEntry.StepsTo := by
  induction t generalizing s lp c with
  | nil => exact .singleton _
  | cons x rest ih => exact .cons_cons rfl (ih _ _ _)

/-- Each code follows from the one before by the counter's step (R132). -/
theorem codes_isChain (t : Lengths) : (codes t).IsChain CodeEntry.StepsTo := by
  rw [codes]
  cases ordered t with
  | nil => exact .nil
  | cons x rest => exact assignFrom_isChain _ _ _ _

/-- A relation between neighbours in a list holds of its entries k and k + 1. -/
theorem isChain_getElem? {α : Type} {R : α → α → Prop} {l : List α} (h : l.IsChain R) {k : Nat} {a b : α}
    (ha : l[k]? = some a) (hb : l[k + 1]? = some b) : R a b := by
  obtain ⟨_, rfl⟩ := List.getElem?_eq_some_iff.mp ha
  obtain ⟨hk, rfl⟩ := List.getElem?_eq_some_iff.mp hb
  exact h.getElem k hk

/-- A tiling that ends beyond its start has a first code, which begins where the tiling does. -/
theorem Tiles.head {w a b : Nat} {l : List CodeEntry} (h : Tiles w a l b) (hab : a < b) :
    ∃ e, l.head? = some e ∧ e.first w = a := by
  cases l with
  | nil => exact absurd h hab.ne
  | cons e rest => exact ⟨e, rfl, h.1⟩

/-- A tiling that ends beyond its start has a last code, which ends where the tiling does. -/
theorem Tiles.getLast {w a b : Nat} {l : List CodeEntry} (h : Tiles w a l b) (hab : a < b) :
    ∃ e, l.getLast? = some e ∧ e.beyond w = b := by
  induction l generalizing a with
  | nil => exact absurd h hab.ne
  | cons e rest ih =>
    obtain ⟨-, -, hrest⟩ := h
    cases rest with
    | nil => exact ⟨e, rfl, hrest⟩
    | cons e' rest' =>
      have hlt : e.beyond w < b := by
        have hb := (hrest.bounds List.mem_cons_self).2.1
        have he := hrest.1
        have hp := Nat.two_pow_pos (w - e'.len)
        rw [e'.beyond_eq] at hb
        omega
      rw [List.getLast?_cons_cons]
      exact ih hrest hlt

theorem first_code_zero {n : Nat} {t : Lengths} (h : CompleteTable n t) :
    ∃ e, (codes t).head? = some e ∧ e.code = 0 := by
  obtain ⟨e, he, hf⟩ := (codes_tile_all h).head (Nat.two_pow_pos _)
  exact ⟨e, he, (Nat.mul_eq_zero.mp hf).resolve_right (Nat.two_pow_pos _).ne'⟩

theorem last_code_ones {n : Nat} {t : Lengths} (h : CompleteTable n t) :
    ∃ e, (codes t).getLast? = some e ∧ e.code + 1 = 2 ^ e.len := by
  obtain ⟨e, he, hb⟩ := (codes_tile_all h).getLast (Nat.two_pow_pos _)
  have hl := ((codes_tile_all h).bounds (List.mem_of_getLast? he)).2.2
  rw [CodeEntry.beyond, ← pow_mul_pow_sub 2 hl] at hb
  exact ⟨e, he, Nat.eq_of_mul_eq_mul_right (Nat.two_pow_pos _) hb⟩

/-- A code that a longer one begins with covers the longer one's first key, so no code begins another (R132). -/
theorem code_prefix_free {n : Nat} {t : Lengths} (h : CompleteTable n t) {e e' : CodeEntry} (he : e ∈ codes t)
    (he' : e' ∈ codes t) {d : Nat} (hd : e'.len = e.len + d) (hp : e'.code / 2 ^ d = e.code) : e = e' := by
  have ht := codes_tiles h.1
  have hl' := (ht.bounds he').2.2
  have hw : maxLen t - e.len = d + (maxLen t - e'.len) := by omega
  have hlow : e.first (maxLen t) ≤ e'.first (maxLen t) := by
    rw [CodeEntry.first, hw, pow_add, ← mul_assoc, ← hp]
    exact Nat.mul_le_mul_right _ (Nat.div_mul_le_self _ _)
  have hbeyond : e'.beyond (maxLen t) ≤ e.beyond (maxLen t) := by
    rw [CodeEntry.beyond, CodeEntry.beyond, hw, pow_add, ← mul_assoc]
    exact Nat.mul_le_mul_right _ ((Nat.div_lt_iff_lt_mul (Nat.two_pow_pos d)).mp (hp ▸ Nat.lt_succ_self _))
  have hpos := Nat.two_pow_pos (maxLen t - e'.len)
  have hlen := e'.beyond_eq (maxLen t)
  exact ht.unique he he' (k := e'.first (maxLen t)) (CodeEntry.covers_iff.mpr (by omega))
    (CodeEntry.covers_iff.mpr (by omega))

/-- Settles O12: the codes are sorted, follow one another by the counter's step and tile the keys from end to end. -/
theorem canonicalCodesFillTheCodeSpace : Obligations.CanonicalCodesFillTheCodeSpace := by
  intro n t ht
  refine ⟨fun sym len => ⟨?_, ?_⟩, codes_sym_nodup ht.1, fun k e e' hk hk' => ⟨?_, ?_⟩, first_code_zero ht,
    last_code_ones ht, fun e => code_lt ht, fun e he e' he' hne d hd hp => hne (code_prefix_free ht he he' hd hp)⟩
  · rintro ⟨e, he, rfl, rfl⟩
    obtain ⟨-, hpos, -, hlen⟩ := mem_codes ht.1 he
    exact ⟨hpos, hlen⟩
  · rintro ⟨hpos, rfl⟩
    exact exists_code hpos
  · exact isChain_getElem? (codes_pairwise_before ht.1).isChain hk hk'
  · exact isChain_getElem? (codes_isChain t) hk hk'

/-! Every key has one entry (R136, R141). -/

/-- Settles O11: the codes of a complete table tile the keys, so some code fills the key, no other does, and the lookup
finds that one. -/
theorem everyKeyHasExactlyOneEntry : Obligations.EveryKeyHasExactlyOneEntry := by
  intro n t k ht h0 h1
  obtain ⟨e, he, -, hc⟩ := exists_lutAt ht h0 h1
  exact ⟨⟨e, ⟨he, hc⟩, fun e' ⟨he', hc'⟩ => (codes_tiles ht.1).unique he' he hc' hc⟩,
    fun e' he' hc' => lutAt_of_covers ht.1 he' hc'⟩

/-! The reference reader (R135). -/

/-- The reader's next value is the window one bit longer. -/
theorem opMac_win (c : List Int) (p l : Nat) : opMac (bitAt c (p + l)) 2 (win c p l) = win c p (l + 1) := by
  rw [win_succ_last, opMac_eq]
  ring

/-- A window of a boolean array begins with exactly one code of a complete table: the one its lookup finds. -/
theorem exists_code_at {n : Nat} {t : Lengths} (h : CompleteTable n t) {c : List Int} (hb : BooleanArray c) (p : Nat) :
    ∃ e ∈ codes t, fieldAt t (maxLen t) c p = some (e.sym, e.len) ∧
      ∀ e' ∈ codes t, win c p e'.len = e'.code ↔ e' = e := by
  have hr := win_range hb p (maxLen t)
  obtain ⟨e, he, hf, hc⟩ := exists_lutAt h hr.1 hr.2
  refine ⟨e, he, hf, fun e' he' => ⟨fun hw => ?_, ?_⟩⟩
  · exact (codes_tiles h.1).unique he' he (covers_win hb (mem_codes h.1 he').2.2.1 hw) hc
  · rintro rfl
    exact win_of_covers hb (mem_codes h.1 he).2.2.1 hc

/-- A search whose test only e passes finds e. -/
theorem find?_eq_some_of_unique {α : Type} {l : List α} {p : α → Bool} {e : α} (he : e ∈ l)
    (h : ∀ x ∈ l, p x = true ↔ x = e) : l.find? p = some e := by
  obtain ⟨x, hx⟩ := Option.isSome_iff_exists.mp (List.find?_isSome.mpr ⟨e, he, (h e he).mpr rfl⟩)
  rw [hx, (h x (List.mem_of_find?_eq_some hx)).mp (List.find?_some hx)]

/-- The search after l bits finds the only code the bits at p begin with, if it has l + 1 bits, and else nothing. -/
theorem find_code_at {cs : List CodeEntry} {c : List Int} {p : Nat} {e : CodeEntry} (he : e ∈ cs)
    (hu : ∀ e' ∈ cs, win c p e'.len = e'.code ↔ e' = e) (l : Nat) :
    cs.find? (fun e' => e'.len == l + 1 && ((e'.code : Int) == win c p (l + 1))) =
      if e.len = l + 1 then some e else none := by
  have hmatch : ∀ e' ∈ cs, (e'.len == l + 1 && ((e'.code : Int) == win c p (l + 1))) = true ↔
      e' = e ∧ e.len = l + 1 := by
    intro e' he'
    rw [Bool.and_eq_true, beq_iff_eq, beq_iff_eq]
    constructor
    · rintro ⟨hl, hw⟩
      obtain rfl := (hu e' he').mp (by rw [hl, hw])
      exact ⟨rfl, hl⟩
    · rintro ⟨rfl, hl⟩
      exact ⟨hl, by rw [← hl, (hu e' he').mpr rfl]⟩
  split
  · rename_i hl
    exact find?_eq_some_of_unique he fun e' he' => (hmatch e' he').trans (and_iff_left hl)
  · rename_i hl
    exact List.find?_eq_none.mpr fun e' he' h => hl ((hmatch e' he').mp h).2

/-- The reader stops at the only code that the bits at p begin with. -/
theorem refReadFrom_eq {cs : List CodeEntry} {c : List Int} {p : Nat} {e : CodeEntry} (he : e ∈ cs)
    (hu : ∀ e' ∈ cs, win c p e'.len = e'.code ↔ e' = e) {fuel l : Nat} (hl : l < e.len) (hf : e.len ≤ l + fuel) :
    refReadFrom cs c fuel (p + l) l (win c p l) = some (e.sym, e.len) := by
  induction fuel generalizing l with
  | zero => omega
  | succ fuel ih =>
    rw [refReadFrom, opMac_win, find_code_at he hu]
    split
    · rename_i x hx
      split at hx
      · cases hx; rfl
      · cases hx
    · rename_i hx
      have hne : e.len ≠ l + 1 := fun h => by rw [if_pos h] at hx; cases hx
      exact ih (l := l + 1) (by omega) (by omega)

/-- Settles O13: the lookup's code is the only one the bits begin with, so the reader stops there too. -/
theorem fieldDecodeAgreesWithReferenceReader : Obligations.FieldDecodeAgreesWithReferenceReader := by
  intro n t c p ht hb
  obtain ⟨e, he, hfield, hu⟩ := exists_code_at ht hb p
  obtain ⟨-, hpos, hmax, -⟩ := mem_codes ht.1 he
  rw [hfield]
  exact (refReadFrom_eq he hu (l := 0) hpos (by omega)).symm

/-! The decode tree (R134, R135). A node is spoken of from the side of one bit: the child there and the other child. -/

/-- A leaf with the symbol stands at the end of the path. -/
def CodeTree.Holds : CodeTree → List Bool → Nat → Prop
  | .leaf s, [], s' => s = s'
  | .node z o, b :: bs, s => if b then o.Holds bs s else z.Holds bs s
  | _, _, _ => False

/-- The path leaves the tree: it passes through no leaf and does not end on a node. -/
def CodeTree.Free : CodeTree → List Bool → Prop
  | .empty, _ => True
  | .leaf _, _ => False
  | .node _ _, [] => False
  | .node z o, b :: bs => if b then o.Free bs else z.Free bs

/-- The node with the child t at the bit b. -/
def CodeTree.branch (b : Bool) (t other : CodeTree) : CodeTree := if b then .node other t else .node t other

theorem CodeTree.exists_branch (b : Bool) (z o : CodeTree) : ∃ t other, CodeTree.node z o = .branch b t other := by
  cases b
  · exact ⟨z, o, rfl⟩
  · exact ⟨o, z, rfl⟩

@[simp] theorem CodeTree.holds_branch_nil {b : Bool} {t other : CodeTree} {s : Nat} :
    ¬ (CodeTree.branch b t other).Holds [] s := by
  cases b <;> exact id

@[simp] theorem CodeTree.holds_branch_cons {b b' : Bool} {t other : CodeTree} {bs : List Bool} {s : Nat} :
    (CodeTree.branch b t other).Holds (b' :: bs) s ↔ if b' = b then t.Holds bs s else other.Holds bs s := by
  cases b <;> cases b' <;> exact Iff.rfl

@[simp] theorem CodeTree.free_branch_nil {b : Bool} {t other : CodeTree} : ¬ (CodeTree.branch b t other).Free [] := by
  cases b <;> exact id

@[simp] theorem CodeTree.free_branch_cons {b b' : Bool} {t other : CodeTree} {bs : List Bool} :
    (CodeTree.branch b t other).Free (b' :: bs) ↔ if b' = b then t.Free bs else other.Free bs := by
  cases b <;> cases b' <;> exact Iff.rfl

theorem CodeTree.insert_branch {b : Bool} {t t' : CodeTree} (other : CodeTree) {bs : List Bool} {s : Nat}
    (h : t.insert bs s = some t') : (CodeTree.branch b t other).insert (b :: bs) s = some (.branch b t' other) := by
  cases b <;> simp [branch, insert, h]

/-- Below an empty place an insertion creates a node (R134). -/
theorem CodeTree.insert_empty_cons {b : Bool} {bs : List Bool} {s : Nat} {t' : CodeTree}
    (h : CodeTree.empty.insert bs s = some t') : CodeTree.empty.insert (b :: bs) s = some (.branch b t' .empty) := by
  cases b <;> simp [branch, insert, h]

/-- Neither path begins with the other. -/
def Apart (q r : List Bool) : Prop := ¬ q <+: r ∧ ¬ r <+: q

theorem Apart.of_cons {b : Bool} {q r : List Bool} (h : Apart (b :: q) (b :: r)) : Apart q r :=
  ⟨fun hp => h.1 (List.cons_prefix_cons.mpr ⟨rfl, hp⟩), fun hp => h.2 (List.cons_prefix_cons.mpr ⟨rfl, hp⟩)⟩

/-- What an insertion of s along the path q does: its leaf stands, the leaves that stood still stand, and a free path
apart from q stays free. -/
structure CodeTree.Grows (t : CodeTree) (q : List Bool) (s : Nat) (t' : CodeTree) : Prop where
  holds : t'.Holds q s
  keeps : ∀ r s', t.Holds r s' → t'.Holds r s'
  free : ∀ r, Apart q r → t.Free r → t'.Free r

/-- A child grows, and so does its node. -/
theorem CodeTree.Grows.branch {t t' : CodeTree} {q : List Bool} {s : Nat} (h : t.Grows q s t') (b : Bool)
    (other : CodeTree) : (CodeTree.branch b t other).Grows (b :: q) s (.branch b t' other) where
  holds := by simpa using h.holds
  keeps
    | [], s', hr => absurd hr holds_branch_nil
    | b' :: r, s', hr => by
      rw [holds_branch_cons] at hr ⊢
      split_ifs at hr ⊢
      · exact h.keeps r s' hr
      · exact hr
  free
    | [], _, hr => absurd hr free_branch_nil
    | b' :: r, ha, hr => by
      rw [free_branch_cons] at hr ⊢
      split_ifs at hr ⊢ with hb
      · exact h.free r (hb ▸ ha).of_cons hr
      · exact hr

/-- An empty place grows as a node without children would. -/
theorem CodeTree.Grows.of_empty {b : Bool} {q : List Bool} {s : Nat} {t' : CodeTree}
    (h : (CodeTree.branch b .empty .empty).Grows (b :: q) s t') : CodeTree.empty.Grows (b :: q) s t' where
  holds := h.holds
  keeps _ _ hr := hr.elim
  free
    | [], ha, _ => absurd List.nil_prefix ha.2
    | _ :: r, ha, _ => h.free _ ha (by rw [free_branch_cons, ite_self]; trivial)

/-- An insertion along a free path succeeds (R134). -/
theorem CodeTree.insert_of_free {t : CodeTree} {q : List Bool} (h : t.Free q) (s : Nat) :
    ∃ t', t.insert q s = some t' ∧ t.Grows q s t' := by
  induction q generalizing t with
  | nil =>
    cases t with
    | empty => exact ⟨.leaf s, rfl, rfl, fun _ _ hr => hr.elim, fun _ ha _ => absurd List.nil_prefix ha.1⟩
    | leaf | node => exact h.elim
  | cons b bs ih =>
    cases t with
    | empty =>
      obtain ⟨t', ht, hg⟩ := ih (t := .empty) trivial
      exact ⟨_, insert_empty_cons ht, (hg.branch b .empty).of_empty⟩
    | leaf => exact h.elim
    | node z o =>
      obtain ⟨t, other, hn⟩ := exists_branch b z o
      rw [hn] at h ⊢
      obtain ⟨t', ht, hg⟩ := ih (t := t) (by simpa using h)
      exact ⟨_, insert_branch other ht, hg.branch b other⟩

/-- The path of a code, its bits most significant first (R134). -/
def CodeEntry.path (e : CodeEntry) : List Bool := pathOf e.len e.code

/-- Codes none of whose paths begins with another's are inserted without conflict, and each then stands in the tree. -/
theorem insertAll_of_apart {es : List CodeEntry} (ha : es.Pairwise fun e e' => Apart e.path e'.path) {t : CodeTree}
    (hf : ∀ e ∈ es, t.Free e.path) :
    ∃ t', insertAll es t = some t' ∧ (∀ e ∈ es, t'.Holds e.path e.sym) ∧ ∀ r s, t.Holds r s → t'.Holds r s := by
  induction es generalizing t with
  | nil => exact ⟨t, rfl, fun _ he => absurd he List.not_mem_nil, fun _ _ => id⟩
  | cons e es ih =>
    obtain ⟨hae, ha⟩ := List.pairwise_cons.mp ha
    obtain ⟨t₁, h₁, hg⟩ := CodeTree.insert_of_free (hf e List.mem_cons_self) e.sym
    obtain ⟨t₂, h₂, hall, hkeep⟩ := ih ha fun e' he' => hg.free _ (hae e' he') (hf e' (List.mem_cons_of_mem _ he'))
    refine ⟨t₂, ?_, fun e' he' => ?_, fun r s hr => hkeep r s (hg.keeps r s hr)⟩
    · rw [CodeEntry.path] at h₁
      rw [insertAll, h₁]
      exact h₂
    · rcases List.mem_cons.mp he' with rfl | he'
      · exact hkeep _ _ hg.holds
      · exact hall e' he'

@[simp] theorem length_pathOf (l c : Nat) : (pathOf l c).length = l := by
  induction l with
  | zero => rfl
  | succ l ih => rw [pathOf, List.length_cons, ih]

/-- The bits from p on are the path. -/
def Reads (c : List Int) : Nat → List Bool → Prop
  | _, [] => True
  | p, b :: bs => bitAt c p = ofFlag b ∧ Reads c (p + 1) bs

/-- A walk along bits that lead to a leaf answers its symbol and their number (R135). -/
theorem CodeTree.walk_of_holds {c : List Int} {q : List Bool} {p : Nat} (hr : Reads c p q) {t : CodeTree} {s : Nat}
    (h : t.Holds q s) (l : Nat) : t.walk c p l = some (s, l + q.length) := by
  induction q generalizing t p l with
  | nil =>
    cases t with
    | leaf s' => cases h; rfl
    | empty | node => exact h.elim
  | cons b bs ih =>
    obtain ⟨hbit, hr⟩ := hr
    cases t with
    | empty | leaf => exact h.elim
    | node z o =>
      rw [List.length_cons, Nat.add_comm bs.length, ← Nat.add_assoc]
      cases b with
      | false => exact (if_pos hbit).trans (ih hr h (l + 1))
      | true =>
        have h0 : bitAt c p ≠ 0 := by rw [hbit]; decide
        exact ((if_neg h0).trans (if_pos hbit)).trans (ih hr h (l + 1))

theorem Reads.of_prefix {c : List Int} {p : Nat} {q r : List Bool} (h : Reads c p r) (hq : q <+: r) : Reads c p q := by
  obtain ⟨u, rfl⟩ := hq
  induction q generalizing p with
  | nil => trivial
  | cons b bs ih => exact ⟨h.1, ih h.2⟩

theorem ofFlag_mod_two (x : Nat) : ofFlag (x % 2 == 1) = ((x % 2 : Nat) : Int) := by
  rcases Nat.mod_two_eq_zero_or_one x with h | h <;> rw [h] <;> rfl

/-- Two numbers are equal where their highest bits and the rests below are. -/
theorem highBit_rest_inj {m a b u v : Int} (ha : a = 0 ∨ a = 1) (hb : b = 0 ∨ b = 1) (hu : 0 ≤ u ∧ u < m)
    (hv : 0 ≤ v ∧ v < m) : a * m + u = b * m + v ↔ a = b ∧ u = v := by
  rcases ha with rfl | rfl <;> rcases hb with rfl | rfl <;> omega

/-- The bits of a boolean array are a path exactly where their window is its number (R134, R137). -/
theorem reads_pathOf_iff {c : List Int} (hb : BooleanArray c) {p l v : Nat} :
    Reads c p (pathOf l v) ↔ win c p l = ((v % 2 ^ l : Nat) : Int) := by
  induction l generalizing p with
  | zero => simp [pathOf, Reads, Nat.mod_one]
  | succ l ih =>
    have hv : ((v % 2 ^ l : Nat) : Int) < 2 ^ l := by exact_mod_cast Nat.mod_lt v (Nat.two_pow_pos l)
    have hsplit : ((v % 2 ^ (l + 1) : Nat) : Int) = ofFlag (v / 2 ^ l % 2 == 1) * 2 ^ l + ((v % 2 ^ l : Nat) : Int) := by
      rw [ofFlag_mod_two, pow_succ, Nat.mod_mul]
      push_cast
      ring
    rw [pathOf, Reads, ih, win_succ, hsplit]
    exact (highBit_rest_inj (bitAt_boolean hb p) (ofFlag_cases _) (win_range hb (p + 1) l) ⟨by positivity, hv⟩).symm

theorem reads_path_iff {n : Nat} {t : Lengths} (h : CompleteTable n t) {e : CodeEntry} (he : e ∈ codes t) {c : List Int}
    (hb : BooleanArray c) (p : Nat) : Reads c p e.path ↔ win c p e.len = e.code := by
  rw [CodeEntry.path, reads_pathOf_iff hb, Nat.mod_eq_of_lt (code_lt h he)]

/-- A code whose path begins another's is that other: the other's bits begin with both (R132). -/
theorem eq_of_path_prefix {n : Nat} {t : Lengths} (h : CompleteTable n t) {e e' : CodeEntry} (he : e ∈ codes t)
    (he' : e' ∈ codes t) (hp : e.path <+: e'.path) : e = e' := by
  have hb := bitsOf_boolean e'.len e'.code
  have hw' : win (bitsOf e'.len e'.code) 0 e'.len = e'.code := by simpa using win_bitsOf (code_lt h he') [] []
  have hw := (reads_path_iff h he hb 0).mp (((reads_path_iff h he' hb 0).mpr hw').of_prefix hp)
  obtain ⟨x, -, -, hu⟩ := exists_code_at h hb 0
  rw [(hu e he).mp hw, (hu e' he').mp hw']

theorem codes_pairwise_apart {n : Nat} {t : Lengths} (h : CompleteTable n t) :
    (codes t).Pairwise fun e e' => Apart e.path e'.path :=
  (codes_pairwise_ne h.1).imp_of_mem fun he he' hne =>
    ⟨fun hp => hne (eq_of_path_prefix h he he' hp), fun hp => hne (eq_of_path_prefix h he' he hp).symm⟩

/-- Settles O14: the codes' paths are apart, so all are inserted; the bits at p then lead to the leaf of the one code they
begin with, which is the reader's answer. -/
theorem decodeTreeIsBuiltAndWalksAlike : Obligations.DecodeTreeIsBuiltAndWalksAlike := by
  intro n t ht
  obtain ⟨tree, htree, hholds, -⟩ := insertAll_of_apart (t := .empty) (codes_pairwise_apart ht) fun _ _ => trivial
  refine ⟨tree, htree, fun c p hb => ?_⟩
  obtain ⟨e, he, hfield, hu⟩ := exists_code_at ht hb p
  have hreads := (reads_path_iff ht he hb p).mpr ((hu e he).mpr rfl)
  rw [← fieldDecodeAgreesWithReferenceReader n t c p ht hb, hfield, CodeTree.walk_of_holds hreads (hholds e he),
    CodeEntry.path, length_pathOf, Nat.zero_add]

/-! The code-length builder (R143 to R146). -/

/-- The symbols at a tree's leaves, from left to right. -/
def WeightTree.syms : WeightTree → List Nat
  | .leaf s _ => [s]
  | .node a b => a.syms ++ b.syms

/-- The leaves with their depths, from left to right, the root at depth d (R145). -/
def WeightTree.depths : Nat → WeightTree → Lengths
  | d, .leaf s _ => [(s, d)]
  | d, .node a b => a.depths (d + 1) ++ b.depths (d + 1)

/-- The number of nodes, leaves among them. -/
def WeightTree.nodes : WeightTree → Nat
  | .leaf _ _ => 1
  | .node a b => a.nodes + b.nodes + 1

theorem WeightTree.nodes_pos (t : WeightTree) : 0 < t.nodes := by
  cases t <;> exact Nat.succ_pos _

theorem WeightTree.nodes_succ (t : WeightTree) : t.nodes + 1 = 2 * t.syms.length := by
  induction t with
  | leaf => rfl
  | node a b iha ihb =>
    rw [nodes, syms, List.length_append]
    omega

theorem WeightTree.map_fst_depths (t : WeightTree) (d : Nat) : (t.depths d).map Prod.fst = t.syms := by
  induction t generalizing d with
  | leaf => rfl
  | node a b iha ihb => rw [depths, List.map_append, iha, ihb, syms]

theorem WeightTree.le_depth {t : WeightTree} {d : Nat} {x : Nat × Nat} (h : x ∈ t.depths d) : d ≤ x.2 := by
  induction t generalizing d with
  | leaf s w => rw [List.mem_singleton.mp h]
  | node a b iha ihb =>
    rcases List.mem_append.mp h with h | h
    · exact Nat.le_of_succ_le (iha h)
    · exact Nat.le_of_succ_le (ihb h)

theorem maxLen_append (s t : Lengths) : maxLen (s ++ t) = max (maxLen s) (maxLen t) := by
  induction s with
  | nil => exact (Nat.zero_max _).symm
  | cons x rest ih => rw [List.cons_append, maxLen, ih, maxLen, max_assoc]

theorem WeightTree.le_maxLen_depths (t : WeightTree) (d : Nat) : d ≤ maxLen (t.depths d) := by
  induction t generalizing d with
  | leaf => exact le_max_left ..
  | node a b iha _ =>
    rw [depths, maxLen_append]
    exact (Nat.le_of_succ_le (iha (d + 1))).trans (le_max_left ..)

/-- The leaves below a node at depth d share out its part of the code space (R131). -/
theorem WeightTree.kraftSum_depths {w d : Nat} {t : WeightTree} (h : maxLen (t.depths d) ≤ w) :
    kraftSum w (t.depths d) = 2 ^ (w - d) := by
  induction t generalizing d with
  | leaf => rfl
  | node a b iha ihb =>
    rw [depths, maxLen_append, max_le_iff] at h
    have hd : d + 1 ≤ w := (a.le_maxLen_depths (d + 1)).trans h.1
    rw [depths, kraftSum_append, iha h.1, ihb h.2, ← two_mul, ← pow_succ', Nat.sub_add_eq, Nat.sub_add_cancel (by omega)]

theorem WeightTree.complete_depths (t : WeightTree) : complete (t.depths 0) = true :=
  beq_iff_eq.mpr (kraftSum_depths le_rfl)

/-- The traversal with enough fuel lists the leaves of the stack's trees, each with its depth (R145). -/
theorem readDepths_eq {fuel : Nat} {stack : List (WeightTree × Nat)}
    (h : (stack.map fun x => x.1.nodes).sum ≤ fuel) :
    readDepths fuel stack = stack.flatMap fun x => x.1.depths x.2 := by
  induction fuel generalizing stack with
  | zero =>
    cases stack with
    | nil => rfl
    | cons x rest =>
      rw [List.map_cons, List.sum_cons] at h
      exact absurd x.1.nodes_pos (by omega)
  | succ fuel ih =>
    match stack with
    | [] => rfl
    | (.leaf s w, d) :: rest =>
      rw [List.map_cons, List.sum_cons, WeightTree.nodes] at h
      rw [readDepths, ih (by omega)]
      rfl
    | (.node a b, d) :: rest =>
      rw [List.map_cons, List.sum_cons, WeightTree.nodes] at h
      rw [readDepths, ih (by simp only [List.map_cons, List.sum_cons]; omega), List.flatMap_cons, List.flatMap_cons,
        List.flatMap_cons, WeightTree.depths, List.append_assoc]

theorem takeLowest_none {tie : WeightTree → WeightTree → Bool} {heap : List WeightTree}
    (h : takeLowest tie heap = none) : heap = [] := by
  cases heap with
  | nil => rfl
  | cons x xs =>
    rw [takeLowest] at h
    split at h
    · cases h
    · split at h <;> cases h

theorem takeLowest_perm {tie : WeightTree → WeightTree → Bool} {heap rest : List WeightTree} {m : WeightTree}
    (h : takeLowest tie heap = some (m, rest)) : heap.Perm (m :: rest) := by
  induction heap generalizing m rest with
  | nil => cases h
  | cons x xs ih =>
    rw [takeLowest] at h
    split at h
    · rename_i hn
      cases h
      rw [takeLowest_none hn]
    · rename_i m' rest' hs
      split at h
      · cases h
        exact (ih hs).cons x
      · cases h
        exact ((ih hs).cons x).trans (.swap ..)

/-- The symbols at the leaves of a heap's trees. -/
def heapSyms (heap : List WeightTree) : List Nat := heap.flatMap WeightTree.syms

/-- A heap with a node merges to one root, which has the heap's symbols at its leaves (R144). -/
theorem mergeAll_perm (tie : WeightTree → WeightTree → Bool) {fuel : Nat} {heap : List WeightTree} (hne : heap ≠ [])
    (hf : heap.length ≤ fuel) : ∃ t, mergeAll tie fuel heap = some t ∧ t.syms.Perm (heapSyms heap) := by
  induction fuel generalizing heap with
  | zero => exact absurd (List.length_eq_zero_iff.mp (Nat.le_zero.mp hf)) hne
  | succ fuel ih =>
    cases ha : takeLowest tie heap with
    | none => exact absurd (takeLowest_none ha) hne
    | some ar =>
      obtain ⟨a, rest⟩ := ar
      have hpa := takeLowest_perm ha
      cases hb : takeLowest tie rest with
      | none =>
        refine ⟨a, by simp only [mergeAll, ha, hb], ?_⟩
        have := hpa.flatMap_right WeightTree.syms
        simpa [heapSyms, takeLowest_none hb] using this.symm
      | some br =>
        obtain ⟨b, rest'⟩ := br
        have hpb := takeLowest_perm hb
        have hp : heap.Perm (a :: b :: rest') := hpa.trans (hpb.cons a)
        have hlen := hp.length_eq
        obtain ⟨t, ht, hpt⟩ := ih (heap := .node a b :: rest') (List.cons_ne_nil _ _) (by
          simp only [List.length_cons] at hlen ⊢; omega)
        refine ⟨t, by simp only [mergeAll, ha, hb, ht], hpt.trans ?_⟩
        have := hp.flatMap_right WeightTree.syms
        simpa [heapSyms, WeightTree.syms] using this.symm

/-- The heap's symbols are some of those from k on, each once, in their order (R146). -/
theorem heapSyms_sublist (zeros : Bool) (k : Nat) (weights : List Nat) :
    (heapSyms (heapOf zeros k weights)).Sublist (List.range' k weights.length) := by
  induction weights generalizing k with
  | nil => exact .slnil
  | cons w ws ih =>
    rw [heapOf, List.length_cons, List.range'_succ]
    split
    · exact (ih (k + 1)).cons _
    · exact (ih (k + 1)).cons_cons _

/-- Every symbol of non-zero weight enters the heap. -/
theorem weighted_le_heapSyms (zeros : Bool) (k : Nat) (weights : List Nat) :
    weighted weights ≤ (heapSyms (heapOf zeros k weights)).length := by
  induction weights generalizing k with
  | nil => exact Nat.le_refl 0
  | cons w ws ih =>
    have hrest := ih (k + 1)
    rcases Nat.eq_zero_or_pos w with rfl | hw
    · rw [weighted, List.countP_cons_of_neg (by decide), heapOf]
      split
      · exact hrest
      · exact hrest.trans (Nat.le_succ _)
    · rw [weighted, List.countP_cons_of_pos (by exact decide_eq_true hw), heapOf, if_neg (by simp [hw.ne'])]
      exact Nat.succ_le_succ hrest

theorem length_heapSyms_heapOf (zeros : Bool) (k : Nat) (weights : List Nat) :
    (heapSyms (heapOf zeros k weights)).length = (heapOf zeros k weights).length := by
  induction weights generalizing k with
  | nil => rfl
  | cons w ws ih =>
    rw [heapOf]
    split
    · exact ih (k + 1)
    · exact congrArg Nat.succ (ih (k + 1))

/-! The depths by symbol. -/

/-- In a list without a repeated symbol the length listed is the symbol's code length. -/
theorem codeLen_of_mem_nodup {t : Lengths} (hn : (t.map Prod.fst).Nodup) {s l : Nat} (hx : (s, l) ∈ t) :
    codeLen t s = l := by
  induction t with
  | nil => cases hx
  | cons y rest ih =>
    obtain ⟨k, m⟩ := y
    rw [List.map_cons, List.nodup_cons] at hn
    rw [codeLen]
    rcases List.mem_cons.mp hx with he | hx
    · cases he
      exact if_pos rfl
    · rw [if_neg fun (hk : k = s) => hn.1 (List.mem_map.mpr ⟨(s, l), hx, hk.symm⟩), ih hn.2 hx]

theorem mem_bySymbol {n : Nat} {t : Lengths} {s l : Nat} :
    (s, l) ∈ bySymbol n t ↔ s < n ∧ codeLen t s = l ∧ 1 ≤ l := by
  simp only [bySymbol, List.mem_filterMap, List.mem_range, Option.ite_none_left_eq_some, Option.some_inj, Prod.mk.injEq]
  constructor
  · rintro ⟨_, hn, h0, rfl, rfl⟩
    exact ⟨hn, rfl, Nat.pos_of_ne_zero h0⟩
  · rintro ⟨hn, rfl, hl⟩
    exact ⟨s, hn, Nat.ne_of_gt hl, rfl, rfl⟩

theorem bySymbol_pairwise (n : Nat) (t : Lengths) : (bySymbol n t).Pairwise fun x y => x.1 < y.1 := by
  refine List.pairwise_filterMap.mpr (List.pairwise_lt_range.imp fun hlt x hx y hy => ?_)
  rw [Option.ite_none_left_eq_some, Option.some_inj] at hx hy
  rw [← hx.2, ← hy.2]
  exact hlt

/-- The depths by symbol are in canonical form (R130). -/
theorem shaped_bySymbol (n : Nat) (t : Lengths) : shaped n (bySymbol n t) = true :=
  shapedFrom_iff.mpr ⟨bySymbol_pairwise n t, fun _ hx =>
    have ⟨hn, _, hl⟩ := mem_bySymbol.mp hx
    ⟨Nat.zero_le _, hn, hl⟩⟩

/-- Different used symbols of the alphabet are only put in another order. -/
theorem bySymbol_perm {n : Nat} {t : Lengths} (hn : (t.map Prod.fst).Nodup) (ht : ∀ x ∈ t, x.1 < n ∧ 1 ≤ x.2) :
    (bySymbol n t).Perm t := by
  have hnb : (bySymbol n t).Nodup := (bySymbol_pairwise n t).imp fun hlt he => Nat.ne_of_lt hlt (congrArg Prod.fst he)
  refine (List.perm_ext_iff_of_nodup hnb hn.of_map).mpr fun ⟨s, l⟩ => mem_bySymbol.trans ⟨?_, fun hx => ?_⟩
  · rintro ⟨-, rfl, hl⟩
    exact mem_of_codeLen hl
  · exact ⟨(ht _ hx).1, codeLen_of_mem_nodup hn hx, (ht _ hx).2⟩

theorem kraftSum_perm {s t : Lengths} (h : s.Perm t) (w : Nat) : kraftSum w s = kraftSum w t := by
  induction h with
  | nil => rfl
  | cons x _ ih => rw [kraftSum, kraftSum, ih]
  | swap x y l => simp only [kraftSum, Nat.add_left_comm]
  | trans _ _ ih₁ ih₂ => exact ih₁.trans ih₂

theorem maxLen_perm {s t : Lengths} (h : s.Perm t) : maxLen s = maxLen t := by
  induction h with
  | nil => rfl
  | cons x _ ih => rw [maxLen, maxLen, ih]
  | swap x y l => simp only [maxLen, max_left_comm]
  | trans _ _ ih₁ ih₂ => exact ih₁.trans ih₂

theorem complete_perm {s t : Lengths} (h : s.Perm t) : complete s = complete t := by
  rw [complete, complete, maxLen_perm h, kraftSum_perm h]

/-- A tree that is no single leaf, its leaves different symbols of the alphabet, gives a complete table. -/
theorem WeightTree.completeTable_bySymbol {n : Nat} {t : WeightTree} (hn : t.syms.Nodup) (ht : ∀ s ∈ t.syms, s < n)
    (h2 : 2 ≤ t.syms.length) : CompleteTable n (bySymbol n (t.depths 0)) := by
  have hfst : (t.depths 0).map Prod.fst = t.syms := t.map_fst_depths 0
  have hpos : ∀ x ∈ t.depths 0, 1 ≤ x.2 := by
    cases t with
    | leaf => exact absurd h2 (Nat.not_succ_le_self 1)
    | node a b => exact fun x hx => (List.mem_append.mp hx).elim le_depth le_depth
  have hperm : (bySymbol n (t.depths 0)).Perm (t.depths 0) :=
    bySymbol_perm (hfst ▸ hn) fun x hx => ⟨ht _ (hfst ▸ List.mem_map_of_mem hx), hpos x hx⟩
  exact ⟨shaped_bySymbol n _, (complete_perm hperm).trans t.complete_depths⟩

/-- With two symbols of non-zero weight or more, the heap merges to a tree whose leaves are the heap's symbols, and the
table is that tree's depths by symbol. -/
theorem buildLengths_eq (tie : WeightTree → WeightTree → Bool) (zeros : Bool) (few : List Nat → Lengths)
    {weights : List Nat} (h2 : 2 ≤ weighted weights) :
    ∃ t : WeightTree, t.syms.Perm (heapSyms (heapOf zeros 0 weights)) ∧
      buildLengths tie zeros few weights = bySymbol weights.length (t.depths 0) := by
  have hle := (heapSyms_sublist zeros 0 weights).length_le
  have hge := weighted_le_heapSyms zeros 0 weights
  have hlen := length_heapSyms_heapOf zeros 0 weights
  rw [List.length_range'] at hle
  have hne : heapOf zeros 0 weights ≠ [] := fun h => by
    rw [h] at hge
    exact absurd (h2.trans hge) (by decide)
  obtain ⟨t, ht, hp⟩ := mergeAll_perm tie hne (hlen ▸ hle)
  have hfuel : t.nodes ≤ 2 * weights.length := by
    have := t.nodes_succ
    rw [hp.length_eq] at this
    omega
  refine ⟨t, hp, ?_⟩
  rw [buildLengths, if_neg (Nat.not_lt.mpr h2), ht]
  simp only [readDepths_eq (stack := [(t, 0)]) (by simpa using hfuel), List.flatMap_cons, List.flatMap_nil,
    List.append_nil]

/-- Settles O15: the merged tree's leaves are different symbols, at least those of non-zero weight, so its depths are a
complete table. -/
theorem builderGivesCompleteTables : Obligations.BuilderGivesCompleteTables := by
  intro tie zeros few weights
  refine ⟨fun h2 => ?_, fun h => if_pos h⟩
  obtain ⟨t, hp, hbuild⟩ := buildLengths_eq tie zeros few h2
  have hsub := heapSyms_sublist zeros 0 weights
  rw [hbuild]
  refine t.completeTable_bySymbol ?_ (fun s hs => ?_) ?_
  · exact hp.nodup_iff.mpr (hsub.nodup List.nodup_range')
  · simpa using hsub.subset (hp.subset hs)
  · exact h2.trans (hp.length_eq ▸ weighted_le_heapSyms zeros 0 weights)

end Sys2Proof.Machine

/-! PROOFS of spec/42_stream_records.md: the header and the records on the block's state, the record level's step, and the
oracle's results. -/

namespace Sys2Proof.Machine

/-! The header (R161). -/

/-- The header's effect, register by register: OUT is emptied and the run's registers begin. -/
theorem runHeader_eq (s : State) (level : Byte) :
    runHeader s level =
      { s with
        level := level, byp := decide (level = 0), cur := 8, out := [], i := 0, olen := 0, rem := 0
        eof := decide (s.clen = 8), phase := if 0 < s.cfg.outMax then .run else .done } := by
  have hbyp : toFlag (opIsZero (ofByte level)) = decide (level = 0) := by
    rw [toFlag_opIsZero, show (0 : Int) = ofByte 0 from rfl, decide_eq_decide, ofByte_inj]
  have heof : toFlag (opIsZero (opSub s.clen 8)) = decide (s.clen = 8) := by
    rw [toFlag_opIsZero, opSub_eq, decide_eq_decide]; omega
  rw [← hbyp, ← heof]
  rfl

theorem headerReady_of_idle {s : State} (hp : s.phase = .idle) (hf : s.fault = false) : s.headerReady = true := by
  simp [State.headerReady, hp, hf]

/-- Settles O20: in IDLE without a fault both header rows run the header, whose effect is `runHeader_eq`. -/
theorem headerBeginsTheRun : Obligations.HeaderBeginsTheRun := by
  intro s level hp hf
  have hready := headerReady_of_idle hp hf
  refine ⟨?_, fun hlevel => ?_⟩
  · rw [exec, execHdrNocomp, if_pos hready, runHeader_eq, decide_eq_true rfl]
  · have hwf : (Instr.hdrComp level).wf s.tab = true := decide_eq_true hlevel
    rw [exec, execHdrComp, if_pos hready, if_pos hwf, runHeader_eq, decide_eq_false hlevel]

/-! The records of one byte (R162, R163). -/

/-- A record is executed in a live run, with no copy in progress, short of the end, in the record's mode. -/
theorem recordReady_iff {s : State} {byp : Bool} :
    s.recordReady byp = true ↔
      s.phase = .run ∧ s.fault = false ∧ s.eof = false ∧ s.rem = 0 ∧ s.cur ≠ s.clen ∧ s.byp = byp := by
  simp [State.recordReady, State.enabled, and_assoc]

/-- Settles O21: the row's guard holds, and there is room for its byte. -/
theorem rawAndLiteralAppendTheirByte : Obligations.RawAndLiteralAppendTheirByte := by
  intro s b hm hp hf he hrem hcur
  have hready (byp : Bool) (hb : s.byp = byp) : s.recordReady byp = true :=
    recordReady_iff.mpr ⟨hp, hf, he, hrem, hcur, hb⟩
  refine ⟨fun hb => ?_, fun hb hW hD hcode => ?_⟩
  · rw [exec, execRaw, if_pos (hready true hb), emit_eq _ _ _ hm (hm.running hp)]
  · rw [exec, execLit, if_pos (hready false hb), if_pos (wf_lit.mpr ⟨hW, hD, hcode⟩),
      emit_eq _ _ _ hm (hm.running hp)]

/-! The copies (R164, R165). -/

/-- The state after a record's copy: `len` bytes appended, which leaves OUT as m, and the cursor moved by `advance` bits
and compared with CLEN. -/
def State.withBytes (s : State) (m : Memory) (len advance : Nat) : State :=
  { s with
    out := m, i := s.i + len, olen := s.olen + len, cur := s.cur + advance
    eof := decide (s.cur + advance = s.clen), phase := if s.i + len = s.cfg.outMax then .done else .run }

/-- A copy that takes no fault leaves the fault registers and the model's own fields alone. -/
theorem copyLoop_frame {isW isD : Int} {key : State → Nat → Int} {len n : Nat} {s t : State}
    (h : copyLoop isW isD key len n s = .next t) (hf : t.fault = false) : SameFault s t ∧ SameModel s t := by
  induction n generalizing s with
  | zero => cases h; simp [SameFault, SameModel]
  | succ n ih =>
    rcases copyLoop_succ_next.mp h with ⟨-, rfl⟩ | ⟨-, -, rfl⟩ | ⟨-, b, u, -, hu, ht⟩
    · simp [SameFault, SameModel]
    · simp at hf
    · obtain ⟨-, -, rfl⟩ := emit_next.mp hu
      have hframe := ih ht
      exact hframe

/-- The written entries of OUT are the entries of a list. -/
theorem exists_outIs {s : State} (hm : s.MemInv) : ∃ out, OutIs s out := by
  refine ⟨(List.range s.i).map fun k => (s.out.read k).getD 0, by simp, fun k => ?_⟩
  have hk := hm.written k
  by_cases h : k < s.i
  · obtain ⟨b, hb⟩ := Option.isSome_iff_exists.mp (hk.trans (decide_eq_true h))
    simp [h, hb]
  · simpa [h] using hk

/-- A record's copy whose source lookups answer the bytes bs, one after another, appends bs and moves nothing else but
the registers of `State.withBytes`. -/
theorem copyLoop_eq_withBytes {isW isD : Int} {key : State → Nat → Int} {advance : Nat} {s : State}
    {out bs : List Byte} (hm : s.MemInv) (hready : s.recordReady s.byp = true) (hout : OutIs s out) (hpos : bs ≠ [])
    (hfit : s.i + bs.length ≤ s.cfg.outMax)
    (hsrc : ∀ j u, j < bs.length → SameInputs s u → OutIs u (out ++ bs.take j) → u.MemInv → u.phase = .run →
      srcLookup u isW isD (key u (bs.length - j)) = bs[j]?) :
    ∃ m, copyLoop isW isD key advance bs.length s = .next (s.withBytes m bs.length advance) ∧
      (∀ k, m.read k = (out ++ bs)[k]?) ∧ m.wf = true := by
  obtain ⟨hp, hf, he, hrem, hcur, -⟩ := recordReady_iff.mp hready
  have hlen : bs.length ≠ 0 := mt List.length_eq_zero_iff.mp hpos
  obtain ⟨t, hloop, htout, htm, htf, hin, hbyp, holen, hlevel, hphase, htrem, htcur, hteof⟩ :=
    copyLoop_appends (len := advance) bs.length s bs out hm (fun _ => ⟨hp, he, hcur⟩) hf hout (hout.1 ▸ hfit) rfl
      (fun j u hj hin _ => hsrc j u hj hin)
  obtain ⟨hfault, hmodel⟩ := copyLoop_frame hloop htf
  rw [if_neg hlen] at hphase htrem htcur hteof
  rw [← hout.1] at hphase
  have hi : t.i = s.i + bs.length := by rw [htout.1, List.length_append, hout.1]
  have ht : t = s.withBytes t.out bs.length advance := by
    obtain ⟨hcfg, htab, hdictLen, hdict, hloaded, hclen⟩ := hin
    obtain ⟨hfault, hfcode, hfinfo⟩ := hfault
    obtain ⟨hyielded, hreq, hview, hfresh⟩ := hmodel
    cases t
    simp_all [State.withBytes]
  exact ⟨t.out, ht ▸ hloop, htout.2, htm.outWf⟩

/-- A memory that holds a machine's output and then bs keeps the output, and holds bs from I on and nothing beyond. -/
theorem read_of_appended {s : State} {out bs : List Byte} {m : Memory} (hout : OutIs s out)
    (hm : ∀ k, m.read k = (out ++ bs)[k]?) :
    (∀ k, k < s.i → m.read k = s.out.read k) ∧ (∀ j, m.read (s.i + j) = bs[j]?) ∧
      ∀ k, s.i + bs.length ≤ k → m.read k = none := by
  obtain ⟨hi, hread⟩ := hout
  refine ⟨fun k hk => ?_, fun j => ?_, fun k hk => ?_⟩
  · rw [hm, hread, List.getElem?_append_left (by omega)]
  · rw [hm, hi, List.getElem?_append_right (by omega), Nat.add_sub_cancel_left]
  · rw [hm, List.getElem?_eq_none (by rw [List.length_append]; omega)]

theorem windowKey_of_dist (dictLen i dist : Nat) :
    windowKey dictLen i ((dist : Int) - 1) = (dictLen : Int) + i - dist := by
  simp only [windowKey, opSub_eq, opAdd_eq]; ring

/-- With n - j bytes of a dictionary match still to go, its key is j past its address (R188). -/
theorem dictKey_of_togo {addr n j : Nat} (h : j ≤ n) :
    dictKey addr n ((n - j : Nat) : Int) = ((addr + j : Nat) : Int) := by
  simp only [dictKey, opSub_eq, opAdd_eq]; omega

/-- A window copy that begins within the output has every byte it reads (R164). -/
theorem exists_copyBack {dist : Nat} (hd : 1 ≤ dist) (n : Nat) {out : List Byte} (h : dist ≤ out.length) :
    ∃ out', copyBack n dist out = some out' := by
  induction n generalizing out with
  | zero => exact ⟨out, rfl⟩
  | succ n ih =>
    have hb : out[out.length - dist]? = some out[out.length - dist] := List.getElem?_eq_getElem (by omega)
    simp only [copyBack, if_pos h, hb]
    exact ih (by rw [List.length_append]; omega)

/-- The lookup of a window match reads the output `dist` before its end (R188, R189). -/
theorem srcLookup_windowKey {u : State} {out : List Byte} {dist : Nat} (hm : u.MemInv) (hp : u.phase = .run)
    (hout : OutIs u out) (h1 : 1 ≤ dist) (h2 : dist ≤ out.length) :
    srcLookup u 1 0 (windowKey u.dictLen u.i ((dist : Int) - 1)) = out[out.length - dist]? := by
  obtain ⟨hi, hread⟩ := hout
  have hb : out[out.length - dist]? = some out[out.length - dist] := List.getElem?_eq_getElem (by omega)
  rw [windowKey_of_dist, hb]
  exact srcLookup_window h1 (hi ▸ h2) (hm.running hp).le (by rw [hread, hi, hb])

theorem exec_wmatch_of_ready {s : State} {len dist : Nat} (hready : s.recordReady false = true)
    (hwf : (Instr.wmatch len dist).wf s.tab = true) :
    exec (.wmatch len dist) s =
      copyLoop 1 0 (fun t _ => windowKey t.dictLen t.i ((dist : Int) - 1)) ((Instr.wmatch len dist).bitLen s.tab)
        len s := by
  rw [exec, execWmatch, if_pos hready, if_pos hwf]

theorem exec_dmatch_of_ready {s : State} {len addr : Nat} (hready : s.recordReady false = true)
    (hwf : (Instr.dmatch len addr).wf s.tab = true) :
    exec (.dmatch len addr) s =
      copyLoop 0 1 (fun _ n => dictKey addr len n) ((Instr.dmatch len addr).bitLen s.tab) len s := by
  rw [exec, execDmatch, if_pos hready, if_pos hwf]

/-- Settles O22: the oracle's copy back gives the bytes, the source lookup of each answers it from the output as it has
grown, and what is read `dist` back then is what stands there at the end. -/
theorem windowMatchAppendsEarlierOutput : Obligations.WindowMatchAppendsEarlierOutput := by
  intro s len dist hm hp hf he hrem hcur hbyp hwf hdist hfit
  have hready : s.recordReady false = true := recordReady_iff.mpr ⟨hp, hf, he, hrem, hcur, hbyp⟩
  obtain ⟨lv, av, hlen, hav, -⟩ := wf_wmatch.mp hwf
  obtain ⟨out, hout⟩ := exists_outIs hm
  have hi : s.i = out.length := hout.1
  obtain ⟨out', hcopy⟩ := exists_copyBack (dist := dist) (by omega) len (hi ▸ hdist)
  obtain ⟨bs, rfl, -, -, hback⟩ := copyBack_some len dist out out' hcopy (by omega)
  have hne : bs ≠ [] := List.ne_nil_of_length_pos (by omega)
  obtain ⟨m, hloop, hmread, hmwf⟩ := copyLoop_eq_withBytes (isW := 1) (isD := 0)
    (key := fun t _ => windowKey t.dictLen t.i ((dist : Int) - 1))
    (advance := (Instr.wmatch bs.length dist).bitLen s.tab) hm (hbyp ▸ hready) hout hne hfit
    (fun j u hj _ hu hum hup => by
      have hlen : (out ++ bs.take j).length = out.length + j := by
        rw [List.length_append, List.length_take_of_le hj.le]
      rw [srcLookup_windowKey hum hup hu (by omega) (by omega), hback j hj, hlen])
  obtain ⟨hbefore, hcopied, hbeyond⟩ := read_of_appended hout hmread
  refine ⟨m, by rw [exec_wmatch_of_ready hready hwf, hloop]; rfl, hbefore, fun k hk hk' => ?_, hbeyond, hmwf⟩
  obtain ⟨j, rfl⟩ := Nat.exists_eq_add_of_le hk
  have hsplit : out ++ bs = out ++ bs.take j ++ bs.drop j := by rw [List.append_assoc, List.take_append_drop]
  rw [hcopied, hback j (by omega), hmread, ← hi, hsplit,
    List.getElem?_append_left (l₁ := out ++ bs.take j) (by rw [List.length_append, List.length_take]; omega)]

/-- The bytes DICT[addr .. addr + n - 1] (R165). -/
def State.dictBytes (s : State) (addr n : Nat) : List Byte := (List.range n).map fun j => s.dictByte (addr + j)

@[simp] theorem State.length_dictBytes (s : State) (addr n : Nat) : (s.dictBytes addr n).length = n := by
  simp [State.dictBytes]

theorem State.getElem?_dictBytes {s : State} {addr n j : Nat} (h : j < n) :
    (s.dictBytes addr n)[j]? = some (s.dictByte (addr + j)) := by
  simp [State.dictBytes, h]

theorem dictByte_of_sameInputs {s t : State} (h : SameInputs s t) (k : Nat) : t.dictByte k = s.dictByte k := by
  obtain ⟨-, -, -, hdict, -, -⟩ := h
  rw [State.dictByte, State.dictByte, hdict]

/-- Settles O23: with len - j bytes still to go the source lookup answers DICT[addr + j], which no byte written
changes. -/
theorem dictionaryMatchAppendsDictionaryBytes : Obligations.DictionaryMatchAppendsDictionaryBytes := by
  intro s len addr hm hp hf he hrem hcur hbyp hwf haddr hfit
  have hready : s.recordReady false = true := recordReady_iff.mpr ⟨hp, hf, he, hrem, hcur, hbyp⟩
  obtain ⟨lv, hlen, -⟩ := wf_dmatch.mp hwf
  obtain ⟨out, hout⟩ := exists_outIs hm
  have hbs : (s.dictBytes addr len).length = len := s.length_dictBytes addr len
  obtain ⟨m, hloop, hmread, hmwf⟩ := copyLoop_eq_withBytes (isW := 0) (isD := 1)
    (key := fun _ n => dictKey addr len n) (advance := (Instr.dmatch len addr).bitLen s.tab) hm (hbyp ▸ hready) hout
    (List.ne_nil_of_length_pos (by omega)) (hbs.symm ▸ hfit)
    (fun j u hj hin _ _ _ => by
      obtain ⟨-, -, hdictLen, -⟩ := id hin
      rw [hbs] at hj ⊢
      rw [dictKey_of_togo hj.le, srcLookup_dict (by omega), dictByte_of_sameInputs hin, State.getElem?_dictBytes hj])
  obtain ⟨hbefore, hcopied, hbeyond⟩ := read_of_appended hout hmread
  rw [hbs] at hloop hbeyond
  exact ⟨m, by rw [exec_dmatch_of_ready hready hwf, hloop]; rfl, hbefore,
    fun j hj => (hcopied j).trans (State.getElem?_dictBytes hj), hbeyond, hmwf⟩

/-! The record level's step (R161, R166). -/

theorem nextStep_record {s : State} (hreq : s.req = []) (hview : s.view = .record) : nextStep s = recordNext s := by
  rw [nextStep, hreq, hview]

theorem step_of_fetchAt {s : State} {m : DecodeMode} {p n : Nat} {i : Instr} (hnext : nextStep s = fetchAt s m p)
    (hdec : decode s.tab m s.bits p = .ok (i, n)) : step s = exec i s := by
  rw [step, hnext, fetchAt, hdec]

/-- Settles O43: with no host action pending the record level fetches at the header or at the cursor. -/
theorem stepRunsTheDecodedInstruction : Obligations.StepRunsTheDecodedInstruction := by
  intro s i n hreq hview hf
  have hnext := nextStep_record hreq hview
  refine ⟨fun hp hdec => step_of_fetchAt (hnext.trans ?_) hdec,
    fun hp he hdec => step_of_fetchAt (hnext.trans ?_) hdec⟩
  · simp [recordNext, hf, hp]
  · simp [recordNext, hf, hp, he]

/-! The decoder reads a record's own bits only (R89, R168). -/

theorem length_encode (t : Tables) (i : Instr) : (encode t i).length = i.bitLen t := by
  cases i <;> simp [encode, Instr.bitLen, byteBits, symBits_length, Nat.add_assoc]

/-- The entries of an array from p on that are, one by one, those of a list of bits. -/
theorem take_drop_eq {d bits : List Int} {p : Nat} (hp : p + bits.length ≤ d.length)
    (h : ∀ j, j < bits.length → bitAt d (p + j) = bitAt bits j) : (d.drop p).take bits.length = bits := by
  refine List.ext_getElem (by rw [List.length_take, List.length_drop]; omega) fun j hj hj' => ?_
  have hbit := h j hj'
  rw [bitAt, bitAt, List.getD_eq_getElem _ _ (by omega), List.getD_eq_getElem _ _ hj'] at hbit
  rw [List.getElem_take, List.getElem_drop, hbit]

/-- What one boolean array decodes to, another that has the same bits there decodes to: they are its encoding. -/
theorem decode_congr {t : Tables} (ht : TablesOk t) {m : DecodeMode} {c d : List Int} {p n : Nat} {i : Instr}
    (hc : BooleanArray c) (hd : BooleanArray d) (hdec : decode t m c p = .ok (i, n)) (hp : p + n ≤ d.length)
    (hcd : ∀ j, j < n → bitAt d (p + j) = bitAt c (p + j)) : decode t m d p = .ok (i, n) := by
  obtain ⟨i', n', hdec', hwf, hmode, hn, hbits⟩ := everyPositionDecodesToItsEncoding t m c p ht hc
  cases hdec.symm.trans hdec'
  have hlen : (encode t i).length = n := (length_encode t i).trans hn.symm
  have hsplit : d = d.take p ++ encode t i ++ d.drop (p + n) := by
    have htake : (d.drop p).take n = encode t i := by
      subst hlen
      exact take_drop_eq hp fun j hj => (hcd j hj).trans (hbits j hj)
    rw [← htake, List.append_assoc, ← List.drop_drop, List.take_append_drop, List.take_append_drop]
  have hpost : BooleanArray (d.drop (p + n)) :=
    booleanArray_iff.mpr fun a ha => booleanArray_iff.mp hd a (List.mem_of_mem_drop ha)
  have henc := decodeOfEncodeIsTheInstruction t i m (d.take p) (d.drop (p + n)) ht hwf hmode hpost
  rwa [← hsplit, ← hn, List.length_take_of_le (by omega)] at henc

/-! The oracle (R166) and the parse that makes a pair well-formed (R167), a record at a time. -/

section
variable {s : State} {fuel n : Nat} {o o' : OracleState} {i : Instr}

theorem parses_at_end (hc : o.cur = s.clen) : parses s fuel o = decide (o.out.length ≤ s.cfg.outMax) := by
  cases fuel <;> simp [parses, hc]

theorem oracleRun_at_end (hc : o.cur = s.clen) : oracleRun s fuel o = some o := by
  cases fuel <;> simp [oracleRun, hc]

variable (hc : o.cur ≠ s.clen) (hdec : decode s.tab (recordMode o.byp) s.bits o.cur = .ok (i, n))
  (ho : applyRecord s i n o = some o')
include hc hdec ho

theorem parses_of_next (hfit : recordFits s o.out.length i = true) : parses s (fuel + 1) o = parses s fuel o' := by
  simp only [parses, if_neg hc, hdec, ho, hfit, Bool.true_and]

theorem oracleRun_of_next : oracleRun s (fuel + 1) o = oracleRun s fuel o' := by
  simp only [oracleRun, if_neg hc, hdec, ho]

end

/-- What holds at CLEN, and before a record that fits where it holds after it, holds of every parse (R167). -/
theorem parses_induction {s : State} {P : Nat → OracleState → Prop}
    (hend : ∀ fuel o, o.cur = s.clen → o.out.length ≤ s.cfg.outMax → P fuel o)
    (hnext : ∀ fuel o i n o', o.cur ≠ s.clen → decode s.tab (recordMode o.byp) s.bits o.cur = .ok (i, n) →
      recordFits s o.out.length i = true → applyRecord s i n o = some o' → parses s fuel o' = true → P fuel o' →
      P (fuel + 1) o)
    {fuel : Nat} {o : OracleState} (h : parses s fuel o = true) : P fuel o := by
  induction fuel generalizing o with
  | zero =>
    obtain ⟨hc, hlen⟩ := Bool.and_eq_true_iff.mp h
    exact hend 0 o (of_decide_eq_true hc) (of_decide_eq_true hlen)
  | succ fuel ih =>
    by_cases hc : o.cur = s.clen
    · exact hend _ o hc (of_decide_eq_true (parses_at_end hc ▸ h))
    · obtain ⟨i, n, o', fuel', hdec, hfit, ho, h', hfuel⟩ := parses_next h hc
      cases hfuel
      exact hnext fuel o i n o' hc hdec hfit ho h' (ih h')

/-- The oracle executes every record of a parse (R166). -/
theorem oracleRun_isSome_of_parses {s : State} {fuel : Nat} {o : OracleState} (h : parses s fuel o = true) :
    (oracleRun s fuel o).isSome = true := by
  refine parses_induction (P := fun fuel o => (oracleRun s fuel o).isSome = true) (fun fuel o hc _ => ?_)
    (fun fuel o i n o' hc hdec _ ho _ ih => ?_) h
  · rw [oracleRun_at_end hc, Option.isSome_some]
  · rwa [oracleRun_of_next hc hdec ho]

/-! The bits of C at and beyond CLEN (R168). -/

section
variable (s : State) (c : List Int)

theorem copyDict_withLoaded (n addr : Nat) (out : List Byte) :
    copyDict { s with loaded := c } n addr out = copyDict s n addr out := by
  induction n generalizing addr out with
  | zero => rfl
  | succ n ih =>
    rw [copyDict, copyDict, show dictRead { s with loaded := c } addr = dictRead s addr from rfl]
    simp only [ih]

/-- The oracle executes a decoded record without C (R162 to R165). -/
theorem applyRecord_withLoaded (i : Instr) (n : Nat) (o : OracleState) :
    applyRecord { s with loaded := c } i n o = applyRecord s i n o := by
  cases i with
  | dmatch len addr => simp only [applyRecord, copyDict_withLoaded]
  | _ => rfl

theorem recordFits_withLoaded (n : Nat) (i : Instr) : recordFits { s with loaded := c } n i = recordFits s n i := rfl

theorem configCheck_withLoaded : configCheck { s with loaded := c } = configCheck s := rfl

end

/-- Another array to read a well-formed stream from: boolean too, and with the same bits below CLEN. -/
structure SameStream (s : State) (c : List Int) : Prop where
  valid : s.Valid
  fits : s.clen ≤ s.nbits
  boolean : BooleanArray { s with loaded := c }.bits
  bits : ∀ k, k < s.clen → bitAt { s with loaded := c }.bits k = bitAt s.bits k

/-- A record that ends at or before CLEN is decoded from the other array too. -/
theorem SameStream.decode_ok {s : State} {c : List Int} (h : SameStream s c) {m : DecodeMode} {p n : Nat} {i : Instr}
    (hp : p + n ≤ s.clen) (hdec : decode s.tab m s.bits p = .ok (i, n)) :
    decode s.tab m { s with loaded := c }.bits p = .ok (i, n) :=
  decode_congr h.valid.tables h.valid.2 h.boolean hdec (by rw [State.bits_length]; exact hp.trans h.fits)
    fun j hj => h.bits (p + j) (by omega)

/-- A parse, and the oracle's run over it, read no bit at or beyond CLEN: no record ends beyond it (R168). -/
theorem SameStream.parses_and_oracleRun {s : State} {c : List Int} (h : SameStream s c) {fuel : Nat} {o : OracleState}
    (hparse : parses s fuel o = true) :
    parses { s with loaded := c } fuel o = true ∧ oracleRun { s with loaded := c } fuel o = oracleRun s fuel o := by
  refine parses_induction (P := fun fuel o => parses { s with loaded := c } fuel o = true ∧
    oracleRun { s with loaded := c } fuel o = oracleRun s fuel o) (fun fuel o hc hlen => ?_)
    (fun fuel o i n o' hc hdec hfit ho hparse' ih => ?_) hparse
  · have hc' : o.cur = { s with loaded := c }.clen := hc
    rw [parses_at_end hc', oracleRun_at_end hc', oracleRun_at_end hc]
    exact ⟨decide_eq_true hlen, rfl⟩
  · have hcur : o.cur + n ≤ s.clen := (applyRecord_some ho).1 ▸ cur_le_of_parses hparse'
    have hdec' := h.decode_ok hcur hdec
    have ho' := (applyRecord_withLoaded s c i n o).trans ho
    have hfit' := (recordFits_withLoaded s c o.out.length i).trans hfit
    rw [parses_of_next (s := { s with loaded := c }) hc hdec' ho' hfit',
      oracleRun_of_next (s := { s with loaded := c }) hc hdec' ho', oracleRun_of_next hc hdec ho]
    exact ih

/-- The header lies below CLEN, so the oracle reads the same one (R161). -/
theorem SameStream.oracleInit_eq {s : State} {c : List Int} (h : SameStream s c) (hclen : 8 ≤ s.clen) :
    oracleInit { s with loaded := c } = oracleInit s := by
  have hwin : win { s with loaded := c }.bits 0 8 = win s.bits 0 8 := win_congr fun j hj => h.bits (0 + j) (by omega)
  rw [oracleInit, oracleInit, State.win, State.win, hwin]

theorem wellFormedStream_iff {s : State} :
    wellFormedStream s = true ↔
      s.Valid ∧ 8 ≤ s.clen ∧ s.clen ≤ s.nbits ∧ parses s s.clen (oracleInit s) = true := by
  simp [wellFormedStream, and_assoc]

theorem refDecompress_of_wellFormed {s : State} (h : wellFormedStream s = true) :
    refDecompress s = (oracleRun s s.clen (oracleInit s)).map OracleState.out := if_pos h

theorem refDecompress_of_not_wellFormed {s : State} (h : ¬ wellFormedStream s = true) : refDecompress s = none :=
  if_neg h

/-- Settles O57: the oracle's run follows the parse, whose records, and the header before them, end at or before
CLEN. -/
theorem oracleResultOfWellFormedPairs : Obligations.OracleResultOfWellFormedPairs := by
  intro s c
  refine ⟨?_, fun hv => refDecompress_of_not_wellFormed (mt (fun h => (wellFormedStream_iff.mp h).1) hv),
    fun hb hbits hwf => ?_⟩
  · by_cases hwf : wellFormedStream s = true
    · obtain ⟨-, -, -, hparse⟩ := wellFormedStream_iff.mp hwf
      rw [refDecompress_of_wellFormed hwf, Option.isSome_map, oracleRun_isSome_of_parses hparse, hwf]
    · rw [refDecompress_of_not_wellFormed hwf, Bool.eq_false_of_not_eq_true hwf, Option.isSome_none]
  · obtain ⟨hv, hclen, hfits, hparse⟩ := wellFormedStream_iff.mp hwf
    have hsame : SameStream s c := ⟨hv, hfits, hb, hbits⟩
    have hinit := hsame.oracleInit_eq hclen
    obtain ⟨hparse', hrun⟩ := hsame.parses_and_oracleRun hparse
    have hv' : { s with loaded := c }.Valid := ⟨(configCheck_withLoaded s c).trans hv.1, hb⟩
    have hwf' : wellFormedStream { s with loaded := c } = true :=
      wellFormedStream_iff.mpr ⟨hv', hclen, hfits, hinit ▸ hparse'⟩
    rw [refDecompress_of_wellFormed hwf', refDecompress_of_wellFormed hwf, hinit, hrun]

end Sys2Proof.Machine

/-! PROOFS of spec/43_iteration_datapath.md: a decoded record, a record against the oracle and against its iterations, the
iteration in closed form, and the run of a well-formed pair. -/

namespace Sys2Proof.Machine

/-! What a decoded record is: no bit pattern is assumed, only complete tables. -/

/-- The two fields after a delimiter, once read, are in range and coded. -/
theorem matchFields_of_decodeMatch {t : Tables} (ht : TablesOk t) {c : List Int} {p ls lv av n : Nat} {d : Byte}
    (hd : fieldAt t.chLen t.wc c p = some (d.toNat, ls)) (hm : decodeMatch t c p ls = .ok (lv, av, n)) :
    MatchFields t d lv av ∧ n = codeLen t.chLen d.toNat + codeLen t.lnLen lv + codeLen t.adLen av := by
  obtain ⟨hch, hln, had, -⟩ := ht
  obtain ⟨-, hls, -, rfl⟩ := fieldAt_some hch.1 hd
  unfold decodeMatch at hm
  split at hm
  · cases hm
  · rename_i hlen
    split at hm
    · cases hm
    · rename_i haddr
      cases hm
      obtain ⟨hlv, hll, -, rfl⟩ := fieldAt_some hln.1 hlen
      obtain ⟨hav, hla, -, rfl⟩ := fieldAt_some had.1 haddr
      exact ⟨⟨hlv, hav, hls, hll, hla⟩, rfl⟩

/-- Under complete tables a coded position that decodes holds a well-formed record of the length decoded (R93). -/
theorem wf_of_decodeCoded {t : Tables} (ht : TablesOk t) {c : List Int} {p n : Nat} {i : Instr}
    (h : decodeCoded t c p = .ok (i, n)) : i.wf t = true ∧ i.mode? = some .coded ∧ n = i.bitLen t := by
  unfold decodeCoded at h
  split at h
  · cases h
  · rename_i s ls hfield
    obtain ⟨hs, hls, -, hlen⟩ := fieldAt_some ht.1.1 hfield
    split at h
    · rename_i hW
      subst hW
      split at h <;> cases h
      rename_i hm
      obtain ⟨hfields, hn⟩ := matchFields_of_decodeMatch ht hfield hm
      exact ⟨wf_wmatch.mpr ⟨_, _, rfl, rfl, hfields⟩, rfl, hn⟩
    · rename_i hW
      split at h
      · rename_i hD
        subst hD
        split at h <;> cases h
        rename_i hm
        obtain ⟨hfields, hn⟩ := matchFields_of_decodeMatch ht hfield hm
        exact ⟨wf_dmatch.mpr ⟨_, rfl, hfields⟩, rfl, hn⟩
      · rename_i hD
        cases h
        have hnat : (BitVec.ofNat 8 s).toNat = s := Nat.mod_eq_of_lt hs
        refine ⟨wf_lit.mpr ⟨?_, ?_, by rw [hnat]; omega⟩, rfl, by rw [Instr.bitLen, hnat, hlen]⟩
        · exact fun hb => hW (by rw [← hb, hnat])
        · exact fun hb => hD (by rw [← hb, hnat])

/-- Under complete tables a position that decodes as a record holds a well-formed one of the length decoded. -/
theorem wf_of_decode {t : Tables} (ht : TablesOk t) {byp : Bool} {c : List Int} {p n : Nat} {i : Instr}
    (h : decode t (recordMode byp) c p = .ok (i, n)) :
    i.wf t = true ∧ i.mode? = some (recordMode byp) ∧ n = i.bitLen t := by
  cases byp with
  | false => exact wf_of_decodeCoded ht h
  | true =>
    simp only [recordMode, if_true, decode] at h ⊢
    split at h <;> cases h
    exact ⟨rfl, rfl, rfl⟩

/-! A record against the oracle (R199). -/

theorem exec_raw_of_ready {s : State} (hm : s.MemInv) (hready : s.recordReady true = true) (b : Byte) :
    exec (.raw b) s = .next (s.withByte b 8 0) := by
  obtain ⟨hp, -⟩ := recordReady_iff.mp hready
  rw [exec, execRaw, if_pos hready, emit_eq _ _ _ hm (hm.running hp)]

theorem exec_lit_of_ready {s : State} (hm : s.MemInv) (hready : s.recordReady false = true) {b : Byte}
    (hwf : (Instr.lit b).wf s.tab = true) :
    exec (.lit b) s = .next (s.withByte b ((Instr.lit b).bitLen s.tab) 0) := by
  obtain ⟨hp, -⟩ := recordReady_iff.mp hready
  rw [exec, execLit, if_pos hready, if_pos hwf, emit_eq _ _ _ hm (hm.running hp)]
  rfl

theorem recordReady_own_mode {s : State} {byp : Bool} (h : s.recordReady byp = true) : s.recordReady s.byp = true := by
  obtain ⟨-, -, -, -, -, rfl⟩ := recordReady_iff.mp h
  exact h

/-- One byte appended is a copy of one byte. -/
theorem withByte_eq_withBytes {s : State} {byp : Bool} (hready : s.recordReady byp = true) (b : Byte) (advance : Nat) :
    s.withByte b advance 0 = s.withBytes (s.out.write s.i b) 1 advance := by
  obtain ⟨hp, -, -, hrem, -⟩ := recordReady_iff.mp hready
  simp [State.withByte, State.withBytes, hp, hrem]

theorem read_write_of_outIs {s : State} {out : List Byte} (hout : OutIs s out) (b : Byte) (k : Nat) :
    (s.out.write s.i b).read k = (out ++ [b])[k]? :=
  (Rep_withByte (adv := 0) (r := 0) hout).2 k

theorem recordMode_eq_raw {byp : Bool} : recordMode byp = .raw ↔ byp = true := by cases byp <;> simp [recordMode]

theorem recordMode_eq_coded {byp : Bool} : recordMode byp = .coded ↔ byp = false := by cases byp <;> simp [recordMode]

section
variable {s : State} {out out' : List Byte} (hm : s.MemInv) (hready : s.recordReady false = true)
  (hout : OutIs s out) (hfit : out'.length ≤ s.cfg.outMax)
include hm hready hout hfit

/-- A WMATCH whose copy the oracle completes appends the oracle's bytes (R164). -/
theorem exec_wmatch_of_copyBack {len dist : Nat} (hwf : (Instr.wmatch len dist).wf s.tab = true)
    (hcopy : copyBack len dist out = some out') :
    ∃ m, exec (.wmatch len dist) s = .next (s.withBytes m len ((Instr.wmatch len dist).bitLen s.tab)) ∧
      ∀ k, m.read k = out'[k]? := by
  obtain ⟨lv, av, hlen, hav, -⟩ := wf_wmatch.mp hwf
  obtain ⟨bs, rfl, rfl, hdist, hback⟩ := copyBack_some len dist out out' hcopy (by omega)
  rw [List.length_append, ← hout.1] at hfit
  obtain ⟨m, hloop, hread, -⟩ := copyLoop_eq_withBytes (isW := 1) (isD := 0)
    (key := fun t _ => windowKey t.dictLen t.i ((dist : Int) - 1))
    (advance := (Instr.wmatch bs.length dist).bitLen s.tab) hm
    (recordReady_own_mode hready) hout (List.ne_nil_of_length_pos (by omega)) hfit
    (fun j u hj _ hu hum hup => by
      have hlen : (out ++ bs.take j).length = out.length + j := by
        rw [List.length_append, List.length_take_of_le hj.le]
      rw [srcLookup_windowKey hum hup hu (by omega) (by omega), hback j hj, hlen])
  exact ⟨m, (exec_wmatch_of_ready hready hwf).trans hloop, hread⟩

/-- A DMATCH whose copy the oracle completes appends the oracle's bytes (R165). -/
theorem exec_dmatch_of_copyDict {len addr : Nat} (hwf : (Instr.dmatch len addr).wf s.tab = true)
    (hcopy : copyDict s len addr out = some out') :
    ∃ m, exec (.dmatch len addr) s = .next (s.withBytes m len ((Instr.dmatch len addr).bitLen s.tab)) ∧
      ∀ k, m.read k = out'[k]? := by
  obtain ⟨lv, hlen, -⟩ := wf_dmatch.mp hwf
  obtain ⟨bs, rfl, rfl, hdict⟩ := copyDict_some len addr out out' hcopy
  rw [List.length_append, ← hout.1] at hfit
  obtain ⟨m, hloop, hread, -⟩ := copyLoop_eq_withBytes (isW := 0) (isD := 1)
    (key := fun _ n => dictKey addr bs.length n) (advance := (Instr.dmatch bs.length addr).bitLen s.tab) hm
    (recordReady_own_mode hready) hout (List.ne_nil_of_length_pos (by omega)) hfit
    (fun j u hj hin _ _ _ => by
      obtain ⟨-, -, hdictLen, -⟩ := id hin
      have hb := hdict j hj
      rw [List.getElem?_eq_getElem hj] at hb ⊢
      obtain ⟨-, hlt, hbyte⟩ := dictRead_some.mp hb
      rw [dictKey_of_togo hj.le, srcLookup_dict (by omega), dictByte_of_sameInputs hin, ← hbyte, Int.toNat_natCast])
  exact ⟨m, (exec_dmatch_of_ready hready hwf).trans hloop, hread⟩

end

/-- A record that has a result in the oracle and fits the buffer appends the oracle's bytes and passes its own bits. -/
theorem exec_record {s : State} {o o' : OracleState} {i : Instr} {n : Nat} (hm : s.MemInv) (ht : TablesOk s.tab)
    (hready : s.recordReady s.byp = true) (hrep : Represents s o)
    (hdec : decode s.tab (recordMode s.byp) s.bits s.cur = .ok (i, n)) (ho : applyRecord s i n o = some o')
    (hfit : o'.out.length ≤ s.cfg.outMax) :
    ∃ m, exec i s = .next (s.withBytes m (recordBytes i) n) ∧ ∀ k, m.read k = o'.out[k]? := by
  obtain ⟨hwf, hmode, rfl⟩ := wf_of_decode ht hdec
  have hout : OutIs s o.out := outIs_of_represents hm hrep
  cases i with
  | raw b =>
    cases ho
    rw [recordMode_eq_raw.mp (Option.some.inj hmode).symm] at hready
    exact ⟨_, (exec_raw_of_ready hm hready b).trans (congrArg _ (withByte_eq_withBytes hready b 8)),
      read_write_of_outIs hout b⟩
  | lit b =>
    cases ho
    rw [recordMode_eq_coded.mp (Option.some.inj hmode).symm] at hready
    exact ⟨_, (exec_lit_of_ready hm hready hwf).trans (congrArg _ (withByte_eq_withBytes hready b _)),
      read_write_of_outIs hout b⟩
  | wmatch len dist =>
    rw [recordMode_eq_coded.mp (Option.some.inj hmode).symm] at hready
    obtain ⟨out, hcopy, rfl⟩ := Option.map_eq_some_iff.mp ho
    exact exec_wmatch_of_copyBack hm hready hout hfit hwf hcopy
  | dmatch len addr =>
    rw [recordMode_eq_coded.mp (Option.some.inj hmode).symm] at hready
    obtain ⟨out, hcopy, rfl⟩ := Option.map_eq_some_iff.mp ho
    exact exec_dmatch_of_copyDict hm hready hout hfit hwf hcopy
  | _ => cases ho

/-- Settles O25: the record's bytes are the oracle's, and its registers those of a copy of so many bytes. -/
theorem recordExecutionRefinesTheOracle : Obligations.RecordExecutionRefinesTheOracle := by
  intro s o o' i n hm ht hready hrep hdec ho hfit
  obtain ⟨m, hexec, hread⟩ := exec_record hm ht hready hrep hdec ho hfit
  obtain ⟨-, hf, -, hrem, -⟩ := recordReady_iff.mp hready
  obtain ⟨hcur, hbyp, hlen⟩ := applyRecord_some ho
  have hcur' : o'.cur = s.cur + n := hcur.trans (hrep.cur ▸ rfl)
  refine ⟨_, hexec, ⟨hcur', hbyp.trans hrep.mode, ?_, fun k _ => hread k⟩, hrem, hf, ?_, rfl,
    ⟨rfl, rfl, rfl, rfl, rfl, rfl⟩⟩
  · rw [hlen, hrep.length]; rfl
  · rw [hcur']; rfl

/-! A live iteration at the record at the cursor, in closed form: its byte, or its miss (R182 to R197). -/

/-- The byte that the iteration at a record writes: the record's own, the one `dist` before I, or the dictionary byte at
the address plus the progress; none where that holds no value (R188 to R190). -/
def State.nextByte (s : State) : Instr → Option Byte
  | .raw b | .lit b => some b
  | .wmatch _ dist => if dist ≤ s.i then s.out.read (s.i - dist) else none
  | .dmatch len addr =>
    if addr + (len - s.toGo len) < s.dictLen then some (s.dictByte (addr + (len - s.toGo len))) else none
  | _ => none

/-- The key that the iteration at a match reads (R188); without a match it is 0. -/
def State.nextKey (s : State) : Instr → Int
  | .wmatch _ dist => (s.dictLen : Int) + s.i - dist
  | .dmatch len addr => ((addr + (len - s.toGo len) : Nat) : Int)
  | _ => 0

/-- The state after the iteration at a record of n bits: the byte written, and the cursor past the record with its last;
or the miss taken (R189 to R197). -/
def State.afterByteOf (s : State) (i : Instr) (n : Nat) : State :=
  match s.nextByte i with
  | some b => s.withByte b (if s.toGo (recordBytes i) = 1 then n else 0) (s.toGo (recordBytes i) - 1)
  | none => takeFault s .lookupMiss (.miss s.i (s.nextKey i))

theorem State.afterByteOf_of_some {s : State} {i : Instr} {b : Byte} (h : s.nextByte i = some b) (n : Nat) :
    s.afterByteOf i n =
      s.withByte b (if s.toGo (recordBytes i) = 1 then n else 0) (s.toGo (recordBytes i) - 1) := by
  simp only [State.afterByteOf, h]

theorem State.afterByteOf_of_none {s : State} {i : Instr} (h : s.nextByte i = none) (n : Nat) :
    s.afterByteOf i n = takeFault s .lookupMiss (.miss s.i (s.nextKey i)) := by
  simp only [State.afterByteOf, h]

/-- A record of one byte leaves no byte to go, and the cursor past it. -/
theorem State.afterByteOf_one {s : State} {i : Instr} {b : Byte} (hb : s.nextByte i = some b) (hi : recordBytes i = 1)
    (hrem : s.rem = 0) (n : Nat) : s.afterByteOf i n = s.withByte b n 0 := by
  rw [State.afterByteOf_of_some hb, hi, State.toGo, if_pos hrem]
  rfl

/-- On a valid configuration a decoded record is what the iteration's fields hold. -/
theorem exists_at_of_decode {s : State} (hv : s.Valid) {i : Instr} {n : Nat}
    (hdec : decode s.tab (recordMode s.byp) s.bits s.cur = .ok (i, n)) : ∃ f, fieldsAt s = .ok f ∧ At s f i n := by
  obtain ⟨f, i', n', hf, hdec', hat⟩ := exists_at hv
  cases hdec.symm.trans hdec'
  exact ⟨f, hf, hat⟩

/-- The wires at a window match (R184, R188). -/
theorem wires_of_at_wmatch {s : State} {f : Fields} {len dist n : Nat} (hv : s.Valid) (he : s.eof = false)
    (hat : At s f (.wmatch len dist) n) :
    (wires s f).isW = 1 ∧ (wires s f).isD = 0 ∧ (wires s f).isM = 1 ∧
      (wires s f).key = (s.dictLen : Int) + s.i - dist ∧ 1 ≤ dist := by
  rcases indicators_of_at hv he hat with ⟨-, -, b, hb | hb⟩ | ⟨lv, ls, ll, av, la, -, -, hM, -, -, -, hmatch⟩
  · cases hb
  · cases hb
  · rcases hmatch with ⟨hi, hW, hD, hkey⟩ | ⟨hi, -⟩
    · cases hi
      exact ⟨hW, hD, hM, hkey, by omega⟩
    · cases hi

/-- The wires at a dictionary match, fresh or in the middle of its copy (R184, R188). -/
theorem wires_of_at_dmatch {s : State} {f : Fields} {len addr n : Nat} (hv : s.Valid) (he : s.eof = false)
    (hat : At s f (.dmatch len addr) n) (hrem : s.rem < len) :
    (wires s f).isW = 0 ∧ (wires s f).isD = 1 ∧ (wires s f).isM = 1 ∧
      (wires s f).key = ((addr + (len - s.toGo len) : Nat) : Int) := by
  rcases indicators_of_at hv he hat with ⟨-, -, b, hb | hb⟩ | ⟨lv, ls, ll, av, la, -, -, hM, -, -, -, hmatch⟩
  · cases hb
  · cases hb
  · rcases hmatch with ⟨hi, -⟩ | ⟨hi, hW, hD, hkey⟩
    · cases hi
    · cases hi
      exact ⟨hW, hD, hM, hkey hrem⟩

section
variable {s : State} (hm : s.MemInv) (h : s.RunInv) (hp : s.phase = .run) (he : s.eof = false)
include hm h hp he

/-- At a match the source lookup answers the next byte, at the next key (R189). -/
theorem srcLookup_at_match {f : Fields} {i : Instr} {n : Nat} (hf : fieldsAt s = .ok f) (hat : At s f i n)
    (hi : ∀ b, i ≠ .raw b ∧ i ≠ .lit b) :
    (wires s f).isM = 1 ∧ (wires s f).key = s.nextKey i ∧
      srcLookup s (wires s f).isW (wires s f).isD (wires s f).key = s.nextByte i := by
  have hrem := rem_lt h hf hat he
  cases i with
  | raw b | lit b => simp at hi
  | wmatch len dist =>
    obtain ⟨hW, hD, hM, hkey, hdist⟩ := wires_of_at_wmatch h.valid he hat
    refine ⟨hM, hkey, ?_⟩
    rw [hW, hD, hkey, State.nextByte]
    split
    · rename_i hle
      obtain ⟨b, hb⟩ := Option.isSome_iff_exists.mp
        ((hm.written (s.i - dist)).trans (decide_eq_true (by omega)))
      rw [srcLookup_window hdist hle (hm.running hp).le hb, hb]
    · exact srcLookup_window_miss (by omega)
  | dmatch len addr =>
    obtain ⟨hW, hD, hM, hkey⟩ := wires_of_at_dmatch h.valid he hat hrem
    refine ⟨hM, hkey, ?_⟩
    rw [hW, hD, hkey, State.nextByte]
    split
    · exact srcLookup_dict (by assumption)
    · exact srcLookup_dict_miss (by omega)
  | _ => cases hat

/-- A live iteration at a match copies its next byte or misses. -/
theorem iterate_at_match {f : Fields} {i : Instr} {n : Nat} (hf : fieldsAt s = .ok f) (hat : At s f i n)
    (hi : ∀ b, i ≠ .raw b ∧ i ≠ .lit b) : iterate s = .next (s.afterByteOf i n) := by
  obtain ⟨hM, hkey, hlookup⟩ := srcLookup_at_match hm h hp he hf hat hi
  cases hb : s.nextByte i with
  | none =>
    rw [State.afterByteOf_of_none hb, ← hkey]
    exact iterate_miss hf (hlookup.trans hb)
  | some b =>
    rw [State.afterByteOf_of_some hb]
    rcases indicators_of_at h.valid he hat with ⟨-, hM0, -⟩ | ⟨lv, ls, ll, av, la, hff, rfl, -, -, -, -, hmatch⟩
    · omega
    · have hbytes : recordBytes i = lv + 1 := by rcases hmatch with ⟨rfl, -⟩ | ⟨rfl, -⟩ <;> rfl
      rw [hbytes]
      exact iterate_copy hm (hm.running hp) he hf (by rw [hff]) (by rw [hff]) (by rw [hff]) (by rw [hff]) hM
        (hlookup.trans hb)

/-- A live iteration writes the next byte of the record at the cursor, or takes its miss. -/
theorem iterate_of_decode {i : Instr} {n : Nat}
    (hdec : decode s.tab (recordMode s.byp) s.bits s.cur = .ok (i, n)) : iterate s = .next (s.afterByteOf i n) := by
  obtain ⟨f, hf, hat⟩ := exists_at_of_decode h.valid hdec
  have hrem := rem_lt h hf hat he
  cases i with
  | raw b =>
    cases hat with
    | raw _ hbyp hs hls =>
      have hrem0 : s.rem = 0 := Nat.lt_one_iff.mp hrem
      rw [State.afterByteOf_one rfl rfl hrem0]
      exact iterate_single h.valid hm (hm.running hp) he hrem0 hf hs hls (.inl hbyp)
  | lit b =>
    cases hat with
    | lit _ ls hbyp hs hls hW hD =>
      have hrem0 : s.rem = 0 := Nat.lt_one_iff.mp hrem
      rw [State.afterByteOf_one rfl rfl hrem0]
      refine iterate_single h.valid hm (hm.running hp) he hrem0 hf hs hls (.inr ?_)
      rw [hs]
      exact ⟨mt ofByte_inj.mp hW, mt ofByte_inj.mp hD⟩
  | wmatch | dmatch => exact iterate_at_match hm h hp he hf hat (by simp)
  | _ => cases hat

end

/-- A record at the cursor has more bytes than are already copied of it (R41 (b)). -/
theorem rem_lt_of_decode {s : State} (h : s.RunInv) (he : s.eof = false) {i : Instr} {n : Nat}
    (hdec : decode s.tab (recordMode s.byp) s.bits s.cur = .ok (i, n)) : s.rem < recordBytes i := by
  obtain ⟨f, hf, hat⟩ := exists_at_of_decode h.valid hdec
  exact rem_lt h hf hat he

/-- A live ITER at a decoded record. -/
theorem exec_iter_of_decode {s : State} (h : s.Inv) (hp : s.phase = .run) (hf : s.fault = false) (he : s.eof = false)
    {i : Instr} {n : Nat} (hdec : decode s.tab (recordMode s.byp) s.bits s.cur = .ok (i, n)) :
    exec .iter s = .next (s.afterByteOf i n) := by
  rw [exec_iter_eq hp hf, iterate_of_decode h.mem (h.run hp) hp he hdec]

/-- A live ITER at a record of one byte, of which nothing can be copied yet. -/
theorem exec_iter_oneByte {s : State} (h : s.Inv) (hp : s.phase = .run) (hf : s.fault = false) (he : s.eof = false)
    {i : Instr} {n : Nat} (hdec : decode s.tab (recordMode s.byp) s.bits s.cur = .ok (i, n)) {b : Byte}
    (hb : s.nextByte i = some b) (hi : recordBytes i = 1) : exec .iter s = .next (s.withByte b n 0) := by
  have hrem := rem_lt_of_decode (h.run hp) he hdec
  rw [exec_iter_of_decode h hp hf he hdec, State.afterByteOf_one hb hi (by omega)]

/-- Settles O32: the next byte of a RAW or LIT is its own, and its only one. -/
theorem iterationOfOneByteRecord : Obligations.IterationOfOneByteRecord := by
  intro s b n h hp hf he hdec
  rcases hdec with hdec | hdec
  · exact exec_iter_oneByte h hp hf he hdec rfl rfl
  · exact exec_iter_oneByte h hp hf he hdec rfl rfl

/-- Settles O33: with the source byte written, or within the dictionary, it is the match's next byte. -/
theorem iterationOfMatchCopiesOneByte : Obligations.IterationOfMatchCopiesOneByte := by
  intro s b len a n h hp hf he
  refine ⟨fun hdec ha hread => ?_, fun hdec ha => ?_⟩
  · have hb : s.nextByte (.wmatch len a) = some b := (if_pos ha).trans hread
    rw [exec_iter_of_decode h hp hf he hdec, State.afterByteOf_of_some hb]
    rfl
  · have hb : s.nextByte (.dmatch len a) = some (s.dictByte (a + (len - s.toGo len))) := if_pos ha
    rw [exec_iter_of_decode h hp hf he hdec, State.afterByteOf_of_some hb]
    rfl

/-- Settles O35: a window match beyond the output, or a dictionary match past DICT_LEN, has no next byte. -/
theorem iterationMissTakesLookupMiss : Obligations.IterationMissTakesLookupMiss := by
  intro s len a n h hp hf he
  refine ⟨fun hdec ha => ?_, fun hdec ha => ?_⟩
  · have hb : s.nextByte (.wmatch len a) = none := if_neg (by omega)
    rw [exec_iter_of_decode h hp hf he hdec, State.afterByteOf_of_none hb, takeFault_of_noFault hf]
    rfl
  · have hb : s.nextByte (.dmatch len a) = none := if_neg (by omega)
    rw [exec_iter_of_decode h hp hf he hdec, State.afterByteOf_of_none hb, takeFault_of_noFault hf]
    rfl

/-- Settles O34: no copy is in progress at the end of the stream, so the iteration is dead. -/
theorem deadIterationWritesZero : Obligations.DeadIterationWritesZero := by
  intro s h hp hf he
  have hrun := h.run hp
  rw [exec_iter_eq hp hf, iterate_dead hrun.valid h.mem (h.mem.running hp) he (hrun.eofRem he), hp]

/-! A record is its iterations (R199). -/

theorem iterations_one {s : State} (hp : s.phase = .run) (hf : s.fault = false) : iterations 1 s = exec .iter s := by
  have hen : s.enabled = true := by simp [State.enabled, hp, hf]
  rw [iterations, if_pos hen, exec]
  cases execIter s <;> rfl

theorem copiesLike_wmatch (len dist n : Nat) :
    CopiesLike (.wmatch len dist) len n 1 0 (fun t _ => windowKey t.dictLen t.i ((dist : Int) - 1)) := by
  intro u f h he _ hat
  obtain ⟨hW, hD, -, hkey, -⟩ := wires_of_at_wmatch h.valid he hat
  exact ⟨hW, hD, hkey.trans (windowKey_of_dist ..).symm⟩

theorem copiesLike_dmatch (len addr n : Nat) :
    CopiesLike (.dmatch len addr) len n 0 1 (fun _ m => dictKey addr len m) := by
  intro u f h he hf hat
  have hrem : u.rem < len := rem_lt h hf hat he
  obtain ⟨hW, hD, -, hkey⟩ := wires_of_at_dmatch h.valid he hat hrem
  have hgo := toGo_le hrem
  refine ⟨hW, hD, hkey.trans ?_⟩
  simp only [dictKey, opSub_eq, opAdd_eq]
  omega

/-- Settles O36: a record of one byte is one iteration, and a match's copy is one iteration for each of its bytes. -/
theorem recordIsItsIterations : Obligations.RecordIsItsIterations := by
  intro s i n h hp hf he hrem hdec
  have hrun := h.run hp
  obtain ⟨hwf, hmode, rfl⟩ := wf_of_decode hrun.valid.tables hdec
  obtain ⟨f, -, hat⟩ := exists_at_of_decode hrun.valid hdec
  have hready : s.recordReady s.byp = true := recordReady_iff.mpr ⟨hp, hf, he, hrem, hrun.cur_ne he, rfl⟩
  cases i with
  | raw b =>
    rw [recordMode_eq_raw.mp (Option.some.inj hmode).symm] at hready
    rw [exec_raw_of_ready h.mem hready, recordBytes, iterations_one hp hf, exec_iter_oneByte h hp hf he hdec rfl rfl]
    rfl
  | lit b =>
    rw [recordMode_eq_coded.mp (Option.some.inj hmode).symm] at hready
    rw [exec_lit_of_ready h.mem hready hwf, recordBytes, iterations_one hp hf,
      exec_iter_oneByte h hp hf he hdec rfl rfl]
  | wmatch len dist =>
    rw [recordMode_eq_coded.mp (Option.some.inj hmode).symm] at hready
    rw [exec_wmatch_of_ready hready hwf]
    exact copyLoop_iterations (copiesLike_wmatch len dist _) rfl (by simp) len s h.mem h.run
      fun _ _ => ⟨he, hdec, if_pos hrem⟩
  | dmatch len addr =>
    rw [recordMode_eq_coded.mp (Option.some.inj hmode).symm] at hready
    rw [exec_dmatch_of_ready hready hwf]
    exact copyLoop_iterations (copiesLike_dmatch len addr _) rfl (by simp) len s h.mem h.run
      fun _ _ => ⟨he, hdec, if_pos hrem⟩
  | _ => cases hat

/-! The sequencer (R180, R242, R244). -/

theorem nextStep_hardware {s : State} (hview : s.view = .hardware) (hreq : s.req = []) :
    nextStep s = hardwareNext s := by
  rw [nextStep, hreq, hview]

/-- Settles O44: a pending start request is the start step; without a request PHASE and FAULT decide. -/
theorem sequencerStepsByPhase : Obligations.SequencerStepsByPhase := by
  intro s rest hview
  refine ⟨fun hreq => ?_, fun hreq hf hp => ?_, fun hreq hf hp => ?_, fun hreq hp => ?_, fun hreq hf => ?_⟩
  · rw [step, nextStep_of_req hreq, hostAct]
  · rw [step, nextStep_hardware hview hreq]
    simp [hardwareNext, hf, hp]
  · rw [step, nextStep_hardware hview hreq]
    simp [hardwareNext, hf, hp]
  · rw [step, nextStep_hardware hview hreq]
    cases hf : s.fault <;> simp [hardwareNext, hf, hp]
  · rw [step, nextStep_hardware hview hreq]
    simp [hardwareNext, hf]

/-- In RUN with no request pending a step is an iteration. -/
theorem step_eq_iter {s : State} (hview : s.view = .hardware) (hreq : s.req = []) (hf : s.fault = false)
    (hp : s.phase = .run) : step s = exec .iter s := by
  obtain ⟨-, hiter, -⟩ := sequencerStepsByPhase s [] hview
  exact hiter hreq hf hp

/-- The start request on a valid configuration begins the run (R242). -/
theorem step_start_eq {s : State} (hview : s.view = .hardware) (hreq : s.req = [.start]) (hp : s.phase = .idle)
    (hf : s.fault = false) (hv : s.Valid) :
    step s = .next (beginRun { s with req := [] } (toByte (s.win 0 8))) := by
  obtain ⟨hstart, -⟩ := sequencerStepsByPhase s [] hview
  rw [hstart hreq]
  exact execStart_next.mpr ⟨headerReady_of_idle hp hf, .inr ⟨hv.1, .inr ⟨hv.2, rfl⟩⟩⟩

/-! Iterations of a run. -/

/-- What every iteration of a run keeps, its last one included. -/
structure InRun (s : State) : Prop where
  inv : s.Inv
  run : s.RunInv
  started : s.phase ≠ .idle
  iterated : s.phase = .done → s.i = s.cfg.outMax

theorem inRun_of_inv {s : State} (h : s.Inv) (hp : s.phase = .run) : InRun s :=
  ⟨h, h.run hp, by simp [hp], by simp [hp]⟩

/-- An iteration takes a fault, or counts in I and ends the run with the OUT_MAX-th (R197, R227). -/
theorem iter_advances {s t : State} (h : exec .iter s = .next t) :
    t.fault = true ∨
      (t.fault = s.fault ∧ t.i = s.i + 1 ∧ t.phase = if s.i + 1 = s.cfg.outMax then .done else .run) := by
  obtain ⟨hen, hit⟩ := exec_iter_next.mp h
  have hp := (enabled_iff_run hen).1
  rcases iterate_next.mp hit with ⟨key, -, rfl⟩ | ⟨f, -, ⟨-, rfl⟩ | ⟨v, -, -, -, rfl⟩⟩
  · exact .inl (takeFault_fault ..)
  · exact .inl (takeFault_fault ..)
  · exact .inr ⟨rfl, rfl, by simp [hp]⟩

theorem InRun.of_iter {s t : State} (h : InRun s) (ht : exec .iter s = .next t) : InRun t := by
  obtain ⟨hen, hit⟩ := exec_iter_next.mp ht
  have hp := (enabled_iff_run hen).1
  refine ⟨inv_exec h.inv (.inr rfl) ht, runInv_iterate h.inv.mem h.run hp hit, ?_, iterated_of_iter ht⟩
  rcases iterate_next.mp hit with ⟨key, -, rfl⟩ | ⟨f, -, ⟨-, rfl⟩ | ⟨v, -, -, -, rfl⟩⟩
  · simp [hp]
  · simp [hp]
  · simp only [commitRegs_phase, writeOut_phase, hp]
    split <;> simp

/-- What one iteration keeps, iterations keep. -/
theorem iterations_keeps {P : State → Prop} (hstep : ∀ s t, P s → exec .iter s = .next t → P t) {n : Nat} {s t : State}
    (hs : P s) (h : iterations n s = .next t) : P t := by
  induction n generalizing s with
  | zero => cases h; exact hs
  | succ n ih =>
    rw [iterations] at h
    split at h
    · obtain ⟨u, hu, h⟩ := andThen_next.mp h
      exact ih (hstep s u hs hu) h
    · cases h
      exact hs

theorem sameInputs_of_iterations {n : Nat} {s t : State} (h : iterations n s = .next t) : SameInputs s t :=
  iterations_keeps (P := SameInputs s) (fun _ _ hs ht => SameInputs.trans hs (noInstructionChangesTheInputs _ _ _ ht).1)
    ⟨rfl, rfl, rfl, rfl, rfl, rfl⟩ h

theorem InRun.of_iterations {n : Nat} {s t : State} (hs : InRun s) (h : iterations n s = .next t) : InRun t :=
  iterations_keeps (fun _ _ => InRun.of_iter) hs h

/-- An enabled iteration, then those that are left. -/
theorem iterations_succ_of_exec {s t : State} (hp : s.phase = .run) (hf : s.fault = false)
    (h : exec .iter s = .next t) (n : Nat) : iterations (n + 1) s = iterations n t := by
  rw [Nat.add_comm, iterations_add, iterations_one hp hf, h, andThen_of_next]

/-- With iterations left to do the run goes on (R197). -/
theorem InRun.running {s : State} (h : InRun s) (hi : s.i < s.cfg.outMax) : s.phase = .run := by
  cases hp : s.phase with
  | run => rfl
  | idle => exact absurd hp h.started
  | done => exact absurd (h.iterated hp) hi.ne

theorem InRun.i_le {s : State} (h : InRun s) : s.i ≤ s.cfg.outMax := by
  cases hp : s.phase with
  | run => exact (h.inv.mem.running hp).le
  | idle => exact absurd hp h.started
  | done => exact (h.iterated hp).le

theorem InRun.done {s : State} (h : InRun s) (hi : s.cfg.outMax ≤ s.i) : s.phase = .done := by
  cases hp : s.phase with
  | run => exact absurd (h.inv.mem.running hp) hi.not_gt
  | idle => exact absurd hp h.started
  | done => rfl

/-- An enabled iteration of a run is not refused: it is dead, or at some record (R92, R141). -/
theorem exists_exec_iter {s : State} (h : s.Inv) (hp : s.phase = .run) (hf : s.fault = false) :
    ∃ t, exec .iter s = .next t := by
  cases he : s.eof with
  | true => exact ⟨_, deadIterationWritesZero s h hp hf he⟩
  | false =>
    obtain ⟨f, i, n, -, hdec, -⟩ := exists_at (h.run hp).valid
    exact ⟨_, exec_iter_of_decode h hp hf he hdec⟩

/-- The iterations that are left end the run or take a fault. -/
theorem InRun.iterations_end {s : State} (h : InRun s) (hf : s.fault = false) :
    ∃ t, iterations (s.cfg.outMax - s.i) s = .next t ∧ (t.fault = true ∨ t.fault = false ∧ t.phase = .done) := by
  generalize hk : s.cfg.outMax - s.i = k
  induction k generalizing s with
  | zero => exact ⟨s, rfl, .inr ⟨hf, h.done (by omega)⟩⟩
  | succ k ih =>
    have hp : s.phase = .run := h.running (by omega)
    obtain ⟨t, ht⟩ := exists_exec_iter h.inv hp hf
    rw [iterations_succ_of_exec hp hf ht]
    rcases iter_advances ht with hfault | ⟨hfault, hi, -⟩
    · exact ⟨t, iterations_of_not_enabled (by simp [State.enabled, hfault]) k, .inl hfault⟩
    · obtain ⟨⟨hcfg, -⟩, -⟩ := noInstructionChangesTheInputs _ _ _ ht
      exact ih (h.of_iter ht) (hfault.trans hf) (by rw [hcfg, hi]; omega)

/-- Settles O54: no iteration is refused, each counts in I or takes a fault, and OLEN = I while EOF = 0. -/
theorem runEndsAfterOutMaxIterations : Obligations.RunEndsAfterOutMaxIterations := by
  intro s h hp hf
  have hrun := inRun_of_inv h hp
  obtain ⟨t, ht, hend⟩ := hrun.iterations_end hf
  have htrun := hrun.of_iterations ht
  obtain ⟨hcfg, -⟩ := sameInputs_of_iterations ht
  refine ⟨t, ht, hend.imp_right fun ⟨htf, htp⟩ => ?_⟩
  have hi : t.i = s.cfg.outMax := hcfg ▸ htrun.iterated htp
  exact ⟨htf, htp, hi, fun he => (htrun.inv.mem.olenLive he).trans hi⟩

/-! The run of a well-formed pair against the oracle (R199). -/

/-- The iterations after the end of the stream write 0 at the entries that are left and end the run (R190, R198). -/
theorem InRun.iterations_dead {s : State} (h : InRun s) (hf : s.fault = false) (he : s.eof = true) :
    ∃ m, iterations (s.cfg.outMax - s.i) s = .next { s with out := m, i := s.cfg.outMax, phase := .done } ∧
      (∀ k, k < s.i → m.read k = s.out.read k) ∧ ∀ k, s.i ≤ k → k < s.cfg.outMax → m.read k = some 0 := by
  generalize hk : s.cfg.outMax - s.i = k
  induction k generalizing s with
  | zero =>
    have hi : s.i = s.cfg.outMax := le_antisymm h.i_le (by omega)
    refine ⟨s.out, ?_, fun _ _ => rfl, fun k h1 h2 => by omega⟩
    rw [iterations, ← hi, ← h.done hi.ge]
  | succ k ih =>
    have hp : s.phase = .run := h.running (by omega)
    have ht := deadIterationWritesZero s h.inv hp hf he
    obtain ⟨m, hm, hbefore, hzero⟩ := ih (h.of_iter ht) hf he (by simp only; omega)
    refine ⟨m, (iterations_succ_of_exec hp hf ht k).trans hm, fun j hj => ?_, fun j h1 h2 => ?_⟩
    · exact (hbefore j (Nat.lt_succ_of_lt hj)).trans (Memory.read_write_ne _ _ hj.ne)
    · rcases h1.eq_or_lt with rfl | hlt
      · exact (hbefore s.i (Nat.lt_succ_self _)).trans (Memory.read_write_same ..)
      · exact hzero j hlt h2

/-- The state t of the run of s stands before a record, or at the end of the stream, where the oracle's o does. -/
structure AtRecord (s t : State) (o : OracleState) : Prop extends InRun t where
  noFault : t.fault = false
  inputs : SameInputs s t
  represents : Represents t o
  rem : t.rem = 0
  eof : t.eof = decide (o.cur = s.clen)
  olen : t.olen = t.i

theorem length_le_of_parses {s : State} {fuel : Nat} {o : OracleState} (h : parses s fuel o = true) :
    o.out.length ≤ s.cfg.outMax := by
  refine parses_induction (P := fun _ o => o.out.length ≤ s.cfg.outMax) (fun _ _ _ hlen => hlen)
    (fun _ _ _ _ _ _ _ _ ho _ ih => ?_) h
  obtain ⟨-, -, hlen⟩ := applyRecord_some ho
  omega

section
variable {s t : State} (h : SameInputs s t)
include h

theorem copyDict_of_sameInputs (n addr : Nat) (out : List Byte) : copyDict t n addr out = copyDict s n addr out := by
  induction n generalizing addr out with
  | zero => rfl
  | succ n ih =>
    obtain ⟨-, -, hdictLen, -⟩ := id h
    have hread : dictRead t addr = dictRead s addr := by rw [dictRead, dictRead, hdictLen, dictByte_of_sameInputs h]
    rw [copyDict, copyDict, hread]
    simp only [ih]

/-- The oracle executes a record from the dictionary, which no step changes (R40). -/
theorem applyRecord_of_sameInputs (i : Instr) (n : Nat) (o : OracleState) :
    applyRecord t i n o = applyRecord s i n o := by
  cases i with
  | dmatch len addr => rw [applyRecord, applyRecord, copyDict_of_sameInputs h]
  | _ => rfl

end

/-- A record takes the oracle to its next state, and its iterations take the block there. -/
theorem AtRecord.next {s t : State} {o o' : OracleState} {i : Instr} {n : Nat} (h : AtRecord s t o)
    (hc : o.cur ≠ s.clen) (hdec : decode s.tab (recordMode o.byp) s.bits o.cur = .ok (i, n))
    (ho : applyRecord s i n o = some o') (hfit : o'.out.length ≤ s.cfg.outMax) :
    ∃ u, iterations (recordBytes i) t = .next u ∧ AtRecord s u o' ∧ u.i = t.i + recordBytes i := by
  have ⟨hcfg, htab, _, _, _, hclen⟩ := h.inputs
  obtain ⟨-, -, hlen⟩ := applyRecord_some ho
  have hdec' : decode t.tab (recordMode t.byp) t.bits t.cur = .ok (i, n) := by
    rwa [htab, sameInputs_bits h.inputs, ← h.represents.mode, ← h.represents.cur]
  have ho' : applyRecord t i n o = some o' := (applyRecord_of_sameInputs h.inputs i n o).trans ho
  have he : t.eof = false := h.eof.trans (decide_eq_false hc)
  have hbytes := rem_lt_of_decode h.run he hdec'
  have hroom : t.i + recordBytes i ≤ t.cfg.outMax := by rw [← h.represents.length, hcfg, ← hlen]; exact hfit
  have hp : t.phase = .run := h.running (by omega)
  have hready : t.recordReady t.byp = true := recordReady_iff.mpr ⟨hp, h.noFault, he, h.rem, h.run.cur_ne he, rfl⟩
  obtain ⟨u, hu, hrep, hrem, hf, heof, holen, hin⟩ := recordExecutionRefinesTheOracle t o o' i n h.inv.mem
    h.run.valid.tables hready h.represents hdec' ho' (hcfg ▸ hfit)
  rw [recordIsItsIterations t i n h.inv hp h.noFault he h.rem hdec'] at hu
  have hi : u.i = t.i + recordBytes i := by rw [← hrep.length, hlen, h.represents.length]
  exact ⟨u, hu, ⟨h.toInRun.of_iterations hu, hf, SameInputs.trans h.inputs hin, hrep, hrem, hclen ▸ heof,
    by rw [holen, h.olen, hi]⟩, hi⟩

/-- The iterations of a parse's records take the block where the oracle's run ends, at CLEN. -/
theorem AtRecord.iterations_to_clen {s : State} {fuel : Nat} {o : OracleState} (hparse : parses s fuel o = true) :
    ∀ {t}, AtRecord s t o → ∃ o' k u, oracleRun s fuel o = some o' ∧ o'.cur = s.clen ∧
      iterations k t = .next u ∧ AtRecord s u o' ∧ u.i = t.i + k := by
  refine parses_induction (P := fun fuel o => ∀ {t}, AtRecord s t o → ∃ o' k u,
    oracleRun s fuel o = some o' ∧ o'.cur = s.clen ∧ iterations k t = .next u ∧ AtRecord s u o' ∧
      u.i = t.i + k) (fun fuel o hc _ t ht => ?_) (fun fuel o i n o' hc hdec _ ho hparse' ih t ht => ?_) hparse
  · exact ⟨o, 0, t, oracleRun_at_end hc, hc, rfl, ht, rfl⟩
  · obtain ⟨u, hu, hrec, hi⟩ := ht.next hc hdec ho (length_le_of_parses hparse')
    obtain ⟨o'', k, v, hrun, hend, hv, hrec', hi'⟩ := ih hrec
    refine ⟨o'', recordBytes i + k, v, (oracleRun_of_next hc hdec ho).trans hrun, hend, ?_, hrec', by omega⟩
    rw [iterations_add, hu, andThen_of_next, hv]

/-- Iterations none of which ends the run early are steps of the block. -/
theorem run_of_iterations {n : Nat} {s t : State} (hview : s.view = .hardware) (hreq : s.req = [])
    (h : iterations n s = .next t) (hf : t.fault = false) (hi : t.i = s.i + n) : Host.Core.run core n s = .next t := by
  induction n generalizing s with
  | zero => exact h
  | succ n ih =>
    rw [iterations] at h
    split at h
    · rename_i hen
      obtain ⟨hp, hfault⟩ := enabled_iff_run hen
      obtain ⟨u, hu, h⟩ := andThen_next.mp h
      obtain ⟨-, hreq', hview', -⟩ := noInstructionChangesTheInputs .iter s u hu
      rcases iter_advances hu with hfu | ⟨-, hiu, -⟩
      · rw [iterations_of_not_enabled (by simp [State.enabled, hfu])] at h
        cases h
        simp [hf] at hfu
      · exact run_succ_next.mpr ⟨u, (step_eq_iter hview hreq hfault hp).trans hu,
          ih (hview'.trans hview) (hreq'.trans hreq) h (by omega)⟩
    · cases h
      omega

/-- The start step on a well-formed pair leaves the block where the oracle has read the header. -/
theorem atRecord_of_start {s t : State} (hm : s.MemInv) (hview : s.view = .hardware) (hreq : s.req = [.start])
    (hidle : s.phase = .idle) (hf : s.fault = false) (hv : s.Valid) (hwf : wellFormedStream s = true)
    (ht : step s = .next t) : AtRecord s t (oracleInit s) := by
  have h := onCourse_of_start hm hview hreq hidle hf hv hwf ht
  obtain ⟨hstart, -⟩ := sequencerStepsByPhase s [] hview
  have hiterated := iterated_of_start ((hstart hreq).symm.trans ht)
  obtain rfl := step_start hreq hv ht
  refine ⟨⟨h.inv, h.run, h.started, hiterated⟩, hf, h.inputs,
    ⟨rfl, oracleInit_byp hv.2, rfl, fun k hk => absurd hk (Nat.not_lt_zero k)⟩, rfl, ?_, rfl⟩
  rw [beginRun_eof, toFlag_opIsZero, opSub_eq, decide_eq_decide]
  simp only [oracleInit]
  omega

/-- From before a record of a parse the iterations that are left end the run with the oracle's output and 0 beyond it:
the records' iterations reach the oracle's end, and dead iterations fill the rest of OUT. -/
theorem AtRecord.iterations_end {s t : State} {fuel : Nat} {o : OracleState} (h : AtRecord s t o)
    (hparse : parses s fuel o = true) :
    ∃ o' v, oracleRun s fuel o = some o' ∧ iterations (s.cfg.outMax - t.i) t = .next v ∧
      v.i = s.cfg.outMax ∧ v.phase = .done ∧ v.fault = false ∧ v.eof = true ∧ v.olen = o'.out.length ∧
      (∀ k, k < o'.out.length → v.out.read k = o'.out[k]?) ∧
      ∀ k, o'.out.length ≤ k → k < s.cfg.outMax → v.out.read k = some 0 := by
  obtain ⟨o', k, u, hrun, hend, hk, hu, hi⟩ := AtRecord.iterations_to_clen hparse h
  have he : u.eof = true := hu.eof.trans (decide_eq_true hend)
  obtain ⟨hcfg, -⟩ := hu.inputs
  have hlen : o'.out.length = u.i := hu.represents.length
  have hle := hu.i_le
  obtain ⟨m, hdead, hbefore, hzero⟩ := hu.iterations_dead hu.noFault he
  have hcount : s.cfg.outMax - t.i = k + (u.cfg.outMax - u.i) := by rw [← hcfg]; omega
  refine ⟨o', { u with out := m, i := u.cfg.outMax, phase := .done }, hrun, ?_, congrArg Config.outMax hcfg, rfl,
    hu.noFault, he, hu.olen.trans hlen.symm, fun j hj => ?_, fun j h1 h2 => hzero j (hlen ▸ h1) (hcfg ▸ h2)⟩
  · rw [hcount, iterations_add, hk, andThen_of_next, hdead]
  · rw [hlen] at hj
    exact (hbefore j hj).trans (hu.represents.bytes j hj)

/-- Settles O58: the start step stands where the oracle has read the header, and each iteration after it is a step. -/
theorem runAgreesWithTheOracle : Obligations.RunAgreesWithTheOracle := by
  intro s hm hview hreq hidle hf hv hwf
  have hstart := step_start_eq hview hreq hidle hf hv
  have hrec := atRecord_of_start hm hview hreq hidle hf hv hwf hstart
  obtain ⟨o, v, horacle, hv, hi, hphase, hfault, heof, holen, hbytes, hzero⟩ :=
    hrec.iterations_end (parses_of_wellFormedStream hwf).2
  rw [beginRun_i, Nat.sub_zero] at hv
  have hrun : Host.Core.run core s.cfg.outMax (beginRun { s with req := [] } (toByte (s.win 0 8))) = .next v :=
    run_of_iterations hview rfl hv hfault (hi.trans (Nat.zero_add _).symm)
  exact ⟨o.out, v, by rw [refDecompress_of_wellFormed hwf, horacle]; rfl, run_succ_next.mpr ⟨_, hstart, hrun⟩, hphase,
    hfault, heof, holen, hbytes, hzero⟩

/-! The bits of C at and beyond CLEN (R200). -/

section
variable (s : State) (c : List Int)

theorem nextByte_withLoaded (i : Instr) : { s with loaded := c }.nextByte i = s.nextByte i := by
  cases i <;> rfl

theorem nextKey_withLoaded (i : Instr) : { s with loaded := c }.nextKey i = s.nextKey i := by
  cases i <;> rfl

theorem takeFault_withLoaded (code : FaultCode) (info : FaultInfo) :
    takeFault { s with loaded := c } code info = { takeFault s code info with loaded := c } := by
  cases hf : s.fault <;> simp [takeFault, hf, enterFault]

/-- What the iteration at a decoded record does, it does without C. -/
theorem afterByteOf_withLoaded (i : Instr) (n : Nat) :
    { s with loaded := c }.afterByteOf i n = { s.afterByteOf i n with loaded := c } := by
  cases hb : s.nextByte i with
  | some b =>
    rw [State.afterByteOf_of_some hb, State.afterByteOf_of_some ((nextByte_withLoaded s c i).trans hb)]
    rfl
  | none =>
    rw [State.afterByteOf_of_none hb, State.afterByteOf_of_none ((nextByte_withLoaded s c i).trans hb),
      nextKey_withLoaded, takeFault_withLoaded]

end

/-- The bits of C are those of any state with the same parameters and entries loaded. -/
theorem bits_withLoaded {s t : State} (h : SameInputs s t) (c : List Int) :
    { t with loaded := c }.bits = { s with loaded := c }.bits := by
  obtain ⟨hcfg, -⟩ := h
  simp only [State.bits, State.nbits, hcfg]

/-- On course the record at the cursor ends at or before CLEN, so another array with the same bits there holds the same
record. -/
theorem OnCourse.decode_withLoaded {s t : State} {c : List Int} (hsame : SameStream s c) (h : OnCourse s t)
    (he : t.eof = false) :
    ∃ i n, decode t.tab (recordMode t.byp) t.bits t.cur = .ok (i, n) ∧
      decode t.tab (recordMode t.byp) { t with loaded := c }.bits t.cur = .ok (i, n) := by
  obtain ⟨fuel, o, hrec⟩ := h.live he
  obtain ⟨i, n, o', fuel', hdec, -, ho, hparse⟩ := hrec.next h.inputs (h.run.cur_ne he)
  obtain ⟨-, htab, -⟩ := h.inputs
  have hend : t.cur + n ≤ s.clen := by
    obtain ⟨hcur, -⟩ := applyRecord_some ho
    rw [← hrec.cur, ← hcur]
    exact cur_le_of_parses hparse
  refine ⟨i, n, hdec, ?_⟩
  rw [bits_withLoaded h.inputs, htab]
  rw [htab, sameInputs_bits h.inputs] at hdec
  exact hsame.decode_ok hend hdec

/-- On course a step does not read the padding. -/
theorem OnCourse.step_withLoaded {s t u : State} {c : List Int} (hsame : SameStream s c) (h : OnCourse s t)
    (h' : OnCourse { s with loaded := c } { t with loaded := c }) (hu : step t = .next u) :
    step { t with loaded := c } = .next { u with loaded := c } := by
  obtain ⟨hp, -⟩ := h.iterate_of_step hu
  rw [step_eq_iter h.inv.level h.noRequest h.noFault hp] at hu
  rw [step_eq_iter (s := { t with loaded := c }) h.inv.level h.noRequest h.noFault hp]
  rcases Bool.eq_false_or_eq_true t.eof with he | he
  · rw [deadIterationWritesZero t h.inv hp h.noFault he] at hu
    cases hu
    exact deadIterationWritesZero _ h'.inv hp h.noFault he
  · obtain ⟨i, n, hdec, hdec'⟩ := h.decode_withLoaded hsame he
    rw [exec_iter_of_decode h.inv hp h.noFault he hdec] at hu
    cases hu
    exact (exec_iter_of_decode h'.inv hp h.noFault he hdec').trans (congrArg _ (afterByteOf_withLoaded t c i n))

/-- On course a run does not read the padding. -/
theorem OnCourse.run_withLoaded {s t u : State} {c : List Int} (hsame : SameStream s c) (h : OnCourse s t)
    (h' : OnCourse { s with loaded := c } { t with loaded := c }) {n : Nat}
    (hrun : Host.Core.run core n t = .next u) :
    Host.Core.run core n { t with loaded := c } = .next { u with loaded := c } := by
  induction n generalizing t with
  | zero => cases hrun; rfl
  | succ n ih =>
    obtain ⟨v, hv, hrun⟩ := run_succ_next.mp hrun
    have hv' := h.step_withLoaded hsame h' hv
    exact run_succ_next.mpr ⟨_, hv', ih (h.of_step hv) (h'.of_step hv') hrun⟩

/-- The pair with the other array is well-formed too. -/
theorem SameStream.wellFormed {s : State} {c : List Int} (h : SameStream s c) (hwf : wellFormedStream s = true) :
    wellFormedStream { s with loaded := c } = true := by
  obtain ⟨hv, hclen, hfits, hparse⟩ := wellFormedStream_iff.mp hwf
  obtain ⟨hparse', -⟩ := h.parses_and_oracleRun hparse
  exact wellFormedStream_iff.mpr ⟨⟨(configCheck_withLoaded s c).trans hv.1, h.boolean⟩, hclen, hfits,
    h.oracleInit_eq hclen ▸ hparse'⟩

/-- Settles O60: the start step reads the header only, and both runs stay on course. -/
theorem paddingDoesNotMatter : Obligations.PaddingDoesNotMatter := by
  intro s c n t hm hview hreq hidle hf hv hwf hb hbits hrun
  cases n with
  | zero => cases hrun; rfl
  | succ n =>
    obtain ⟨u, hu, hrun⟩ := run_succ_next.mp hrun
    obtain ⟨-, hclen, hfits, -⟩ := wellFormedStream_iff.mp hwf
    have hsame : SameStream s c := ⟨hv, hfits, hb, hbits⟩
    have hwf' := hsame.wellFormed hwf
    obtain ⟨hv', -⟩ := wellFormedStream_iff.mp hwf'
    have hm' : { s with loaded := c }.MemInv :=
      memInv_frame hm rfl (.inl rfl) rfl (.inl rfl) rfl rfl rfl rfl rfl rfl rfl
    have hheader : { s with loaded := c }.win 0 8 = s.win 0 8 := win_congr fun j hj => hbits (0 + j) (by omega)
    have hu' : step { s with loaded := c } = .next { u with loaded := c } := by
      rw [step_start_eq (s := { s with loaded := c }) hview hreq hidle hf hv', hheader, step_start hreq hv hu]
      rfl
    exact run_succ_next.mpr ⟨_, hu', (onCourse_of_start hm hview hreq hidle hf hv hwf hu).run_withLoaded hsame
      (onCourse_of_start hm' hview hreq hidle hf hv' hwf' hu') hrun⟩

/-! The fields, the wires and the register writes of an iteration, in every state. -/

/-- Settles O30: the fields are the entries that the three lookups found, selected by BYP, and each wire is its rule. -/
theorem iterationWiresFollowTheRules : Obligations.IterationWiresFollowTheRules := by
  intro s f hf
  refine ⟨?_, wires_isW s f, wires_isD s f, rfl, wires_isM_cases f, wires_n s f, wires_copying s f, wires_last s f,
    wires_key s f, wires_delta s f⟩
  unfold fieldsAt at hf
  split at hf
  · cases hf
  · rename_i sh lsh hch
    have hls : 0 ≤ bypassSelect s.byp 8 lsh := by cases s.byp <;> simp
    have hp1 : (opAdd s.cur (bypassSelect s.byp 8 lsh)).toNat = s.cur + (bypassSelect s.byp 8 lsh).toNat := by
      rw [opAdd_eq]; omega
    simp only [hp1] at hf
    split at hf
    · cases hf
    · rename_i lv ll hln
      have hp2 : (opAdd (opAdd s.cur (bypassSelect s.byp 8 lsh)) ll).toNat =
          s.cur + (bypassSelect s.byp 8 lsh).toNat + ll := by
        rw [opAdd_eq, opAdd_eq]; omega
      rw [hp2] at hf
      split at hf
      · cases hf
      · rename_i av la had
        cases hf
        refine ⟨sh, lsh, lv, ll, av, la, hch, ?_, ?_, hln, rfl, rfl, had, rfl, rfl⟩
        · cases s.byp <;> simp [State.win]
        · cases s.byp <;> simp

/-- R190 by cases: a copy writes the byte looked up, and any other iteration the symbol, or 0 after the end. -/
theorem toByte_byteMux (s : State) (f : Fields) (v : Byte) :
    toByte (byteMux (wires s f).copying (ofByte v) (wires s f).live f.s) =
      if (wires s f).copying = 0 then toByte ((if s.eof then 0 else 1) * f.s) else v := by
  rw [wires_live]
  rcases wires_copying_cases s f with hc | hc <;> simp [byteMux, hc]

/-- R193 and R194: the latch is set where the cursor then stands on CLEN, and stays. -/
theorem toFlag_eofNext (s : State) (f : Fields) :
    toFlag (eofNext s.eof (wires s f).hit) = (s.eof || decide ((wires s f).curNext = s.clen)) := by
  cases s.eof with
  | true => simp
  | false =>
    rw [eofNext_false, wires_hit, Bool.false_or]
    split <;> simp [*]

/-- A copy in progress has a byte to go (R186, R187). -/
theorem wires_n_sub_copying_nonneg {s : State} {f : Fields} (hf : fieldsAt s = .ok f) :
    0 ≤ (wires s f).n - (wires s f).copying := by
  obtain ⟨⟨sh, lsh, lv, ll, av, la, -, -, -, -, hlv, -⟩, -⟩ := iterationWiresFollowTheRules s f hf
  have hn : 0 ≤ (wires s f).n := by
    have := mul_nonneg (wires_isM_nonneg s f) (show 0 ≤ f.lv + 1 by omega)
    rw [wires_n]
    split <;> omega
  rw [wires_copying]
  split <;> omega

/-- Settles O31: without a fault the iteration committed its byte and its registers, which are the wires'. -/
theorem iterationUpdatesTheRegisters : Obligations.IterationUpdatesTheRegisters := by
  intro s t _ h ht
  obtain ⟨hen, hit⟩ := exec_iter_next.mp h
  obtain ⟨hp, -⟩ := enabled_iff_run hen
  rcases iterate_next.mp hit with ⟨key, -, rfl⟩ | ⟨f, hf, ⟨-, rfl⟩ | ⟨v, hv, -, -, rfl⟩⟩
  · simp at ht
  · simp at ht
  · have hcur : 0 ≤ (wires s f).curNext := by
      have := wires_delta_nonneg hf
      rw [wires_curNext, wires_live]
      split <;> omega
    have hcur' : (((wires s f).curNext.toNat : Nat) : Int) = (wires s f).curNext := Int.toNat_of_nonneg hcur
    refine ⟨f, v, hf, hv, ?_, fun k hk => Memory.read_write_ne _ _ hk, ?_, ?_, ?_, ?_, rfl, ?_, rfl, rfl,
      ⟨rfl, rfl, rfl, rfl, rfl, rfl⟩, ⟨rfl, rfl, rfl⟩, ⟨rfl, rfl, rfl, rfl⟩⟩
    · rw [commitRegs_out, writeOut_out, Memory.read_write_same, toByte_byteMux]
    · rw [commitRegs_cur, hcur', wires_curNext, wires_live]
    · have hend : (wires s f).curNext = s.clen ↔ (wires s f).curNext.toNat = s.clen := by omega
      rw [commitRegs_eof, toFlag_eofNext, decide_eq_decide.mpr hend]
      rfl
    · rw [commitRegs_olen, olenNext, wires_live, opAdd_eq]
      split <;> omega
    · rw [commitRegs_rem, remNext, opSub_eq, Int.toNat_of_nonneg (wires_n_sub_copying_nonneg hf)]
    · simp [hp]

/-- Settles O39: at one of the delimiters the quotient is 0 or 1; at another symbol the product is not 0. -/
theorem indicatorPolynomialsAreComparisons : Obligations.IndicatorPolynomialsAreComparisons := by
  intro s a b hab
  have hba : b - a ≠ 0 := sub_ne_zero.mpr hab.symm
  simp only [polyIsDict, polyIsWindow, polyIsDelim, opSub_eq, opMul_eq, opEq_eq]
  by_cases ha : s = a
  · subst ha
    simp [hab]
  by_cases hb : s = b
  · subst hb
    simp [hba, ha]
  · have hprod : (s - a) * (s - b) ≠ 0 := mul_ne_zero (sub_ne_zero.mpr ha) (sub_ne_zero.mpr hb)
    simp [ha, hb, opIsZero_of_ne hprod]

/-! The operations of an iteration, counted (R201). -/

theorem countOp_append (op : Instr) (xs ys : List Instr) : countOp op (xs ++ ys) = countOp op xs + countOp op ys := by
  rw [countOp, List.map_append, List.count_append, countOp, countOp]

/-- A bit of a window is one lookup and one MAC, values left out (R137). -/
def bitOps : List Instr := [.lookup .bits 0, .mac 0 0 0]

theorem countOp_winOps (op : Instr) (c : List Int) (p w : Nat) (acc : Int) :
    countOp op (winOps c p w acc) = w * countOp op bitOps := by
  rw [countOp, map_eraseValues_winOps, List.count_flatten, List.map_replicate, List.sum_replicate]
  rfl

/-- The decode's operations outside its four windows, values left out (R181 to R183). -/
def fixedDecodeOps : List Instr :=
  subOps 0 0 ++ [.lookup .lutCh 0, .select 0 0 0, .select 0 0 0, .add 0 0, .lookup .lutLn 0, .add 0 0, .lookup .lutAd 0,
    .add 0 0]

theorem countOp_decodeOps (op : Instr) (s : State) (sh lsh : Nat) (f : Fields) :
    countOp op (decodeOps s sh lsh f) =
      (s.tab.wc + 8 + s.tab.wl + s.tab.wa) * countOp op bitOps + countOp op fixedDecodeOps := by
  simp only [decodeOps, fixedDecodeOps, countOp_append, countOp_winOps]
  simp only [countOp, subOps, List.map, eraseValues, List.count_cons, List.count_nil]
  ring

/-- The operations of an iteration outside its four windows. The control and write operations are those of any state,
values left out, so they are taken at reset. -/
def fixedOps : List Instr :=
  fixedDecodeOps ++ controlOps .reset ⟨0, 0, 0, 0, 0, 0⟩ ++ writeOps .reset ⟨0, 0, 0, 0, 0, 0⟩ 0

/-- An operation stands in an iteration as often as in its windows' bits, and outside them as often as in `fixedOps`. -/
theorem countOp_of_iterTrace {s : State} {ops : List Instr} (h : iterTrace s = some ops) (op : Instr) :
    countOp op ops = (s.tab.wc + 8 + s.tab.wl + s.tab.wa) * countOp op bitOps + countOp op fixedOps := by
  obtain ⟨sh, lsh, f, v, -, -, -, rfl⟩ := iterTrace_eq_some.mp h
  have hcontrol : countOp op (controlOps s f) = countOp op (controlOps .reset ⟨0, 0, 0, 0, 0, 0⟩) :=
    congrArg (List.count op) (map_eraseValues_controlOps ..)
  have hwrite : countOp op (writeOps s f v) = countOp op (writeOps .reset ⟨0, 0, 0, 0, 0, 0⟩ 0) :=
    congrArg (List.count op) (map_eraseValues_writeOps ..)
  simp only [countOp_append, countOp_decodeOps, fixedOps, hcontrol, hwrite, Nat.add_assoc]

/-- Settles O40: the windows hold a lookup in BITS for each bit, and the other operations stand outside them, in a fixed
list. -/
theorem iterationOperationCounts : Obligations.IterationOperationCounts := by
  intro s ops h
  have hfixed {op : Instr} {k : Nat} (hbit : countOp op bitOps = 0) (hk : countOp op fixedOps = k) :
      countOp op ops = k := by
    rw [countOp_of_iterTrace h, hbit, hk, Nat.mul_zero, Nat.zero_add]
  have hbits : countOp (.lookup .bits 0) bitOps = 1 ∧ countOp (.lookup .bits 0) fixedOps = 0 := by decide
  refine ⟨by rw [countOp_of_iterTrace h, hbits.1, hbits.2, Nat.mul_one, Nat.add_zero], ?_⟩
  exact ⟨hfixed (by decide) (by decide), hfixed (by decide) (by decide), hfixed (by decide) (by decide),
    hfixed (by decide) (by decide), hfixed (by decide) (by decide), hfixed (by decide) (by decide),
    hfixed (by decide) (by decide), hfixed (by decide) (by decide), hfixed (by decide) (by decide)⟩

/-! The result of a run (R198, R243). -/

/-- Reading a range of entries that are all entries of a list gives the list's beginning. -/
theorem mapM_read_eq {m : Memory} {out : List Byte} (h : ∀ k, m.read k = out[k]?) {n : Nat} (hn : n ≤ out.length) :
    (List.range n).mapM (fun k => m.read k) = some (out.take n) := by
  induction n with
  | zero => simp
  | succ n ih =>
    rw [List.range_succ, List.mapM_append, ih (by omega)]
    have hget : out[n]? = some out[n] := List.getElem?_eq_getElem (by omega)
    simp [h, hget]

theorem completeRun_iff {s : State} :
    s.completeRun = true ↔ s.phase = .done ∧ s.fault = false ∧ s.eof = true := by
  simp [State.completeRun, State.final, and_assoc]

theorem number_eq_zero_iff {c : FaultCode} : c.number = 0 ↔ c = .noFault := by
  cases c <;> simp [FaultCode.number]

/-- Settles O55: the entries below OLEN are written, since OLEN <= I; the status registers are the machine's. -/
theorem resultIsReadAtACompleteEnd : Obligations.ResultIsReadAtACompleteEnd := by
  intro s hm
  refine ⟨fun hp hf he => ?_, fun h => if_neg ?_, fun k b hk hread => outRead_natCast hk hread, fun k hk => ?_, rfl,
    rfl, rfl, number_eq_zero_iff.trans hm.faultCode.symm, rfl, decide_eq_true_iff, rfl⟩
  · obtain ⟨out, hi, hread⟩ := exists_outIs hm
    have hlen : s.olen ≤ out.length := hi ▸ hm.olenBound
    refine ⟨out.take s.olen, (if_pos (completeRun_iff.mpr ⟨hp, hf, he⟩)).trans (mapM_read_eq hread hlen),
      List.length_take_of_le hlen, fun k hk => ?_⟩
    rw [hread, List.getElem?_take_of_lt hk]
  · rw [completeRun_iff]
    rintro ⟨hp, hf, he⟩
    simp [hp, hf, he] at h
  · have hunwritten : s.out.read k = none := by simpa [Nat.not_lt.mpr hk] using hm.written k
    exact outRead_none (.inr (.inr hunwritten))

/-! Where the rows stop (R180, R226, R230, R242). -/

section
variable {s : State}

theorem enabled_eq_false (h : s.phase ≠ .run ∨ s.fault = true) : s.enabled = false := by
  rcases h with h | h <;> simp [State.enabled, h]

theorem headerReady_eq_false (h : s.phase ≠ .idle ∨ s.fault = true) : s.headerReady = false := by
  rcases h with h | h <;> simp [State.headerReady, h]

theorem recordReady_eq_false {byp : Bool}
    (h : s.phase ≠ .run ∨ s.fault = true ∨ s.eof = true ∨ s.rem ≠ 0 ∨ s.cur = s.clen ∨ s.byp ≠ byp) :
    s.recordReady byp = false := by
  rw [Bool.eq_false_iff, Ne, recordReady_iff]
  rintro ⟨hp, hf, he, hrem, hcur, hbyp⟩
  simp [hp, hf, he, hrem, hcur, hbyp] at h

theorem exec_record_not_ready (h : s.recordReady false = false) (b : Byte) (len a : Nat) :
    exec (.lit b) s = .fault .recordNotEnabled ∧ exec (.wmatch len a) s = .fault .recordNotEnabled ∧
      exec (.dmatch len a) s = .fault .recordNotEnabled := by
  simp [exec, execLit, execWmatch, execDmatch, h]

/-- A coded record that no stream can hold is refused (R84, R91, R93). -/
theorem exec_record_not_wf {i : Instr} (h : s.recordReady false = true) (hm : i.mode? = some .coded)
    (hwf : i.wf s.tab = false) : exec i s = .refused .notEncodable := by
  cases i with
  | lit b => simp [exec, execLit, h, hwf]
  | wmatch len dist => simp [exec, execWmatch, h, hwf]
  | dmatch len addr => simp [exec, execDmatch, h, hwf]
  | _ => cases hm

end

/-- Settles O45: where a row is said to stop its guard fails, and where it is refused its well-formedness. -/
theorem stepRowsNeedTheirPhase : Obligations.StepRowsNeedTheirPhase := by
  intro s i k b len a
  refine ⟨fun h => ?_, fun h => ?_, fun h => ⟨?_, ?_⟩, fun hp hf => ?_, fun h => ?_, fun h => ?_,
    fun hp hf he hrem hcur hbyp hm hwf => ?_, fun h => ?_, fun h => ?_⟩
  · simp [exec, execStart, headerReady_eq_false h]
  · simp [exec, execIter, enabled_eq_false h]
  · simp [exec, execHdrNocomp, headerReady_eq_false h]
  · simp [exec, execHdrComp, headerReady_eq_false h]
  · simp [exec, execHdrComp, headerReady_of_idle hp hf, Instr.wf]
  · simp [exec, execRaw, recordReady_eq_false (byp := true) (by simpa using h)]
  · exact exec_record_not_ready (recordReady_eq_false (by simpa using h)) b len a
  · exact exec_record_not_wf (recordReady_iff.mpr ⟨hp, hf, he, hrem, hcur, hbyp⟩) hm hwf
  · rw [Bool.eq_false_iff, Ne, wf_lit]
    rintro ⟨hW, hD, hcode⟩
    simp [hW, hD, hcode.ne'] at h
  · simp [exec, execInsert, enabled_eq_false h]

/-! A match row whose first byte is missing (R189). -/

/-- A copy whose first source lookup misses takes LookupMiss at once (R227). -/
theorem copyLoop_first_miss {s : State} {isW isD : Int} {key : State → Nat → Int} {n : Nat} (hp : s.phase = .run)
    (hf : s.fault = false) (h : srcLookup s isW isD (key s (n + 1)) = none) (advance : Nat) :
    copyLoop isW isD key advance (n + 1) s =
      .next { s with fault := true, fcode := .lookupMiss, finfo := .miss s.i (key s (n + 1)) } :=
  copyLoop_succ_next.mpr (.inr (.inl ⟨by simp [State.enabled, hp, hf], h, (takeFault_of_noFault hf _ _).symm⟩))

/-- Settles O24: a well-formed match has a first byte, whose source lookup misses. -/
theorem matchOfNoValueTakesLookupMiss : Obligations.MatchOfNoValueTakesLookupMiss := by
  intro s len n hp hf he hrem hcur hbyp
  have hready : s.recordReady false = true := recordReady_iff.mpr ⟨hp, hf, he, hrem, hcur, hbyp⟩
  refine ⟨fun hwf hn => ?_, fun hwf hn => ?_⟩
  · obtain ⟨lv, av, rfl, -, -⟩ := wf_wmatch.mp hwf
    have hkey := windowKey_of_dist s.dictLen s.i n
    rw [exec_wmatch_of_ready hready hwf, copyLoop_first_miss hp hf (by rw [hkey]; exact srcLookup_window_miss hn), hkey]
  · obtain ⟨lv, rfl, -⟩ := wf_dmatch.mp hwf
    have hkey : dictKey n (lv + 1 : Nat) (lv + 1 : Nat) = (n : Int) := dictKey_of_togo (j := 0) (Nat.zero_le _)
    rw [exec_dmatch_of_ready hready hwf, copyLoop_first_miss hp hf (by rw [hkey]; exact srcLookup_dict_miss hn), hkey]

end Sys2Proof.Machine

/-! PROOFS of spec/60_exceptions.md: the start step's checks and the faults it takes (O27, O28). -/

namespace Sys2Proof.Machine

theorem dictHolds_iff {s : State} {b : Byte} : dictHolds s b = true ↔ ∃ k, k < s.dictLen ∧ s.dictByte k = b := by
  simp [dictHolds]

theorem lengthsFit_iff {wmax : Nat} {t : Lengths} : lengthsFit wmax t = true ↔ maxLen t ≤ min wmax 255 := by
  simp [lengthsFit]

/-- The start step finds no fault in a configuration exactly if it meets every constraint of R6 to R10 (R222). -/
theorem configCheck_eq_none_iff {s : State} :
    configCheck s = none ↔
      TablesOk s.tab ∧ maxLen s.tab.chLen ≤ min s.cfg.wmax 255 ∧ maxLen s.tab.lnLen ≤ min s.cfg.wmax 255 ∧
        maxLen s.tab.adLen ≤ min s.cfg.wmax 255 ∧ 2 ≤ s.dictLen ∧ 8 ≤ s.cfg.nbits ∧ s.cfg.nbits % 8 = 0 ∧
        s.tab.alog2 ≤ 255 ∧ s.cfg.awWin ≤ s.tab.alog2 ∧ s.cfg.awDict ≤ s.tab.alog2 ∧ s.cfg.maxInput ≤ s.cfg.outMax ∧
        (∃ k, k < s.dictLen ∧ s.dictByte k = s.tab.delimW) ∧ ∃ k, k < s.dictLen ∧ s.dictByte k = s.tab.delimD := by
  simp only [configCheck, ite_some_none, State.nbits, Bool.not_eq_true', Bool.not_eq_false, Bool.and_eq_true, not_or,
    not_not, not_lt, lengthsFit_iff, dictHolds_iff, and_true]
  tauto

/-- START takes ConfigInvalid with the first check that fails, and writes the fault registers only (R222, R227). -/
theorem exec_start_of_configCheck_some {s : State} {c : ConfigCheck} (hp : s.phase = .idle) (hf : s.fault = false)
    (hc : configCheck s = some c) :
    exec .start s = .next { s with fault := true, fcode := .configInvalid, finfo := .config c } :=
  execStart_next.mpr ⟨headerReady_of_idle hp hf, .inl ⟨c, hc, (takeFault_of_noFault hf _ _).symm⟩⟩

/-- Settles O27: a configuration that passes every check meets every constraint, so a broken one leaves a check that
fails; and one that meets them all passes. -/
theorem invalidConfigurationTakesConfigInvalid : Obligations.InvalidConfigurationTakesConfigInvalid := by
  refine ⟨fun s hp hf hbroken => ?_, fun s htab hch hln had hlen hn8 hn haddr hwin hdict hout hW hD =>
    configCheck_eq_none_iff.mpr ⟨htab, hch, hln, had, hlen, hn8, hn, haddr, hwin, hdict, hout, hW, hD⟩⟩
  cases hc : configCheck s with
  | some c => exact ⟨c, exec_start_of_configCheck_some hp hf hc⟩
  | none =>
    obtain ⟨⟨hchars, hlengths, haddresses, hwc, hwl, hwa, hne⟩, hch, hln, had, hlen, hn8, hn, haddr, hwin, hdict, hout,
      ⟨kW, hkW, hW⟩, kD, hkD, hD⟩ := configCheck_eq_none_iff.mp hc
    rcases hbroken with h | h | h | h | h | h | h | h | h | h | h | h | h | h | h | h | h | h | h
    exacts [absurd hchars h, absurd hlengths h, absurd haddresses h, by omega, by omega, by omega, absurd h hne, by omega,
      by omega, absurd hn h, by omega, absurd hwc h, absurd hwl h, absurd hwa h, by omega, by omega, by omega,
      absurd hW (h kW hkW), absurd hD (h kD hkD)]

/-- The first entry that is not boolean, lowest index first (R226). -/
theorem firstNonBoolean_of_first {bits : List Int} {k : Nat} {v : Int} (hk : bits[k]? = some v) (h0 : v ≠ 0) (h1 : v ≠ 1)
    (hfirst : ∀ j a, j < k → bits[j]? = some a → a = 0 ∨ a = 1) : firstNonBoolean bits = some v := by
  obtain ⟨hlt, rfl⟩ := List.getElem?_eq_some_iff.mp hk
  refine List.find?_eq_some_iff_getElem.mpr ⟨by simp [Bool.eq_false_iff, h0, h1], k, hlt, rfl, fun j hj => ?_⟩
  simpa using hfirst j _ hj (List.getElem?_eq_getElem (hj.trans hlt))

/-- Settles O28: START scans C from index 0, so the entry it fails on is the first that is not boolean. -/
theorem firstNonBooleanEntryTakesAssertFail : Obligations.FirstNonBooleanEntryTakesAssertFail := by
  intro s k v hp hf hc hk h0 h1 hfirst
  exact execStart_next.mpr ⟨headerReady_of_idle hp hf, .inr ⟨hc, .inl
    ⟨v, firstNonBoolean_of_first hk h0 h1 hfirst, (takeFault_of_noFault hf _ _).symm⟩⟩⟩

end Sys2Proof.Machine

/-! PROOFS of spec/70_reset_and_hazards.md: the start step's register writes, the host's boot actions, reset, and the order
of host writes (O26, O29, O46, O48, O56). -/

namespace Sys2Proof.Machine

/-! The start step on a valid configuration (R242). -/

/-- The start step writes what the header writes, OUT apart. -/
theorem beginRun_eq (s : State) (level : Byte) :
    beginRun s level =
      { s with
        level := level, byp := decide (level = 0), cur := 8, i := 0, olen := 0, rem := 0
        eof := decide (s.clen = 8), phase := if 0 < s.cfg.outMax then .run else .done } := by
  have hout : beginRun s level = { runHeader s level with out := s.out } := rfl
  rw [hout, runHeader_eq]

theorem exec_start_of_valid {s : State} (hp : s.phase = .idle) (hf : s.fault = false) (hv : s.Valid) :
    exec .start s = .next (beginRun s (toByte (win s.bits 0 8))) :=
  execStart_next.mpr ⟨headerReady_of_idle hp hf, .inr ⟨hv.1, .inr ⟨hv.2, rfl⟩⟩⟩

/-- Settles O26: the checks pass, and the header byte is the window it is taken from. -/
theorem startBeginsTheRun : Obligations.StartBeginsTheRun := by
  intro s hp hf hv
  obtain ⟨h0, h1⟩ := win_range hv.2 0 8
  have hbyp : decide (toByte (win s.bits 0 8) = 0) = decide (win s.bits 0 8 = 0) := toByte_beq_zero h0 h1
  exact ⟨toByte (win s.bits 0 8), ofByte_toByte h0 h1, by rw [exec_start_of_valid hp hf hv, beginRun_eq, hbyp]⟩

/-- Every 8-bit window of a boolean array reads as the byte of its value (R51). -/
theorem byteAt_of_boolean {c : List Int} (hb : BooleanArray c) (p : Nat) : byteAt c p = some (toByte (win c p 8)) :=
  if_pos (win_range hb p 8)

/-- The header row that a header byte decodes to runs the header with that byte (R161). -/
theorem exec_header {s : State} (hp : s.phase = .idle) (hf : s.fault = false) (b : Byte) :
    exec (if b = 0 then .hdrNocomp else .hdrComp b) s = .next (runHeader s b) := by
  obtain ⟨hnocomp, hcomp⟩ := headerBeginsTheRun s b hp hf
  rw [runHeader_eq]
  split
  next hb => rw [hnocomp, hb, decide_eq_true rfl]
  next hb => rw [hcomp hb, decide_eq_false hb]

/-- Settles O29: both write the run's first registers with the byte at bit 0, and the OUT that the header empties is
empty in IDLE. -/
theorem startExecutesTheHeader : Obligations.StartExecutesTheHeader := by
  intro s hm hp hf hv
  have hout : clearOut s = s := clearOut_eq hm (hm.idle hp).1
  exact ⟨_, decode_header (byteAt_of_boolean hv.2 0), by
    rw [exec_start_of_valid hp hf hv, exec_header hp hf, runHeader, hout]⟩

/-! Host actions (R31, R240, R243). -/

/-- The state after a host write has landed; reset and the start request, which write no input, leave it as it is. -/
def State.put (s : State) : HostReq → State
  | .reset | .start => s
  | .configure c => { s with cfg := c }
  | .writeBits c => { s with loaded := c ++ s.loaded.drop c.length }
  | .writeClen n => { s with clen := n }
  | .writeDelimW b => { s with tab := { s.tab with delimW := b } }
  | .writeDelimD b => { s with tab := { s.tab with delimD := b } }
  | .writeDictLen n => { s with dictLen := n }
  | .writeDict bytes => { s with dict := s.dict.load 0 bytes }
  | .writeAlog2 n => { s with tab := { s.tab with alog2 := n } }
  | .writeWc n => { s with tab := { s.tab with wc := n } }
  | .writeWl n => { s with tab := { s.tab with wl := n } }
  | .writeWa n => { s with tab := { s.tab with wa := n } }
  | .writeChars t => { s with tab := { s.tab with chLen := t } }
  | .writeLengths t => { s with tab := { s.tab with lnLen := t } }
  | .writeAddresses t => { s with tab := { s.tab with adLen := t } }

/-- A host action that writes an input is the host write of `State.put`. -/
theorem hostAct_of_writes {r : HostReq} (hr : r.writes ≠ none) (s : State) : hostAct r s = hostWrite s (s.put r) := by
  cases r with
  | reset | start => exact absurd rfl hr
  | _ => rfl

/-- A host write touches inputs only. -/
theorem put_frame (s : State) (r : HostReq) : SameWork s (s.put r) ∧ SameFault s (s.put r) := by
  cases r <;> simp [State.put, SameWork, SameFault]

theorem SameWork.trans {s t u : State} (h : SameWork s t) (h' : SameWork t u) : SameWork s u := by
  simp_all [SameWork]

theorem SameFault.trans {s t u : State} (h : SameFault s t) (h' : SameFault t u) : SameFault s u := by
  simp_all [SameFault]

theorem put_withReq (s : State) (r : HostReq) (rest : List HostReq) :
    { s with req := rest }.put r = { s.put r with req := rest } := by
  cases r <;> rfl

/-- Writes of different inputs commute: they update different fields of the state. -/
theorem put_comm (s : State) {r r' : HostReq} (h : r.writes ≠ r'.writes) : (s.put r).put r' = (s.put r').put r := by
  cases r <;> cases r' <;> simp [HostReq.writes] at h <;> rfl

/-- Outside a run a pending host write lands. -/
theorem step_of_write {s : State} {r : HostReq} {rest : List HostReq} (hp : s.phase ≠ .run) (hr : r.writes ≠ none) :
    step { s with req := r :: rest } = .next { s.put r with req := rest } := by
  have hlands : hostAct r { s with req := rest } = .host { s.put r with req := rest } := by
    rw [hostAct_of_writes hr, put_withReq]
    exact if_neg hp
  rw [step, nextStep_of_req rfl, hlands]

/-- A pending reset is taken in every phase. -/
theorem step_of_reset {s : State} {rest : List HostReq} (hreq : s.req = .reset :: rest) :
    step s = .next (hostReset { s with req := rest }) := by
  rw [step, nextStep_of_req hreq, hostAct]

/-- Outside a run pending host writes land one after another, a step each. -/
theorem run_of_writes {s : State} {ws : List HostReq} (rest : List HostReq) (hp : s.phase ≠ .run)
    (hws : ∀ r ∈ ws, r.writes ≠ none) :
    Host.Core.run core ws.length { s with req := ws ++ rest } = .next { ws.foldl State.put s with req := rest } := by
  induction ws generalizing s with
  | nil => rfl
  | cons r ws ih =>
    obtain ⟨hr, hws⟩ := List.forall_mem_cons.mp hws
    have hp' : (s.put r).phase ≠ .run := by
      obtain ⟨⟨-, -, -, -, -, -, -, hphase, -⟩, -⟩ := put_frame s r
      rwa [hphase]
    exact run_succ_next.mpr ⟨_, step_of_write hp hr, ih hp' hws⟩

/-- Settles O46: reset is one update of the state, taken in every phase. -/
theorem resetRestoresTheWorkingRegisters : Obligations.ResetRestoresTheWorkingRegisters := by
  intro s rest hreq
  exact ⟨_, step_of_reset hreq, rfl, rfl, rfl, rfl, rfl, rfl, rfl, rfl, rfl, rfl, rfl, by simp [SameInputs]⟩

/-- Settles O48: in either order both writes land, and they commute. -/
theorem hostWritesComeInAnyOrder : Obligations.HostWritesComeInAnyOrder := by
  intro s r r' hp hr hr' hne
  have hrun : ∀ {a b : HostReq}, a.writes ≠ none → b.writes ≠ none →
      Host.Core.run core 2 { s with req := [a, b] } = .next { (s.put a).put b with req := [] } := fun ha hb =>
    run_of_writes [] hp (List.forall_mem_cons.mpr ⟨ha, List.forall_mem_singleton.mpr hb⟩)
  obtain ⟨hwork, hfault⟩ := put_frame s r
  obtain ⟨hwork', hfault'⟩ := put_frame (s.put r) r'
  refine ⟨_, hrun hr hr', ?_, rfl, SameWork.trans hwork hwork', SameFault.trans hfault hfault'⟩
  rw [hrun hr' hr, put_comm s hne]

/-! The host's boot actions (R243 items 1 to 6). -/

/-- The host writes of R243 items 1 to 5: the constants, the delimiters, the dictionary, the tables, C and CLEN. -/
def bootWrites (cfg : Config) (tab : Tables) (dict stream : List Byte) (clen : Nat) : List HostReq :=
  [.configure cfg, .writeDelimW tab.delimW, .writeDelimD tab.delimD, .writeDict dict, .writeDictLen dict.length,
    .writeAlog2 tab.alog2, .writeChars tab.chLen, .writeLengths tab.lnLen, .writeAddresses tab.adLen,
    .writeWc tab.wc, .writeWl tab.wl, .writeWa tab.wa, .writeBits (unpack stream), .writeClen clen]

/-- The reset of R243 item 6, where one is needed. -/
def bootReset (s : State) : List HostReq := if s.needsReset then [.reset] else []

/-- A state with everything loaded that a run reads (R243 items 1 to 5): C from entry 0 on with the bits of the stream,
DICT with the dictionary, and what stood beyond them left there. -/
def State.booted (s : State) (cfg : Config) (tab : Tables) (dict stream : List Byte) (clen : Nat) : State :=
  { s with
    cfg := cfg, tab := tab, dictLen := dict.length, dict := s.dict.load 0 dict
    loaded := unpack stream ++ s.loaded.drop (unpack stream).length, clen := clen }

theorem bootRequests_eq (s : State) (cfg : Config) (delimW delimD : Byte) (raw : List Byte) {payload : List Byte}
    (stream : List Byte) (clen : Nat) {alog2 : Nat} {ch ln ad : Lengths}
    (hparse : parseTables payload = some (alog2, ch, ln, ad)) :
    bootRequests s cfg delimW delimD raw payload stream clen =
      some (bootWrites cfg
          { delimW := delimW, delimD := delimD, alog2 := alog2, wc := maxLen ch, wl := maxLen ln, wa := maxLen ad
            chLen := ch, lnLen := ln, adLen := ad } (augment cfg.augOrder delimW delimD raw) stream clen ++
        (bootReset s ++ [.start])) := by
  simp only [bootRequests, hparse, bootWrites, bootReset, List.append_assoc]

theorem writes_of_mem_bootWrites (cfg : Config) (tab : Tables) (dict stream : List Byte) (clen : Nat) :
    ∀ r ∈ bootWrites cfg tab dict stream clen, r.writes ≠ none := by
  simp [bootWrites, HostReq.writes]

theorem foldl_put_bootWrites (s : State) (cfg : Config) (tab : Tables) (dict stream : List Byte) (clen : Nat) :
    (bootWrites cfg tab dict stream clen).foldl State.put s = s.booted cfg tab dict stream clen := by
  cases tab
  rfl

/-- Steps of a run, then the rest of it. -/
theorem run_add_of_next {m : Nat} {s u : State} (n : Nat) (h : Host.Core.run core m s = .next u) :
    Host.Core.run core (m + n) s = Host.Core.run core n u := by
  induction m generalizing s with
  | zero => cases h; rw [Nat.zero_add]
  | succ m ih =>
    obtain ⟨v, hv, h⟩ := run_succ_next.mp h
    rw [Nat.succ_add, ← ih h]
    simp [Host.Core.run, core, hv]

theorem needsReset_eq_false {s : State} : s.needsReset = false ↔ s.phase = .idle ∧ s.fault = false := by
  simp [State.needsReset]

/-- The reset of R243 item 6 leaves a machine in IDLE without a fault, its inputs as they were. -/
theorem run_bootReset {s : State} (rest : List HostReq) :
    ∃ t : State, Host.Core.run core (bootReset s).length { s with req := bootReset s ++ rest } = .next t ∧
      t.req = rest ∧ t.phase = .idle ∧ t.fault = false ∧ SameInputs s t := by
  cases h : s.needsReset with
  | true =>
    rw [bootReset, if_pos h]
    exact ⟨_, run_succ_next.mpr ⟨_, step_of_reset rfl, rfl⟩, rfl, rfl, rfl, by simp [SameInputs]⟩
  | false =>
    obtain ⟨hp, hf⟩ := needsReset_eq_false.mp h
    rw [bootReset, if_neg (by simp [h])]
    exact ⟨_, rfl, rfl, hp, hf, by simp [SameInputs]⟩

/-- The boot actions up to the start request: what is to be loaded is loaded, and the machine stands in IDLE without a
fault. -/
theorem run_boot {s : State} (cfg : Config) (tab : Tables) (dict stream : List Byte) (clen : Nat) (hp : s.phase ≠ .run)
    (hreq : s.req = bootWrites cfg tab dict stream clen ++ (bootReset s ++ [.start])) :
    ∃ t : State, Host.Core.run core (s.req.length - 1) s = .next t ∧ t.req = [.start] ∧ t.phase = .idle ∧ t.fault = false ∧
      SameInputs (s.booted cfg tab dict stream clen) t := by
  have hwrites := run_of_writes (bootReset s ++ [.start]) hp (writes_of_mem_bootWrites cfg tab dict stream clen)
  rw [← hreq, foldl_put_bootWrites] at hwrites
  obtain ⟨t, hreset, ht⟩ := run_bootReset (s := s.booted cfg tab dict stream clen) [.start]
  refine ⟨t, ?_, ht⟩
  have hlen : s.req.length - 1 = (bootWrites cfg tab dict stream clen).length + (bootReset s).length := by
    simp only [hreq, List.length_append, List.length_singleton]
    omega
  rw [hlen, run_add_of_next _ hwrites]
  exact hreset

@[simp] theorem length_unpack (bytes : List Byte) : (unpack bytes).length = 8 * bytes.length := by
  simp [unpack, byteBits, List.length_flatMap, Nat.mul_comm]

/-- Byte m of an unpacked stream, most significant bit first (R51). -/
theorem win_unpack {stream : List Byte} {m : Nat} {b : Byte} (h : stream[m]? = some b) (post : List Int) :
    win (unpack stream ++ post) (8 * m) 8 = b.toNat := by
  obtain ⟨hm, rfl⟩ := List.getElem?_eq_some_iff.mp h
  have hsplit : unpack stream = unpack (stream.take m) ++ byteBits stream[m] ++ unpack (stream.drop (m + 1)) := by
    calc unpack stream = unpack (stream.take m ++ stream[m] :: stream.drop (m + 1)) := by
          rw [← List.drop_eq_getElem_cons hm, List.take_append_drop]
      _ = _ := by rw [unpack, List.flatMap_append, List.flatMap_cons, ← List.append_assoc]; rfl
  have hlen : (unpack (stream.take m)).length = 8 * m := by
    rw [length_unpack, List.length_take, Nat.min_eq_left hm.le]
  rw [hsplit, ← hlen, List.append_assoc]
  exact win_bitsOf stream[m].isLt _ _

/-- A bit of C that the host has loaded (R32). -/
theorem State.bitAt_bits_of_loaded {s : State} {k : Nat} (hk : k < s.nbits) (hl : k < s.loaded.length) :
    bitAt s.bits k = bitAt s.loaded k := by
  have h := List.getElem?_eq_getElem hl
  rw [bitAt_of_get (s.bits_get_loaded hk h), bitAt_of_get h]

section
variable {s : State} {cfg : Config} {tab : Tables} {dict stream : List Byte} {clen : Nat}

theorem booted_dictByte {k : Nat} (hk : k < dict.length) :
    dict[k]? = some ((s.booted cfg tab dict stream clen).dictByte k) := by
  have hread : (s.booted cfg tab dict stream clen).dict.read k = some dict[k] := by
    rw [State.booted, Memory.read_load, if_pos ⟨Nat.zero_le k, hk⟩, Nat.sub_zero, List.getElem?_eq_getElem hk]
  rw [State.dictByte_of_read hread, List.getElem?_eq_getElem hk]

theorem booted_dict_beyond {k : Nat} (hk : dict.length ≤ k) :
    (s.booted cfg tab dict stream clen).dict.read k = s.dict.read k := by
  rw [State.booted, Memory.read_load, if_neg (by omega)]

theorem booted_loaded_beyond {k : Nat} (hk : 8 * stream.length ≤ k) :
    (s.booted cfg tab dict stream clen).loaded[k]? = s.loaded[k]? := by
  rw [State.booted, List.getElem?_append_right (by rwa [length_unpack]), List.getElem?_drop, length_unpack,
    Nat.add_sub_cancel' hk]

theorem booted_win {m : Nat} {b : Byte} (hfit : 8 * stream.length ≤ cfg.nbits) (hb : stream[m]? = some b) :
    win (s.booted cfg tab dict stream clen).bits (8 * m) 8 = b.toNat := by
  obtain ⟨hm, -⟩ := List.getElem?_eq_some_iff.mp hb
  rw [← win_unpack hb (s.loaded.drop (unpack stream).length)]
  refine win_congr fun j hj => State.bitAt_bits_of_loaded ?_ ?_
  · exact (by omega : 8 * m + j < cfg.nbits)
  · rw [State.booted, List.length_append, length_unpack]
    omega

end

/-- Settles O56: the writes land, the reset follows where one is needed and leaves the inputs as they were, and what is
loaded stands in C and DICT. -/
theorem bootActionsLoadTheConfiguration : Obligations.BootActionsLoadTheConfiguration := by
  intro s cfg dw dd raw payload stream clen alog2 ch ln ad reqs hp hparse hfit hreqs hreq
  rw [bootRequests_eq (hparse := hparse), Option.some_inj] at hreqs
  obtain ⟨t, hrun, ht, hphase, hfault, hin⟩ := run_boot _ _ _ _ _ hp (hreq.trans hreqs.symm)
  have hbits := sameInputs_bits hin
  have hbyte := dictByte_of_sameInputs hin
  obtain ⟨hcfg, htab, hdictLen, hdict, hloaded, hclen⟩ := hin
  refine ⟨t, hreq ▸ hrun, ht, hphase, hfault, hcfg, htab, hdictLen, fun k hk => ?_, fun k hk => ?_, ?_, fun m b hb => ?_,
    fun k hk => ?_, hclen⟩
  · rw [hbyte]
    exact booted_dictByte (hk.trans_eq hdictLen)
  · rw [hdict]
    exact booted_dict_beyond (hdictLen.symm.trans_le hk)
  · exact (State.bits_length t).trans (congrArg Config.nbits hcfg)
  · rw [hbits]
    exact booted_win hfit hb
  · rw [hloaded]
    exact booted_loaded_beyond hk

end Sys2Proof.Machine

/-! PROOFS of spec/95_test_vectors.md section 2.6: the spec's own words decode (O16). -/

namespace Sys2Proof.Machine

/-- A word that is exactly one instruction's encoding decodes, from bit 0, to that instruction (the round trip of O17 with
nothing before or after the word). -/
theorem decode_word_of_encode {t : Tables} (ht : TablesOk t) {i : Instr} {m : DecodeMode} {w : List Int} {n : Nat}
    (hwf : i.wf t = true) (hm : i.mode? = some m) (hw : encode t i = w) (hn : i.bitLen t = n) :
    (decode t m w 0).toOption = some (i, n) := by
  have hdec := decodeOfEncodeIsTheInstruction t i m [] [] ht hwf hm rfl
  rw [List.nil_append, List.append_nil, List.length_nil, hw, hn] at hdec
  exact congrArg Except.toOption hdec

theorem ex1Tables_tablesOk : TablesOk ex1Tables := by decide +kernel

/-- Settles O16: each word of section 2.6 is its instruction's encoding under EX1, so it decodes to that instruction. -/
theorem specWordsDecode : Obligations.SpecWordsDecode := by
  refine ⟨?hdrNocomp, ?hdrComp, ?raw, ?lit, ?wmatch, ?dmatch⟩ <;>
    exact decode_word_of_encode ex1Tables_tablesOk (hwf := by decide) (hm := rfl) (hw := by decide) (hn := by decide)

end Sys2Proof.Machine
